-- ==== Sys2Proof/Word.lean ====
section
/-! DEFINITION. The word types of the block's ports, fields and storage entries (spec/10_state.md R32, R33, R43). -/

namespace Sys2Proof

/-- One byte: a `tx_mem` or `asm_buf` entry, a UART byte, the B field of a command. -/
abbrev Byte := BitVec 8

/-- The 16-bit CAP field, `h_cap`, `h_copied` and the COUNT field. -/
abbrev Half := BitVec 16

/-- A command word or a response word (R32). -/
abbrev Word := BitVec 32

/-- One `rx_mem` entry, MARK above DATA (spec/20_memory.md R84). -/
abbrev Entry := BitVec 9

end Sys2Proof
end

