-- ==== Sys2Proof/Config.lean ====
section
/-! DEFINITION. The elaboration parameters (spec/00_scope.md R10), the host's tasks, the events a run is made of, and the free values:
what happens past the end of the lined-up events, and what an array entry holds before it is written. -/

namespace Sys2Proof

/-- PUBLISH_POLICY: what the framing buffer does when RX lacks room for a frame (R10, spec/41_line_engines.md R236). -/
inductive PublishPolicy where
  | wait
  | drop
  deriving DecidableEq, Repr

/-- The parameters of R10. Their legal ranges are `Config.legal` (Machine/Params.lean). -/
structure Config where
  /-- TX_AW -/
  txAw : Nat
  /-- RX_AW -/
  rxAw : Nat
  /-- ASM_CAP -/
  asmCap : Nat
  /-- TERM -/
  term : Byte
  /-- SYNC_STAGES -/
  syncStages : Nat
  /-- TIMEOUT_W -/
  timeoutW : Nat
  /-- WTO, in ticks -/
  wto : Nat
  /-- RTO, in ticks -/
  rto : Nat
  /-- TICK_DIV -/
  tickDiv : Nat
  /-- PUBLISH_POLICY -/
  policy : PublishPolicy
  deriving DecidableEq, Repr

/-- Configuration P of spec/95_test_vectors.md: R10's stated values, and P's values for the OPEN parameters.
DESIGN CHOICE (log 1), unsafe for a claim about this one configuration only. -/
def Config.p : Config where
  txAw := 2
  rxAw := 3
  asmCap := 4
  term := 0x0D
  syncStages := 2
  timeoutW := 32
  wto := 2
  rto := 2
  tickDiv := 1
  policy := .wait

/-- What HostEnv still has to run: command words, and pseudo-instructions at the point they have reached
(spec/30_encoding.md R148 to R151; SENDLINE and QUERY are sequences of these, Machine/HostEnv.lean). -/
inductive HostTask where
  /-- One command word. -/
  | word (w : Word)
  /-- WRITEN: the bytes left to write and the count so far (R148). -/
  | writen (nb : Bool) (bytes : List Byte) (count : Nat)
  /-- DRAIN, about to issue AVAIL (R149). -/
  | drain
  /-- DRAIN, about to issue READ.nb (R149). -/
  | drainRead
  /-- QUERY's last command, READU TERM, cap, whose COUNT decides success (R151). -/
  | readu (cap : Half)
  deriving DecidableEq, Repr

/-- What happens next. A run is any sequence of these (R14): one clock edge with the inputs and the metastability
draws it samples (spec/20_memory.md R92; `true` takes the new value), a change of the host's mind, bytes arriving at the
UART, or a reset. -/
inductive Event where
  /-- One H edge. `offer`: HostEnv asserts `cmd_valid` if it has a command (R312). The draws are those of the chains
  `tx_rsync` and `rx_wsync`. -/
  | h (offer : Bool) (newTx newRx : Bool)
  /-- One L edge. `txReady` is `uart_tx_ready` (spec/41_line_engines.md R223). The draws are those of the chains
  `tx_wsync`, `rx_rsync` and `l_init_sync`. -/
  | l (txReady : Bool) (newTx newRx newInit : Bool)
  /-- HostEnv changes its mind about the commands not yet accepted: it will offer these instead, or none
  (spec/70_reset_and_hazards.md R312). -/
  | plan (tasks : List HostTask)
  /-- The UART receives bytes: they join `line_in` (spec/30_encoding.md R152 `@rx`). -/
  | rx (bytes : List Byte)
  /-- Both domains are reset (spec/70_reset_and_hazards.md R290). -/
  | reset
  /-- The H domain alone is reset: refused (R291). -/
  | resetHOnly
  /-- The L domain alone is reset: refused (R291). -/
  | resetLOnly
  deriving DecidableEq, Repr, Inhabited

/-- FREE VALUE: the n-th event past the end of the lined-up ones (log 3). R14: any interleaving. -/
opaque Config.freeEvent : Nat → Event

/-- FREE VALUE: what entry `i` of `tx_mem` (`arr` false) or `asm_buf` (`arr` true) holds before it is written, after
reset number `epoch` (spec/10_state.md R47; log 6). -/
opaque Config.powerUp8 : (arr : Bool) → (epoch i : Nat) → Byte

/-- FREE VALUE: what entry `i` of `rx_mem` holds before it is written, after reset number `epoch` (R47; log 6). -/
opaque Config.powerUp9 : (epoch i : Nat) → Entry

end Sys2Proof
end

