-- ==== Sys2Proof/Machine/Params.lean ====
section
/-! DEFINITION. The derived parameters and the legal ranges (spec/00_scope.md R10 to R12). -/

namespace Sys2Proof

/-- `clog2(n)`: the least k with 2^k ≥ n (R12). -/
def clog2 (n : Nat) : Nat := if n ≤ 1 then 0 else Nat.log2 (n - 1) + 1

/-- TX_DEPTH = 2^TX_AW (R10). -/
def Config.txDepth (c : Config) : Nat := 2 ^ c.txAw

/-- RX_DEPTH = 2^RX_AW (R10). -/
def Config.rxDepth (c : Config) : Nat := 2 ^ c.rxAw

/-- INF = 2^TIMEOUT_W − 1, the timeout that never expires (R10). -/
def Config.inf (c : Config) : Nat := 2 ^ c.timeoutW - 1

/-- CW, the width of the framing cursor, length and publish index (R12). -/
def Config.cw (c : Config) : Nat := clog2 (c.asmCap + 1)

/-- DW, the width of the tick prescaler (R12). -/
def Config.dw (c : Config) : Nat := clog2 c.tickDiv

/-- TX_PW (R12). -/
def Config.txPw (c : Config) : Nat := c.txAw + 1

/-- RX_PW (R12). -/
def Config.rxPw (c : Config) : Nat := c.rxAw + 1

/-- The legal ranges of R10, and R11's RX_DEPTH ≥ ASM_CAP + 1. TERM's range is its type. -/
def Config.legal (c : Config) : Bool :=
  decide (1 ≤ c.txAw) && decide (1 ≤ c.rxAw) && decide (c.asmCap + 1 ≤ c.rxDepth) &&
    decide (1 ≤ c.asmCap) && decide (c.asmCap ≤ 65535) && decide (2 ≤ c.syncStages) &&
    decide (1 ≤ c.timeoutW) && decide (c.wto ≤ c.inf) && decide (c.rto ≤ c.inf) && decide (1 ≤ c.tickDiv)

end Sys2Proof
end

