-- ==== Sys2Proof/Machine/State.lean ====
section
/-! DEFINITION. The state of the block and of its environment agents, as plain data (spec/10_state.md), the reasons a
step can stop, and the state after reset. -/

namespace Sys2Proof.Machine

/-- `h_state` (R35): IDLE, WAIT, UNTIL. 0b11 never occurs, so it has no constructor. -/
inductive SeqState where
  | idle
  | wait
  | untilEnd
  deriving DecidableEq, Repr

/-- `f_state` (R41): EMPTY, ACCUM, TERMD, OVF. -/
inductive FrameState where
  | empty
  | accum
  | termd
  | ovf
  deriving DecidableEq, Repr

/-- A `cdc_gray_counter` (spec/20_memory.md R85): the binary count and its registered Gray copy. -/
structure GrayCounter where
  bin : Nat
  gray : Nat
  deriving DecidableEq, Repr

/-- The bookkeeping of a register another domain samples: `g.prev` and `g.fresh` (R46, R93). -/
structure Change (α : Type) where
  prev : α
  fresh : Bool
  deriving DecidableEq, Repr

/-- The H-domain registers (R34 to R37). A register whose width is a parameter is a `Nat`, narrowed at each write
(log 5); a chain lists stage 1 first. -/
structure HRegs where
  /-- `h_init` -/
  init : Bool
  /-- `tick_cnt` -/
  tickCnt : Nat
  /-- `h_state` -/
  seq : SeqState
  /-- `h_op` -/
  op : BitVec 4
  /-- `h_byte` -/
  byte : Byte
  /-- `h_cap` -/
  cap : Half
  /-- `h_to` -/
  timeLeft : Nat
  /-- `h_copied` -/
  copied : Half
  /-- `h_stop` -/
  stop : Bool
  /-- `rsp_valid` -/
  rspValid : Bool
  /-- `rsp_word` -/
  rspWord : Word
  /-- `tx_wbin`, `tx_wgray` -/
  txW : GrayCounter
  /-- `tx_rsync` -/
  txRsync : List Nat
  /-- `rx_rbin`, `rx_rgray` -/
  rxR : GrayCounter
  /-- `rx_wsync` -/
  rxWsync : List Nat
  deriving DecidableEq, Repr

/-- The L-domain registers (R38 to R41). -/
structure LRegs where
  /-- `l_init_sync` -/
  initSync : List Bool
  /-- `tx_rbin`, `tx_rgray` -/
  txR : GrayCounter
  /-- `tx_wsync` -/
  txWsync : List Nat
  /-- `rx_wbin`, `rx_wgray` -/
  rxW : GrayCounter
  /-- `rx_rsync` -/
  rxRsync : List Nat
  /-- `f_state` -/
  fState : FrameState
  /-- `f_cursor` -/
  fCursor : Nat
  /-- `f_len` -/
  fLen : Nat
  /-- `f_pub` -/
  fPub : Bool
  /-- `f_pidx` -/
  fPidx : Nat
  deriving DecidableEq, Repr

/-- The bookkeeping of the five sampled registers (R46): `tx_wgray`, `tx_rgray`, `rx_wgray`, `rx_rgray`, `h_init`. -/
structure Changes where
  txW : Change Nat
  txR : Change Nat
  rxW : Change Nat
  rxR : Change Nat
  init : Change Bool
  deriving DecidableEq, Repr

/-- The written entries of a storage array of `w`-bit entries, by rising index. An entry that is not listed has not
been written since reset. `Memory 8` is a list of `Host.Cell`. -/
abbrev Memory (w : Nat) := List (Nat × BitVec w)

/-- The three storage arrays (R43), and how many resets they have been through (log 6). -/
structure Storage where
  /-- `tx_mem` -/
  tx : Memory 8
  /-- `rx_mem` -/
  rx : Memory 9
  /-- `asm_buf` -/
  asm : Memory 8
  epoch : Nat
  deriving DecidableEq, Repr

/-- LineEnv's state (R46). -/
structure LineEnv where
  /-- `line_in` -/
  inp : List Byte
  /-- `line_out` -/
  out : List Byte
  deriving DecidableEq, Repr

/-- What a finished pseudo-instruction returns (R148, R149, R151). -/
inductive HostResult where
  | wrote (count : Nat)
  | drained
  | queried (success : Bool)
  deriving DecidableEq, Repr

/-- HostEnv's state (R31, R46), and the two inputs it drove at the last H edge (R32). -/
structure HostEnv where
  todo : List HostTask
  /-- The command at the head of `todo` was accepted and its FINAL beat is awaited. -/
  awaiting : Bool
  /-- The index of the next command to issue (R31). -/
  issued : Nat
  /-- How many commands it issued whose FINAL beat it has not sampled (R313, log 29). -/
  unanswered : Nat
  /-- The responses sampled, in order (R46). -/
  log : List Word
  results : List HostResult
  cmdValid : Bool
  cmdWord : Word
  deriving DecidableEq, Repr

/-- The events lined up next, and how many free events have been drawn (log 3). -/
structure Schedule where
  events : List Event
  drawn : Nat
  deriving DecidableEq, Repr

/-- The whole machine: parameters, registers of both domains, bookkeeping, arrays, environment, schedule. -/
structure State where
  cfg : Config
  h : HRegs
  l : LRegs
  chg : Changes
  mem : Storage
  line : LineEnv
  host : HostEnv
  sched : Schedule
  deriving DecidableEq, Repr

/-- Why a step stops with a fault. No instruction's meaning raises one. -/
inductive Fault where
  /-- Raised by `waitStep`: WAIT with an `h_op` that is no waiting command. R35 says that h_op holds the pending
  command's opcode, so no run reaches it. Safe. -/
  | pendingOpcode
  /-- Raised by the framing step: an index of `asm_buf` at or past ASM_CAP, an entry the spec says does not exist
  (R43). R42 shows that no run reaches it. Safe. -/
  | outsideAsmBuf
  deriving DecidableEq, Repr

/-- Why a step is refused. No instruction's meaning raises one. -/
inductive Refusal where
  /-- An instruction that has no meaning yet; no arm of `exec` uses it. Safe. -/
  | notModelled (mnemonic : String)
  /-- Raised by `step`: the parameters break a range of R10; R11 says that a model refuses it. Safe. -/
  | illegalConfiguration
  /-- Raised by `step`: one domain is reset alone; R291 says that a model refuses such a run. Safe. -/
  | singleDomainReset
  deriving DecidableEq, Repr

/-- R34 to R37's reset column. -/
def HRegs.reset (c : Config) : HRegs where
  init := false
  tickCnt := 0
  seq := .idle
  op := 0
  byte := 0
  cap := 0
  timeLeft := 0
  copied := 0
  stop := false
  rspValid := false
  rspWord := 0
  txW := ⟨0, 0⟩
  txRsync := List.replicate c.syncStages 0
  rxR := ⟨0, 0⟩
  rxWsync := List.replicate c.syncStages 0

/-- R38 to R41's reset column. -/
def LRegs.reset (c : Config) : LRegs where
  initSync := List.replicate c.syncStages false
  txR := ⟨0, 0⟩
  txWsync := List.replicate c.syncStages 0
  rxW := ⟨0, 0⟩
  rxRsync := List.replicate c.syncStages 0
  fState := .empty
  fCursor := 0
  fLen := 0
  fPub := false
  fPidx := 0

/-- R46: prev is the reset value and fresh is 0. -/
def Changes.reset : Changes where
  txW := ⟨0, false⟩
  txR := ⟨0, false⟩
  rxW := ⟨0, false⟩
  rxR := ⟨0, false⟩
  init := ⟨false, false⟩

/-- HostEnv before it has anything to do. DESIGN CHOICE (log 17). -/
def HostEnv.start : HostEnv where
  todo := []
  awaiting := false
  issued := 0
  unanswered := 0
  log := []
  results := []
  cmdValid := false
  cmdWord := 0

/-- The machine right after reset under the parameters `c` (R47), its environment idle. -/
def State.resetWith (c : Config) : State where
  cfg := c
  h := HRegs.reset c
  l := LRegs.reset c
  chg := Changes.reset
  mem := ⟨[], [], [], 0⟩
  line := ⟨[], []⟩
  host := HostEnv.start
  sched := ⟨[], 0⟩

/-- The machine right after reset (R47), in configuration P (log 1). -/
def State.reset : State := State.resetWith Config.p

end Sys2Proof.Machine
end

