-- ==== Sys2Proof/Machine/Ops.lean ====
section
/-! DEFINITION. The named operations over storage and registers: Gray code, array access, Push and Pop, the synchroniser
chains, the tick prescaler, `respond`, and reset (spec/20_memory.md, spec/30_encoding.md R140, spec/60_exceptions.md
R275, spec/70_reset_and_hazards.md R290). The block takes no exceptions (R260): a failure is a `respond`. -/

namespace Sys2Proof.Machine

/-- `b2g` (spec/00_scope.md R19). -/
def b2g (b : Nat) : Nat := b ^^^ (b >>> 1)

/-- `g2b` on W-bit values (R19): r[W-1] = g[W-1], r[i] = r[i+1] XOR g[i]. -/
def g2b : (w g : Nat) → Nat
  | 0, _ => 0
  | w + 1, g =>
    let hi := g2b w (g >>> 1)
    2 * hi + ((hi ^^^ g) % 2)

/-- `(a − b) mod 2^w` (R16). -/
def subMod (w a b : Nat) : Nat := (a + 2 ^ w - b % 2 ^ w) % 2 ^ w

/-- One step of a `cdc_gray_counter` with inc = 1 (R85). -/
def GrayCounter.inc (w : Nat) (c : GrayCounter) : GrayCounter :=
  ⟨(c.bin + 1) % 2 ^ w, b2g ((c.bin + 1) % 2 ^ w)⟩

/-- The entry stored at index `i`, if one was written (R18 MemRead). -/
def Memory.read {w : Nat} : Memory w → Nat → Option (BitVec w)
  | [], _ => none
  | (j, x) :: m, i => if i = j then some x else Memory.read m i

/-- Store `v` at index `i`, keeping indices strictly rising (R18 MemWrite). -/
def Memory.write {w : Nat} : Memory w → Nat → BitVec w → Memory w
  | [], i, v => [(i, v)]
  | (j, x) :: m, i, v =>
    if i < j then (i, v) :: (j, x) :: m
    else if i = j then (i, v) :: m
    else (j, x) :: Memory.write m i v

/-- The one canonical form of an array: indices strictly rising. An unlisted entry has no stored value, so no listed
one equals it. -/
abbrev Memory.wf {w : Nat} (m : Memory w) : Prop := m.Pairwise fun a b => a.1 < b.1

/-- Entry `i` of `tx_mem`; a free value before it is written (R47). -/
def Storage.txAt (m : Storage) (i : Nat) : Byte := (m.tx.read i).getD (Config.powerUp8 false m.epoch i)

/-- Entry `i` of `asm_buf`; a free value before it is written (R47). -/
def Storage.asmAt (m : Storage) (i : Nat) : Byte := (m.asm.read i).getD (Config.powerUp8 true m.epoch i)

/-- Entry `i` of `rx_mem`; a free value before it is written (R47). -/
def Storage.rxAt (m : Storage) (i : Nat) : Entry := (m.rx.read i).getD (Config.powerUp9 m.epoch i)

/-- MARK, bit 8 of an RX entry (R84). -/
def Entry.mark (e : Entry) : Bool := e.getLsbD 8

/-- DATA, bits 7:0 of an RX entry (R84). -/
def Entry.data (e : Entry) : Byte := e.extractLsb' 0 8

/-- A data entry {0, b} (R84, R237). -/
def dataEntry (b : Byte) : Entry := 0#1 ++ b

/-- The END marker {1, 0x00} (R84, R237). -/
def endMarker : Entry := 1#1 ++ 0#8

/-- Push(TX, b) (R106). -/
def State.pushTx (b : Byte) (s : State) : State :=
  { s with
    mem := { s.mem with tx := s.mem.tx.write (s.h.txW.bin % s.cfg.txDepth) b }
    h := { s.h with txW := s.h.txW.inc s.cfg.txPw }
    chg := { s.chg with txW := ⟨s.h.txW.gray, true⟩ } }

/-- The head entry of TX, as L reads it (R102). -/
def State.txHeadL (s : State) : Byte := s.mem.txAt (s.l.txR.bin % s.cfg.txDepth)

/-- Pop(TX) (R107): what changes; the entry returned is `txHeadL`. -/
def State.popTx (s : State) : State :=
  { s with
    l := { s.l with txR := s.l.txR.inc s.cfg.txPw }
    chg := { s.chg with txR := ⟨s.l.txR.gray, true⟩ } }

/-- Push(RX, e) (R106). -/
def State.pushRx (e : Entry) (s : State) : State :=
  { s with
    mem := { s.mem with rx := s.mem.rx.write (s.l.rxW.bin % s.cfg.rxDepth) e }
    l := { s.l with rxW := s.l.rxW.inc s.cfg.rxPw }
    chg := { s.chg with rxW := ⟨s.l.rxW.gray, true⟩ } }

/-- The head entry of RX, as H reads it (R103). -/
def State.rxHeadH (s : State) : Entry := s.mem.rxAt (s.h.rxR.bin % s.cfg.rxDepth)

/-- Pop(RX) (R107): what changes; the entry returned is `rxHeadH`. -/
def State.popRx (s : State) : State :=
  { s with
    h := { s.h with rxR := s.h.rxR.inc s.cfg.rxPw }
    chg := { s.chg with rxR := ⟨s.h.rxR.gray, true⟩ } }

/-- `sample(src)` (R91, R92): the source, or, if it is fresh, the draw between it and its previous value. -/
def sample {α : Type} (takeNew : Bool) (cur : α) (c : Change α) : α :=
  if c.fresh && !takeNew then c.prev else cur

/-- A chain's shift (R89): stage 1 takes `x`, each later stage the one before it. -/
def shiftIn {α : Type} (x : α) (chain : List α) : List α := (x :: chain).dropLast

/-- After the step that samples it, a source is no longer fresh (R92). -/
def Change.settle {α : Type} (c : Change α) : Change α := { c with fresh := false }

/-- The shifts of an H step: `tx_rsync` and `rx_wsync` (R89, R170). DESIGN CHOICE (log 27): the chains shift with no L
step too, so a second AVAIL may answer otherwise than the first (R89, R113, R186 b), against R117's words. -/
def State.syncH (newTx newRx : Bool) (s : State) : State :=
  { s with
    h := { s.h with
      txRsync := shiftIn (sample newTx s.l.txR.gray s.chg.txR) s.h.txRsync
      rxWsync := shiftIn (sample newRx s.l.rxW.gray s.chg.rxW) s.h.rxWsync }
    chg := { s.chg with txR := s.chg.txR.settle, rxW := s.chg.rxW.settle } }

/-- The shifts of an L step: `tx_wsync`, `rx_rsync` and `l_init_sync` (R89, R225). -/
def State.syncL (newTx newRx newInit : Bool) (s : State) : State :=
  { s with
    l := { s.l with
      txWsync := shiftIn (sample newTx s.h.txW.gray s.chg.txW) s.l.txWsync
      rxRsync := shiftIn (sample newRx s.h.rxR.gray s.chg.rxR) s.l.rxRsync
      initSync := shiftIn (sample newInit s.h.init s.chg.init) s.l.initSync }
    chg := { s.chg with txW := s.chg.txW.settle, rxR := s.chg.rxR.settle, init := s.chg.init.settle } }

/-- `tick`: the pre-step `tick_cnt` is TICK_DIV − 1 (R172, R275). -/
def State.tick (s : State) : Bool := s.h.tickCnt == s.cfg.tickDiv - 1

/-- The tick prescaler (R275). -/
def State.prescale (s : State) : State :=
  { s with h := { s.h with tickCnt := (s.h.tickCnt + 1) % s.cfg.tickDiv } }

/-- ST (spec/30_encoding.md R141). -/
inductive St where
  | fail
  | ok
  | illegal
  deriving DecidableEq, Repr

/-- KIND (R142). -/
inductive Kind where
  | final
  | data
  deriving DecidableEq, Repr

/-- CAUSE (R143). -/
inductive Cause where
  | none
  | timeout
  | uninit
  | badop
  | rsvbits
  deriving DecidableEq, Repr

/-- ST's code (R141). -/
def stCode : St → BitVec 2
  | .fail => 0b00
  | .ok => 0b01
  | .illegal => 0b10

/-- KIND's code (R142). -/
def kindCode : Kind → BitVec 2
  | .final => 0b00
  | .data => 0b01

/-- CAUSE's code (R143). -/
def causeCode : Cause → BitVec 4
  | .none => 0x0
  | .timeout => 0x1
  | .uninit => 0x2
  | .badop => 0x3
  | .rsvbits => 0x4

/-- The response word {COUNT, DATA, CAUSE, KIND, ST} (R140). -/
def rspPack (st : St) (kind : Kind) (cause : Cause) (data : Byte) (count : Half) : Word :=
  count ++ data ++ causeCode cause ++ kindCode kind ++ stCode st

/-- ST of a response word, bits 1:0 (R140). -/
def rspSt (w : Word) : BitVec 2 := w.extractLsb' 0 2

/-- KIND of a response word, bits 3:2 (R140). -/
def rspKind (w : Word) : BitVec 2 := w.extractLsb' 2 2

/-- CAUSE of a response word, bits 7:4 (R140). -/
def rspCause (w : Word) : BitVec 4 := w.extractLsb' 4 4

/-- DATA of a response word, bits 15:8 (R140). -/
def rspData (w : Word) : Byte := w.extractLsb' 8 8

/-- COUNT of a response word, bits 31:16 (R140). -/
def rspCount (w : Word) : Half := w.extractLsb' 16 16

/-- `respond(ST, KIND, CAUSE, DATA, COUNT)` (R140). -/
def State.respond (st : St) (kind : Kind) (cause : Cause) (data : Byte) (count : Half) (s : State) : State :=
  { s with h := { s.h with rspValid := true, rspWord := rspPack st kind cause data count } }

/-- `rsp_valid <- 0`, which a `respond` later in the step overrides (R140, R172). -/
def State.clearRsp (s : State) : State := { s with h := { s.h with rspValid := false } }

/-- `h_state <- q` -/
def State.setSeq (q : SeqState) (s : State) : State := { s with h := { s.h with seq := q } }

/-- `h_init <- 1`, with `prev` and `fresh` when `h_init` was 0 (R93, R180). -/
def State.setInit (s : State) : State :=
  if s.h.init then s
  else { s with h := { s.h with init := true }, chg := { s.chg with init := ⟨false, true⟩ } }

/-- The reset event (R290): every register of both domains and the bookkeeping take their reset values, the arrays
become unspecified again (R47), and `line_in`, `line_out` and HostEnv are left alone. -/
def State.applyReset (s : State) : State :=
  { s with
    h := HRegs.reset s.cfg
    l := LRegs.reset s.cfg
    chg := Changes.reset
    mem := ⟨[], [], [], s.mem.epoch + 1⟩ }

/-- The UART receives bytes (spec/30_encoding.md R152, R221). -/
def State.receive (bytes : List Byte) (s : State) : State :=
  { s with line := { s.line with inp := s.line.inp ++ bytes } }

/-- Apply `f` to the state a step goes on to; a fault or a refusal stays. -/
def mapNext (f : State → State) : Host.Outcome State Fault Refusal → Host.Outcome State Fault Refusal
  | .next s => .next (f s)
  | .fault r => .fault r
  | .refused r => .refused r

end Sys2Proof.Machine
end

