-- ==== Sys2Proof/Machine/Flags.lean ====
section
/-! DEFINITION. The flags and the output ports, combinational in the current registers (spec/20_memory.md R100 to R105,
spec/10_state.md R32, R33, R44; spec/41_line_engines.md R221, R222, R226). -/

namespace Sys2Proof.Machine

/-- The synchronised value of a pointer chain, its last stage (R90). -/
def synced (chain : List Nat) : Nat := chain.getLastD 0

/-- `l_init`, the last stage of `l_init_sync` (R38). -/
def State.lInit (s : State) : Bool := s.l.initSync.getLastD false

/-- `tx_cnt_h` (R101). -/
def State.txCntH (s : State) : Nat := subMod s.cfg.txPw s.h.txW.bin (g2b s.cfg.txPw (synced s.h.txRsync))

/-- `tx_full_h` (R101). -/
def State.txFullH (s : State) : Bool := s.txCntH == s.cfg.txDepth

/-- The Gray-domain full test of R101: tx_wgray equals the synchronised read pointer with its two top bits inverted. -/
def State.txFullGray (s : State) : Bool :=
  s.h.txW.gray == synced s.h.txRsync ^^^ (3 * 2 ^ (s.cfg.txAw - 1))

/-- `tx_empty_l` (R102). -/
def State.txEmptyL (s : State) : Bool := s.l.txR.gray == synced s.l.txWsync

/-- `rx_empty_h` (R103). -/
def State.rxEmptyH (s : State) : Bool := s.h.rxR.gray == synced s.h.rxWsync

/-- `rx_cnt_h` (R103). -/
def State.rxCntH (s : State) : Nat := subMod s.cfg.rxPw (g2b s.cfg.rxPw (synced s.h.rxWsync)) s.h.rxR.bin

/-- `rx_cnt_l` (R104). -/
def State.rxCntL (s : State) : Nat := subMod s.cfg.rxPw s.l.rxW.bin (g2b s.cfg.rxPw (synced s.l.rxRsync))

/-- `rx_free_l` (R104). -/
def State.rxFreeL (s : State) : Nat := s.cfg.rxDepth - s.rxCntL

/-- `rx_full_l` (R104). -/
def State.rxFullL (s : State) : Bool := s.rxFreeL == 0

/-- The number of TX entries L sees. R111 speaks of it; no rule computes it. -/
def State.txCntL (s : State) : Nat := subMod s.cfg.txPw (g2b s.cfg.txPw (synced s.l.txWsync)) s.l.txR.bin

/-- The true occupancy of TX, which no hardware signal computes (R110). -/
def State.occTx (s : State) : Nat := subMod s.cfg.txPw s.h.txW.bin s.l.txR.bin

/-- The true occupancy of RX (R110). -/
def State.occRx (s : State) : Nat := subMod s.cfg.rxPw s.l.rxW.bin s.h.rxR.bin

/-- `cmd_ready` = (h_state = IDLE) and `rst_h_n` (R32, R171). In the model a step happens only out of reset. -/
def State.cmdReady (rstHN : Bool) (s : State) : Bool := rstHN && s.h.seq == .idle

/-- `uart_rx_valid` (R221). -/
def State.uartRxValid (s : State) : Bool := !s.line.inp.isEmpty

/-- `uart_rx_data`, the first byte of `line_in` (R221); none while `uart_rx_valid` = 0. -/
def State.uartRxData (s : State) : Option Byte := s.line.inp.head?

/-- `uart_rx_ready` (R226). -/
def State.uartRxReady (s : State) : Bool := s.lInit && (s.l.fState == .empty || s.l.fState == .accum)

/-- `uart_tx_valid` (R222). -/
def State.uartTxValid (s : State) : Bool := s.lInit && !s.txEmptyL

/-- `uart_tx_data` (R222). -/
def State.uartTxData (s : State) : Byte := s.txHeadL

/-- `h_state`'s code (R35). -/
def seqCode : SeqState → BitVec 2
  | .idle => 0b00
  | .wait => 0b01
  | .untilEnd => 0b10

/-- `f_state`'s code (R41). -/
def frameCode : FrameState → BitVec 2
  | .empty => 0b00
  | .accum => 0b01
  | .termd => 0b10
  | .ovf => 0b11

end Sys2Proof.Machine
end

