-- ==== Sys2Proof/Machine/Avail.lean ====
section
/-! DEFINITION. AVAIL (spec/40_host_commands.md R186). -/

namespace Sys2Proof.Machine

/-- AVAIL (R186): whether H sees an entry in RX; pops nothing and never waits. -/
def execAvail (s : State) : Host.Outcome State Fault Refusal :=
  if !s.h.init then .next (s.respond .fail .final .uninit 0 0)
  else if !s.rxEmptyH then .next (s.respond .ok .final .none 0 0)
  else .next (s.respond .fail .final .none 0 0)

end Sys2Proof.Machine
end

