-- ==== Sys2Proof/Syntax.lean ====
section
/-! DEFINITION. The host commands: one constructor per row of spec/opcode_table.json (spec/30_encoding.md R132, R136, R139). -/

namespace Sys2Proof

/-- A decoded command word. A field the command ignores (R135) is not kept. The four illegal rows keep the bits of
the offending word, so that encoding an illegal command gives that word back (log 22). -/
inductive Instr where
  /-- INIT (R180). -/
  | init
  /-- WRITE b, NB = 0 (R183). -/
  | write (b : Byte)
  /-- WRITE.nb b, NB = 1 (R183). -/
  | writeNb (b : Byte)
  /-- AVAIL (R186). -/
  | avail
  /-- READ, NB = 0 (R189). -/
  | read
  /-- READ.nb, NB = 1 (R189). -/
  | readNb
  /-- READU term, cap, NB = 0 (R195). -/
  | readu (term : Byte) (cap : Half)
  /-- READU.nb term, cap, NB = 1 (R195). -/
  | readuNb (term : Byte) (cap : Half)
  /-- ILLEGAL(BADOP): OP 0x0; `rest` is bits 27:0 (R139). -/
  | illegalOp0 (rest : BitVec 28)
  /-- ILLEGAL(BADOP): OP 0x6 or 0x7 (R139). -/
  | illegalOp67 (op : BitVec 4) (rest : BitVec 28)
  /-- ILLEGAL(BADOP): OP 0x8 to 0xF (R139). -/
  | illegalOp8F (op : BitVec 4) (rest : BitVec 28)
  /-- ILLEGAL(RSVBITS): OP 0x1 to 0x5 with RSV not 0 (R139). -/
  | illegalRsv (op : BitVec 4) (nb : Bool) (rsv : BitVec 3) (cap : Half) (b : Byte)
  deriving DecidableEq, Repr

end Sys2Proof
end

