-- ==== Sys2Proof/Machine/Illegal.lean ====
section
/-! DEFINITION. The illegal words (spec/40_host_commands.md R207): answered ILLEGAL at once, before INIT too, and nothing
else changes. -/

namespace Sys2Proof.Machine

/-- The cause an illegal command reports; none for a legal one (R136, R139). -/
def illegalCause : Instr → Option Cause
  | .illegalOp0 _ => some .badop
  | .illegalOp67 _ _ => some .badop
  | .illegalOp8F _ _ => some .badop
  | .illegalRsv _ _ _ _ _ => some .rsvbits
  | .init | .write _ | .writeNb _ | .avail | .read | .readNb | .readu _ _ | .readuNb _ _ => none

/-- R207: the answer to an illegal word. -/
def answerIllegal (cause : Cause) (s : State) : State := s.respond .illegal .final cause 0 0

/-- ILLEGAL(BADOP), OP 0x0 (R139, R207). -/
def execIllegalOp0 (s : State) : Host.Outcome State Fault Refusal := .next (answerIllegal .badop s)

/-- ILLEGAL(BADOP), OP 0x6 or 0x7 (R139, R207). -/
def execIllegalOp67 (s : State) : Host.Outcome State Fault Refusal := .next (answerIllegal .badop s)

/-- ILLEGAL(BADOP), OP 0x8 to 0xF (R139, R207). -/
def execIllegalOp8F (s : State) : Host.Outcome State Fault Refusal := .next (answerIllegal .badop s)

/-- ILLEGAL(RSVBITS) (R139, R207). -/
def execIllegalRsv (s : State) : Host.Outcome State Fault Refusal := .next (answerIllegal .rsvbits s)

end Sys2Proof.Machine
end

