-- ==== Sys2Proof/Machine/Init.lean ====
section
/-! DEFINITION. INIT (spec/40_host_commands.md R180). -/

namespace Sys2Proof.Machine

/-- INIT (R180): `h_init <- 1`, answered OK; idempotent. -/
def execInit (s : State) : Host.Outcome State Fault Refusal :=
  .next (s.setInit.respond .ok .final .none 0 0)

end Sys2Proof.Machine
end

