-- ==== Sys2Proof/Machine/Operands.lean ====
section
/-! DEFINITION. The operands of a waiting command: its opcode, its effective timeout, its copy limit, and the latched
command fields (spec/30_encoding.md R133, R134; spec/40_host_commands.md R173, R174, R195). -/

namespace Sys2Proof.Machine

/-- The commands that can wait: WRITE, READ, READU (R174). -/
inductive WaitOp where
  | write
  | read
  | readu
  deriving DecidableEq, Repr

/-- The opcode latched in `h_op` (R35; spec/30_encoding.md R132). -/
def waitOpCode : WaitOp → BitVec 4
  | .write => 0x2
  | .read => 0x4
  | .readu => 0x5

/-- The waiting command whose opcode `h_op` holds, if it holds one. -/
def waitOpOf (op : BitVec 4) : Option WaitOp :=
  if op = 0x2 then some .write else if op = 0x4 then some .read else if op = 0x5 then some .readu else none

/-- The operands of an attempt, `ops` of R174: from the command at acceptance, from the latched registers later. -/
structure Operands where
  b : Byte
  cap : Half
  copied : Half
  stop : Bool
  deriving DecidableEq, Repr

/-- `ops` from the latched registers (R175, R199). -/
def State.latchedOps (s : State) : Operands := ⟨s.h.byte, s.h.cap, s.h.copied, s.h.stop⟩

/-- The effective timeout T, in ticks (R173, spec/30_encoding.md R133). -/
def effTimeout (c : Config) (op : WaitOp) (nb : Bool) : Nat :=
  if nb then 0
  else match op with
    | .write => c.wto
    | .read => c.rto
    | .readu => c.rto

/-- READU's copy limit, `lim = min(CAP, ASM_CAP)` (R195, spec/30_encoding.md R134). -/
def copyLimit (c : Config) (cap : Half) : Nat := min cap.toNat c.asmCap

/-- Bits 7:0 of the word on the command port: the B field of a command that does not use B (R35, log 7). -/
def State.portB (s : State) : Byte := s.host.cmdWord.extractLsb' 0 8

/-- Bits 23:8 of the word on the command port: the CAP field of a command that does not use CAP (R35, log 7). -/
def State.portCap (s : State) : Half := s.host.cmdWord.extractLsb' 8 16

/-- The latching of a waiting command at acceptance (R174). -/
def State.latch (op : WaitOp) (b : Byte) (cap : Half) (s : State) : State :=
  { s with h := { s.h with op := waitOpCode op, byte := b, cap := cap, copied := 0, stop := false } }

end Sys2Proof.Machine
end

