-- ==== Sys2Proof/Machine/Act.lean ====
section
/-! DEFINITION. What a waiting command does once its condition holds: `cond` and `act` of each
(spec/40_host_commands.md R174, R183, R190, R197). -/

namespace Sys2Proof.Machine

/-- `cond` (R174): room in TX for WRITE, an entry in RX for READ and READU, as H sees them. -/
def condition (op : WaitOp) (s : State) : Bool :=
  match op with
  | .write => !s.txFullH
  | .read => !s.rxEmptyH
  | .readu => !s.rxEmptyH

/-- WRITE's `act` (R183): push the byte, answer OK with COUNT 1. -/
def actWrite (ops : Operands) (s : State) : State :=
  ((s.pushTx ops.b).respond .ok .final .none 0 1).setSeq .idle

/-- READ's `act` (R190): a data entry is the answer; an END marker is discarded and the wait goes on under the
timeout still available. -/
def actRead (timeout : Nat) (s : State) : State :=
  if Entry.mark s.rxHeadH then
    { s.popRx with h := { s.popRx.h with timeLeft := timeout, seq := .wait } }
  else (s.popRx.respond .ok .final .none (Entry.data s.rxHeadH) 0).setSeq .idle

/-- READU's handling of one data entry (R197): copy it as a DATA beat, or stop at the terminator, or discard it. -/
def copyByte (ops : Operands) (d : Byte) (s : State) : State :=
  if !ops.stop && decide (ops.copied.toNat < copyLimit s.cfg ops.cap) then
    if d = ops.b then { s with h := { s.h with stop := true } }
    else
      let t := s.respond .ok .data .none d ops.copied
      { t with h := { t.h with copied := ops.copied + 1 } }
  else s

/-- READU's `process(Pop(RX), ops)` (R197): the END marker ends the command; a data entry leaves it in UNTIL. -/
def processEntry (ops : Operands) (s : State) : State :=
  if Entry.mark s.rxHeadH then (s.popRx.respond .ok .final .none 0 ops.copied).setSeq .idle
  else (copyByte ops (Entry.data s.rxHeadH) s.popRx).setSeq .untilEnd

/-- `act(ops, to)` (R174): the waiting command's own rule. READU ignores the timeout (R197). -/
def act (op : WaitOp) (ops : Operands) (timeout : Nat) (s : State) : State :=
  match op with
  | .write => actWrite ops s
  | .read => actRead timeout s
  | .readu => processEntry ops s

end Sys2Proof.Machine
end

