-- ==== Sys2Proof/Machine/Arbiter.lean ====
section
/-! DEFINITION. The timeout arbiter: acceptance of a waiting command, the WAIT step and the UNTIL step
(spec/40_host_commands.md R174 to R178, R199). -/

namespace Sys2Proof.Machine

/-- `accept(c)` for WRITE, READ and READU (R174): UNINIT first, then the attempt, then T = 0, else WAIT under T. -/
def acceptWaiting (op : WaitOp) (nb : Bool) (b : Byte) (cap : Half) (s : State) : State :=
  if !s.h.init then s.respond .fail .final .uninit 0 0
  else
    let t := s.latch op b cap
    let limit := effTimeout s.cfg op nb
    if condition op s then act op ⟨b, cap, 0, false⟩ limit t
    else if limit = 0 then t.respond .fail .final .timeout 0 0
    else { t with h := { t.h with timeLeft := limit, seq := .wait } }

/-- `wait_step` for the pending command `op` (R175): completion, then expiry, then a tick. -/
def waitFor (op : WaitOp) (s : State) : State :=
  if condition op s then act op s.latchedOps s.h.timeLeft s
  else if s.h.timeLeft = 0 then (s.respond .fail .final .timeout 0 0).setSeq .idle
  else if s.tick && s.h.timeLeft != s.cfg.inf then { s with h := { s.h with timeLeft := s.h.timeLeft - 1 } }
  else s

/-- `wait_step` (R175), for the command `h_op` holds. An `h_op` of no waiting command has no `cond` (log 8). -/
def waitStep (s : State) : Host.Outcome State Fault Refusal :=
  match waitOpOf s.h.op with
  | some op => .next (waitFor op s)
  | none => .fault .pendingOpcode

/-- `until_step` (R199): the frame's next entry when one is visible, else hold. -/
def untilStep (s : State) : State :=
  if s.rxEmptyH then s else processEntry s.latchedOps s

end Sys2Proof.Machine
end

