-- ==== Sys2Proof/Machine/Read.lean ====
section
/-! DEFINITION. READ and READ.nb (spec/40_host_commands.md R189 to R191). CAP and B are ignored (R135). -/

namespace Sys2Proof.Machine

/-- READ, bounded by RTO (R173, R174, R190). -/
def execRead (s : State) : Host.Outcome State Fault Refusal :=
  .next (acceptWaiting .read false s.portB s.portCap s)

/-- READ.nb, one attempt, and more only past END markers (R173, R174, R190, R191). -/
def execReadNb (s : State) : Host.Outcome State Fault Refusal :=
  .next (acceptWaiting .read true s.portB s.portCap s)

end Sys2Proof.Machine
end

