-- ==== Sys2Proof/Machine/ReadU.lean ====
section
/-! DEFINITION. READU and READU.nb (spec/40_host_commands.md R195 to R201). -/

namespace Sys2Proof.Machine

/-- READU term, cap, its first entry bounded by RTO (R173, R174, R197). -/
def execReadu (term : Byte) (cap : Half) (s : State) : Host.Outcome State Fault Refusal :=
  .next (acceptWaiting .readu false term cap s)

/-- READU.nb term, cap, one attempt at its first entry (R173, R174, R197). -/
def execReaduNb (term : Byte) (cap : Half) (s : State) : Host.Outcome State Fault Refusal :=
  .next (acceptWaiting .readu true term cap s)

end Sys2Proof.Machine
end

