-- ==== Sys2Proof/Machine/Write.lean ====
section
/-! DEFINITION. WRITE and WRITE.nb (spec/40_host_commands.md R183). CAP is ignored (R135). -/

namespace Sys2Proof.Machine

/-- WRITE b, bounded by WTO (R173, R174, R183). -/
def execWrite (b : Byte) (s : State) : Host.Outcome State Fault Refusal :=
  .next (acceptWaiting .write false b s.portCap s)

/-- WRITE.nb b, one attempt (R173, R174, R183). -/
def execWriteNb (b : Byte) (s : State) : Host.Outcome State Fault Refusal :=
  .next (acceptWaiting .write true b s.portCap s)

end Sys2Proof.Machine
end

