-- ==== Sys2Proof/Machine/Dispatch.lean ====
section
/-! DEFINITION. The meaning of an accepted command: `accept(decode(cmd_word))` at an IDLE step (spec/40_host_commands.md
R172, R174). -/

namespace Sys2Proof.Machine

/-- `accept(c)`, one direct call of each command's meaning (R174). -/
def exec (i : Instr) (s : State) : Host.Outcome State Fault Refusal :=
  match i with
  | .init => Sys2Proof.Machine.execInit s
  | .write b => Sys2Proof.Machine.execWrite b s
  | .writeNb b => Sys2Proof.Machine.execWriteNb b s
  | .avail => Sys2Proof.Machine.execAvail s
  | .read => Sys2Proof.Machine.execRead s
  | .readNb => Sys2Proof.Machine.execReadNb s
  | .readu term cap => Sys2Proof.Machine.execReadu term cap s
  | .readuNb term cap => Sys2Proof.Machine.execReaduNb term cap s
  | .illegalOp0 _ => Sys2Proof.Machine.execIllegalOp0 s
  | .illegalOp67 _ _ => Sys2Proof.Machine.execIllegalOp67 s
  | .illegalOp8F _ _ => Sys2Proof.Machine.execIllegalOp8F s
  | .illegalRsv _ _ _ _ _ => Sys2Proof.Machine.execIllegalRsv s

end Sys2Proof.Machine
end

