-- ==== Sys2Proof/WellFormed.lean ====
section
/-! DEFINITION. Which `Instr` terms some command word decodes to: the opcode and RSV limits of the illegal rows
(spec/30_encoding.md R139). -/

namespace Sys2Proof

/-- The terms that have an encoding. Every operand of the legal commands fills its field, so only the illegal rows
have a check. -/
def Instr.wf : Instr → Bool
  | .init => true
  | .write _ => true
  | .writeNb _ => true
  | .avail => true
  | .read => true
  | .readNb => true
  | .readu _ _ => true
  | .readuNb _ _ => true
  | .illegalOp0 _ => true
  | .illegalOp67 op _ => op == 6#4 || op == 7#4
  | .illegalOp8F op _ => 8 ≤ op.toNat
  | .illegalRsv op _ rsv _ _ => 1 ≤ op.toNat && op.toNat ≤ 5 && rsv != 0#3

end Sys2Proof
end

