-- ==== Sys2Proof/Decode.lean ====
section
/-! DEFINITION. The command word's fields, the decoder, and the encoder (spec/30_encoding.md R130 to R139). -/

namespace Sys2Proof

/-- OP, bits 31:28 (R130). -/
def fieldOp (w : Word) : BitVec 4 := w.extractLsb' 28 4

/-- NB, bit 27 (R130). -/
def fieldNb (w : Word) : Bool := w.getLsbD 27

/-- RSV, bits 26:24 (R130). -/
def fieldRsv (w : Word) : BitVec 3 := w.extractLsb' 24 3

/-- CAP, bits 23:8 (R130, R134). -/
def fieldCap (w : Word) : Half := w.extractLsb' 8 16

/-- B, bits 7:0 (R130, R134). -/
def fieldB (w : Word) : Byte := w.extractLsb' 0 8

/-- Bits 27:0, kept by the illegal-opcode rows. -/
def fieldRest (w : Word) : BitVec 28 := w.extractLsb' 0 28

/-- `decode` of R136, a total function of the word. An illegal opcode is reported before reserved bits. -/
def decode (w : Word) : Instr :=
  let op := fieldOp w
  if op = 0#4 then .illegalOp0 (fieldRest w)
  else if op = 6#4 ∨ op = 7#4 then .illegalOp67 op (fieldRest w)
  else if 8 ≤ op.toNat then .illegalOp8F op (fieldRest w)
  else if fieldRsv w ≠ 0#3 then .illegalRsv op (fieldNb w) (fieldRsv w) (fieldCap w) (fieldB w)
  else if op = 1#4 then .init
  else if op = 2#4 then (if fieldNb w then .writeNb (fieldB w) else .write (fieldB w))
  else if op = 3#4 then .avail
  else if op = 4#4 then (if fieldNb w then .readNb else .read)
  else (if fieldNb w then .readuNb (fieldB w) (fieldCap w) else .readu (fieldB w) (fieldCap w))

/-- R130's `word = (OP << 28) | (NB << 27) | (RSV << 24) | (CAP << 8) | B`. -/
def packWord (op : BitVec 4) (nb : Bool) (rsv : BitVec 3) (cap : Half) (b : Byte) : Word :=
  op ++ BitVec.ofBool nb ++ rsv ++ cap ++ b

/-- The word of a command: the opcode map of R132, RSV and every ignored field 0 (R146, R147). -/
def encode : Instr → Word
  | .init => packWord 1 false 0 0 0
  | .write b => packWord 2 false 0 0 b
  | .writeNb b => packWord 2 true 0 0 b
  | .avail => packWord 3 false 0 0 0
  | .read => packWord 4 false 0 0 0
  | .readNb => packWord 4 true 0 0 0
  | .readu term cap => packWord 5 false 0 cap term
  | .readuNb term cap => packWord 5 true 0 cap term
  | .illegalOp0 rest => 0#4 ++ rest
  | .illegalOp67 op rest => op ++ rest
  | .illegalOp8F op rest => op ++ rest
  | .illegalRsv op nb rsv cap b => packWord op nb rsv cap b

/-- The bits of the word that `decode` reads, given the command it decodes to; the others are ignored (R135). -/
def usedBits : Instr → Word
  | .init => 0xF7000000
  | .write _ => 0xFF0000FF
  | .writeNb _ => 0xFF0000FF
  | .avail => 0xF7000000
  | .read => 0xFF000000
  | .readNb => 0xFF000000
  | .readu _ _ => 0xFFFFFFFF
  | .readuNb _ _ => 0xFFFFFFFF
  | .illegalOp0 _ => 0xFFFFFFFF
  | .illegalOp67 _ _ => 0xFFFFFFFF
  | .illegalOp8F _ _ => 0xFFFFFFFF
  | .illegalRsv _ _ _ _ _ => 0xFFFFFFFF

/-- The command read from the number `w` of `nbits` bits. A command is one parallel 32-bit word (R131, R115), so bit i
of the number is bit i of `cmd_word`; a number of more than 32 bits is no command. -/
def decodeTableWord (nbits w : Nat) : Option Instr :=
  if nbits ≤ 32 then some (decode (BitVec.ofNat 32 (w % 2 ^ nbits))) else none

end Sys2Proof
end

