-- ==== Sys2Proof/Machine/HostEnv.lean ====
section
/-! DEFINITION. HostEnv: the list of commands it issues, the responses it samples, and the pseudo-instructions it runs
(spec/10_state.md R31, R46; spec/30_encoding.md R148 to R151; spec/70_reset_and_hazards.md R308, R309, R312). -/

namespace Sys2Proof.Machine

/-- WRITEN[.nb] b0, …, b(n−1) (R148). -/
def pseudoWriten (nb : Bool) (bytes : List Byte) : List HostTask := [.writen nb bytes 0]

/-- DRAIN (R149). -/
def pseudoDrain : List HostTask := [.drain]

/-- SENDLINE[.nb] b0, …, b(n−1): WRITEN of the bytes and TERM (R150). -/
def pseudoSendline (c : Config) (nb : Bool) (bytes : List Byte) : List HostTask :=
  pseudoWriten nb (bytes ++ [c.term])

/-- QUERY cap, b0, …, b(n−1): DRAIN, SENDLINE, READU TERM, cap (R151). SENDLINE's count is not checked. -/
def pseudoQuery (c : Config) (cap : Half) (bytes : List Byte) : List HostTask :=
  pseudoDrain ++ pseudoSendline c false bytes ++ [.readu cap]

/-- The command word a task issues next; a WRITEN with no byte left issues none (R148). -/
def taskWord (c : Config) : HostTask → Option Word
  | .word w => some w
  | .writen _ [] _ => none
  | .writen nb (b :: _) _ => some (encode (if nb then .writeNb b else .write b))
  | .drain => some (encode .avail)
  | .drainRead => some (encode .readNb)
  | .readu cap => some (encode (.readu c.term cap))

/-- What HostEnv does at the FINAL beat `rsp` of the command at the head of its list (R148 to R151): the tasks left, and
the results of those that ended. -/
def afterFinal (rsp : Word) : List HostTask → List HostTask × List HostResult
  | [] => ([], [])
  | .word _ :: ts => (ts, [])
  | .writen _ [] n :: ts => (ts, [.wrote n])
  | .writen nb (_ :: bs) n :: ts =>
    if rspSt rsp = stCode .ok then (.writen nb bs (n + 1) :: ts, []) else (ts, [.wrote n])
  | .drain :: ts => if rspSt rsp = stCode .ok then (.drainRead :: ts, []) else (ts, [.drained])
  | .drainRead :: ts => (.drain :: ts, [])
  | .readu _ :: ts => (ts, [.queried (rspCount rsp != 0)])

/-- WRITENs with no byte left return their count without issuing anything (R148). -/
def retire : List HostTask → List HostTask × List HostResult
  | .writen _ [] n :: ts => ((retire ts).1, .wrote n :: (retire ts).2)
  | ts => (ts, [])

/-- A FINAL beat answers one command (R142, R313); a pseudo-instruction that awaits it moves on. -/
def HostEnv.finalBeat (rsp : Word) (e : HostEnv) : HostEnv :=
  let e' := { e with unanswered := e.unanswered - 1 }
  if e.awaiting then
    { e' with
      todo := (afterFinal rsp e.todo).1
      results := e.results ++ (afterFinal rsp e.todo).2
      awaiting := false }
  else e'

/-- HostEnv samples `rsp_word` while `rsp_valid` = 1 (R308). -/
def HostEnv.sampleRsp (valid : Bool) (rsp : Word) (e : HostEnv) : HostEnv :=
  if !valid then e
  else
    let e' := { e with log := e.log ++ [rsp] }
    if rspKind rsp = kindCode .final then e'.finalBeat rsp else e'

/-- Finished WRITENs at the head of the list leave it. -/
def HostEnv.retireDone (e : HostEnv) : HostEnv :=
  if e.awaiting then e
  else { e with todo := (retire e.todo).1, results := e.results ++ (retire e.todo).2 }

/-- The word HostEnv has to offer, if it has a command and awaits no FINAL beat. -/
def HostEnv.nextWord (c : Config) (e : HostEnv) : Option Word :=
  if e.awaiting then none else e.todo.head?.bind (taskWord c)

/-- HostEnv drives `cmd_valid` and `cmd_word` (R32); it may hold a command back, and the word offered at the next edge may
be another (R312; `HostEnv.replan`). `cmd_word` keeps its value while
`cmd_valid` is 0. -/
def HostEnv.drive (c : Config) (offer : Bool) (e : HostEnv) : HostEnv :=
  match (if offer then e.nextWord c else none) with
  | some w => { e with cmdValid := true, cmdWord := w }
  | none => { e with cmdValid := false }

/-- HostEnv's part of an H edge before the block's: sample the response, then drive the port (R32, R308, R309). -/
def State.hostTurn (offer : Bool) (s : State) : State :=
  { s with host := ((s.host.sampleRsp s.h.rspValid s.h.rspWord).retireDone).drive s.cfg offer }

/-- HostEnv changes its mind (R312): the tasks it has not started to await give way to `tasks`. A command that was
accepted stays. DESIGN CHOICE (log 18): a pseudo-instruction between two of its commands is given up, without a result. -/
def HostEnv.replan (tasks : List HostTask) (e : HostEnv) : HostEnv :=
  { e with todo := (if e.awaiting then e.todo.take 1 else []) ++ tasks }

/-- `HostEnv.replan` on the whole state. -/
def State.replan (tasks : List HostTask) (s : State) : State := { s with host := s.host.replan tasks }

/-- At an acceptance the index advances by one (R31, R171) and one more command is without its FINAL beat; a command
word leaves the list, a pseudo-instruction awaits the beat. -/
def HostEnv.accepted (e : HostEnv) : HostEnv :=
  let e' := { e with issued := e.issued + 1, unanswered := e.unanswered + 1 }
  match e.todo with
  | .word _ :: ts => { e' with todo := ts }
  | _ => { e' with awaiting := true }

/-- `HostEnv.accepted` on the whole state. -/
def State.hostAccepted (s : State) : State := { s with host := s.host.accepted }

end Sys2Proof.Machine
end

