-- ==== Sys2Proof/Machine/Line.lean ====
section
/-! DEFINITION. The L step: the transmit engine, the framing buffer with its publish, and the synchroniser shifts
(spec/41_line_engines.md R220 to R242). The parts write disjoint registers and read none another part writes, so doing
them one after another is doing them all from pre-step values (R225, log 20). -/

namespace Sys2Proof.Machine

/-- The transmit step (R240): on a transfer the TX head goes to `line_out` and is popped (R222). -/
def State.transmit (txReady : Bool) (s : State) : State :=
  if s.uartTxValid && txReady then
    { s.popTx with line := { s.line with out := s.line.out ++ [s.uartTxData] } }
  else s

/-- The accumulate step for the byte `b` taken from the UART, `rest` being what stays in `line_in` (R221, R227): TERM is
tested before capacity (R229). -/
def State.accumulate (b : Byte) (rest : List Byte) (s : State) : Host.Outcome State Fault Refusal :=
  if s.cfg.asmCap ≤ s.l.fCursor then .fault .outsideAsmBuf
  else
    let t : State :=
      { s with
        mem := { s.mem with asm := s.mem.asm.write s.l.fCursor b }
        line := { s.line with inp := rest } }
    let next := (s.l.fCursor + 1) % 2 ^ s.cfg.cw
    if b = s.cfg.term then
      .next { t with l := { t.l with fLen := s.l.fCursor, fCursor := next, fState := .termd } }
    else if s.l.fCursor + 1 = s.cfg.asmCap then
      .next { t with l := { t.l with fLen := s.cfg.asmCap, fCursor := s.cfg.asmCap, fState := .ovf } }
    else .next { t with l := { t.l with fCursor := next, fState := .accum } }

/-- The reserve phase of a publish (R236). -/
def State.reserve (s : State) : State :=
  if s.l.fLen + 1 ≤ s.rxFreeL then { s with l := { s.l with fPub := true, fPidx := 0 } }
  else match s.cfg.policy with
    | .drop => { s with l := { s.l with fCursor := 0, fState := .empty } }
    | .wait => s

/-- The stream phase of a publish (R237): one data entry, or the END marker that returns the buffer to EMPTY. -/
def State.stream (s : State) : Host.Outcome State Fault Refusal :=
  if s.l.fPidx < s.l.fLen then
    if s.cfg.asmCap ≤ s.l.fPidx then .fault .outsideAsmBuf
    else
      let t := s.pushRx (dataEntry (s.mem.asmAt s.l.fPidx))
      .next { t with l := { t.l with fPidx := (s.l.fPidx + 1) % 2 ^ s.cfg.cw } }
  else
    let t := s.pushRx endMarker
    .next { t with l := { t.l with fPub := false, fPidx := 0, fCursor := 0, fState := .empty } }

/-- The framing step by `f_state` (R224, R227, R236, R237). -/
def State.framing (s : State) : Host.Outcome State Fault Refusal :=
  if s.uartRxReady then
    match s.line.inp with
    | [] => .next s
    | b :: rest => s.accumulate b rest
  else if s.lInit then
    if s.l.fPub then s.stream else .next s.reserve
  else .next s

/-- One L step (R225). -/
def lStep (txReady newTx newRx newInit : Bool) (s : State) : Host.Outcome State Fault Refusal :=
  mapNext (State.syncL newTx newRx newInit) (s.transmit txReady).framing

end Sys2Proof.Machine
end

