-- ==== Sys2Proof/Machine/Cycle.lean ====
section
/-! DEFINITION. The H step and the events of a run (spec/40_host_commands.md R170 to R172; spec/00_scope.md R13, R14;
spec/70_reset_and_hazards.md R290, R291). -/

namespace Sys2Proof.Machine

/-- The sequencer action of R172, after `rsp_valid <- 0`: accept a command in IDLE, or go on with the pending one. -/
def sequencer (s : State) : Host.Outcome State Fault Refusal :=
  match s.h.seq with
  | .idle => if s.host.cmdValid then exec (decode s.host.cmdWord) s.hostAccepted else .next s
  | .wait => waitStep s
  | .untilEnd => .next (untilStep s)

/-- The rest of an H step (R170): the synchroniser shifts and the tick prescaler. They write registers the sequencer
neither reads nor writes, but `tick_cnt`, which the sequencer reads before them (R15, log 20). -/
def State.finishH (newTx newRx : Bool) (s : State) : State := (s.syncH newTx newRx).prescale

/-- One H step: HostEnv's turn at the port, then R170. -/
def hStep (offer newTx newRx : Bool) (s : State) : Host.Outcome State Fault Refusal :=
  mapNext (State.finishH newTx newRx) (sequencer (s.hostTurn offer).clearRsp)

/-- One event of a run (R13, R14, R290, R291, R312). -/
def runEvent (e : Event) (s : State) : Host.Outcome State Fault Refusal :=
  match e with
  | .h offer newTx newRx => hStep offer newTx newRx s
  | .l txReady newTx newRx newInit => lStep txReady newTx newRx newInit s
  | .plan tasks => .next (s.replan tasks)
  | .rx bytes => .next (s.receive bytes)
  | .reset => .next s.applyReset
  | .resetHOnly => .refused .singleDomainReset
  | .resetLOnly => .refused .singleDomainReset

/-- The next event: the first of those lined up, else a free one (R14, log 3). -/
def State.nextEvent (s : State) : Event :=
  match s.sched.events with
  | e :: _ => e
  | [] => Config.freeEvent s.sched.drawn

/-- The state with its next event taken. -/
def State.takeEvent (s : State) : State :=
  match s.sched.events with
  | _ :: es => { s with sched := { s.sched with events := es } }
  | [] => { s with sched := { s.sched with drawn := s.sched.drawn + 1 } }

/-- One step of a run: a configuration outside R10 is refused (R11); else the next event happens. -/
def stepRun (s : State) : Host.Outcome State Fault Refusal :=
  if s.cfg.legal then runEvent s.nextEvent s.takeEvent else .refused .illegalConfiguration

/-- Load the one command `w` as HostEnv's list and make the next event an H edge that offers it, the sequencer being
IDLE. DESIGN CHOICE (log 16): that H edge takes the new value at both synchroniser draws (R20 leaves them free). -/
def State.loadWord (w : Word) (s : State) : State :=
  { s with
    h := { s.h with seq := .idle }
    host := { s.host with todo := [.word w], awaiting := false }
    sched := { s.sched with events := [.h true true true] } }

end Sys2Proof.Machine
end

