-- ==== Sys2Proof/Machine/Step.lean ====
section
/-! DEFINITION. One step of the machine, and a state in which the next step runs a given command. -/

namespace Sys2Proof.Machine

/-- One step: one event of a run (spec/00_scope.md R13, R14). -/
def step (s : State) : Host.Outcome State Fault Refusal := stepRun s

/-- `s` with the command whose bits are `w` loaded, so that the next step accepts it; DESIGN CHOICE (log 16): with both
synchroniser draws of that step taking the new value. -/
def State.withFetchWord (s : State) (nbits w : Nat) : State := s.loadWord (BitVec.ofNat 32 (w % 2 ^ nbits))

end Sys2Proof.Machine
end

