-- ==== Sys2Proof/Safety.lean ====
section
/-! DEFINITION. The terms claims are stated in: which states a run reaches, the invariants of the block, the contents of
the two queues, the end of a run, and fairness (spec/10_state.md R42; spec/20_memory.md R83, R86, R94, R110, R111;
spec/70_reset_and_hazards.md R311, R313). -/

namespace Sys2Proof

open Sys2Proof.Machine

/-- The first launch state of R311 (a): right after reset under a legal configuration, whatever its environment holds,
and after however many earlier resets (log 6). -/
def AfterReset (s : State) : Prop :=
  s.cfg.legal = true ∧
    s = { State.resetWith s.cfg with
      mem := ⟨[], [], [], s.mem.epoch⟩, line := s.line, host := s.host, sched := s.sched }

/-- The second launch state of R311 (a): the reset state followed by the H step that accepts INIT, whatever its
environment holds. -/
def AfterInit (s : State) : Prop :=
  ∃ (r t : State) (newTx newRx : Bool), AfterReset r ∧ exec .init r = .next t ∧
    s = { t.finishH newTx newRx with line := s.line, host := s.host, sched := s.sched }

/-- A launch state (R311). -/
def Launch (s : State) : Prop := AfterReset s ∨ AfterInit s

/-- The states some run reaches: any configuration, any host, any line, any interleaving (R14, R311). -/
inductive Reachable : State → Prop where
  | launch {s : State} : Launch s → Reachable s
  | step {s t : State} : Reachable s → step s = .next t → Reachable t

/-! ### The queues -/

/-- The entries of TX, oldest first (R110, R112). -/
def txQueue (s : State) : List Byte :=
  (List.range s.occTx).map fun k => s.mem.txAt ((s.l.txR.bin + k) % s.cfg.txDepth)

/-- The entries of RX, oldest first (R110, R112). -/
def rxQueue (s : State) : List Entry :=
  (List.range s.occRx).map fun k => s.mem.rxAt ((s.h.rxR.bin + k) % s.cfg.rxDepth)

/-! ### The invariants -/

/-- R42, with the publish index at 0 while no publish runs. -/
abbrev FrameInv (s : State) : Prop :=
  (s.l.fPub = false → s.l.fPidx = 0) ∧
    (s.l.fState = .empty → s.l.fCursor = 0 ∧ s.l.fPub = false ∧ s.l.fPidx = 0) ∧
    (s.l.fState = .accum → 1 ≤ s.l.fCursor ∧ s.l.fCursor ≤ s.cfg.asmCap - 1 ∧ s.l.fPub = false) ∧
    (s.l.fState = .termd → s.l.fLen ≤ s.cfg.asmCap - 1 ∧ s.l.fCursor = s.l.fLen + 1) ∧
    (s.l.fState = .ovf → s.l.fLen = s.cfg.asmCap ∧ s.l.fCursor = s.cfg.asmCap) ∧
    (s.l.fState = .termd ∨ s.l.fState = .ovf → s.l.fPidx ≤ s.l.fLen)

/-- The sequencer: ranges of the counters, what is latched while a command is pending, chain lengths
(R34 to R40, R211, R275). -/
abbrev CtlInv (s : State) : Prop :=
  s.cfg.legal = true ∧ s.h.tickCnt < s.cfg.tickDiv ∧ s.h.timeLeft ≤ s.cfg.inf ∧
    (s.h.seq ≠ .idle → s.h.init = true) ∧
    (s.h.seq = .wait → (waitOpOf s.h.op).isSome = true ∧ s.h.copied = 0 ∧ s.h.stop = false) ∧
    (s.h.seq = .untilEnd → s.h.op = waitOpCode .readu ∧ s.h.copied.toNat ≤ copyLimit s.cfg s.h.cap) ∧
    s.h.txRsync.length = s.cfg.syncStages ∧ s.h.rxWsync.length = s.cfg.syncStages ∧
    s.l.txWsync.length = s.cfg.syncStages ∧ s.l.rxRsync.length = s.cfg.syncStages ∧
    s.l.initSync.length = s.cfg.syncStages

/-- Initialisation: no stage of `l_init_sync` is ahead of `h_init`, and TX is empty before INIT (R94, R224). -/
abbrev InitInv (s : State) : Prop :=
  s.chg.init.prev = false ∧ (s.chg.init.fresh = true → s.h.init = true) ∧
    (∀ b ∈ s.l.initSync, b = true → s.h.init = true) ∧ (s.h.init = false → s.h.txW = s.l.txR)

/-- How far the write pointer `w` is past the pointer whose Gray value is `g`. -/
def behind (pw w g : Nat) : Nat := subMod pw w (g2b pw g)

/-- How far the pointer whose Gray value is `g` is past the read pointer `r`. -/
def ahead (pw r g : Nat) : Nat := subMod pw (g2b pw g) r

/-- The values a chain may still take from its source besides the current one (R92). -/
def stale (c : Change Nat) : List Nat := if c.fresh then [c.prev] else []

/-- One FIFO's pointers and chains: every Gray copy is that of its count; the writer's stages of the read pointer lie
between it and DEPTH entries back, older ones further back; the reader's stages of the write pointer lie between the
read pointer and it, older ones nearer the read pointer (R86, R94, R110, R111). -/
abbrev FifoInv (pw depth : Nat) (w r : GrayCounter) (wChg rChg : Change Nat) (rsync wsync : List Nat) : Prop :=
  w.bin < 2 ^ pw ∧ r.bin < 2 ^ pw ∧ w.gray = b2g w.bin ∧ r.gray = b2g r.bin ∧
    (∀ g ∈ wChg.prev :: rChg.prev :: (rsync ++ wsync), g < 2 ^ pw) ∧
    subMod pw w.bin r.bin ≤ depth ∧
    ((stale rChg ++ rsync).map (behind pw w.bin)).Pairwise (· ≤ ·) ∧
    (∀ g ∈ stale rChg ++ rsync, subMod pw w.bin r.bin ≤ behind pw w.bin g ∧ behind pw w.bin g ≤ depth) ∧
    ((stale wChg ++ wsync).map (ahead pw r.bin)).Pairwise (· ≥ ·) ∧
    (∀ g ∈ stale wChg ++ wsync, ahead pw r.bin g ≤ subMod pw w.bin r.bin)

/-- `FifoInv` of TX. -/
abbrev TxInv (s : State) : Prop :=
  FifoInv s.cfg.txPw s.cfg.txDepth s.h.txW s.l.txR s.chg.txW s.chg.txR s.h.txRsync s.l.txWsync

/-- `FifoInv` of RX, and the room a running publish has reserved (R238). -/
abbrev RxInv (s : State) : Prop :=
  FifoInv s.cfg.rxPw s.cfg.rxDepth s.l.rxW s.h.rxR s.chg.rxW s.chg.rxR s.l.rxRsync s.h.rxWsync ∧
    (s.l.fPub = true → s.l.fLen + 1 ≤ s.rxFreeL + s.l.fPidx)

/-- The arrays: canonical, within their sizes (R43, R80). -/
abbrev MemInv (s : State) : Prop :=
  s.mem.tx.wf ∧ s.mem.rx.wf ∧ s.mem.asm.wf ∧ (∀ p ∈ s.mem.tx, p.1 < s.cfg.txDepth) ∧
    (∀ p ∈ s.mem.rx, p.1 < s.cfg.rxDepth) ∧ (∀ p ∈ s.mem.asm, p.1 < s.cfg.asmCap)

/-- Every entry a rule may read has been written since reset (R83). -/
abbrev WrittenInv (s : State) : Prop :=
  (∀ k, k < s.occTx → (s.mem.tx.read ((s.l.txR.bin + k) % s.cfg.txDepth)).isSome = true) ∧
    (∀ k, k < s.occRx → (s.mem.rx.read ((s.h.rxR.bin + k) % s.cfg.rxDepth)).isSome = true) ∧
    (∀ k, k < s.l.fCursor → (s.mem.asm.read k).isSome = true)

/-- Frames in RX and in the assembly buffer: no data byte is TERM, every frame but a publish in progress ends in its
END marker, and the marker a READU in UNTIL waits for is there or still to be published (R84, R200, R232). -/
abbrev StreamInv (s : State) : Prop :=
  (∀ e ∈ rxQueue s, Entry.mark e = false → Entry.data e ≠ s.cfg.term) ∧
    (s.l.fPub = false → ∀ e ∈ (rxQueue s).getLast?, Entry.mark e = true) ∧
    (s.l.fState = .accum → ∀ k, k < s.l.fCursor → s.mem.asmAt k ≠ s.cfg.term) ∧
    (s.l.fState = .termd ∨ s.l.fState = .ovf → ∀ k, k < s.l.fLen → s.mem.asmAt k ≠ s.cfg.term) ∧
    (s.l.fPub = true → s.l.fState = .termd ∨ s.l.fState = .ovf) ∧
    (s.h.seq = .untilEnd → s.l.fPub = true ∨ ∃ e ∈ rxQueue s, Entry.mark e = true)

/-- The response word: no reserved ST, KIND or CAUSE (spec/30_encoding.md R141 to R143). -/
abbrev RspInv (s : State) : Prop :=
  rspSt s.h.rspWord ≠ 3#2 ∧ (rspKind s.h.rspWord).toNat ≤ 1 ∧ (rspCause s.h.rspWord).toNat ≤ 4

/-- All of them. -/
def Inv (s : State) : Prop :=
  CtlInv s ∧ InitInv s ∧ FrameInv s ∧ TxInv s ∧ RxInv s ∧ MemInv s ∧ WrittenInv s ∧ StreamInv s ∧ RspInv s

/-! ### Runs -/

/-- The end of a run (R313): HostEnv has no command left and every command it issued has its FINAL beat, so a command
lost to a reset keeps the run from ending (log 29). It says nothing of TX, RX or the line. -/
abbrev RunEnded (s : State) : Prop :=
  s.host.todo = [] ∧ s.host.awaiting = false ∧ s.host.unanswered = 0 ∧ s.h.seq = .idle ∧ s.h.rspValid = false

/-- A list of events, one after another, stopping at the first fault or refusal. -/
def runEvents : List Event → State → Host.Outcome State Fault Refusal
  | [], s => .next s
  | e :: es, s =>
    match runEvent e s with
    | .next t => runEvents es t
    | .fault r => .fault r
    | .refused r => .refused r

/-- An edge of either domain with no command offered and `uart_tx_ready` at a given level, the only events of `@settle`
(spec/30_encoding.md R152). -/
def QuietEdge (txReady : Bool) (e : Event) : Prop :=
  (∃ newTx newRx, e = .h false newTx newRx) ∨ ∃ newTx newRx newInit, e = .l txReady newTx newRx newInit

/-- `@settle` has come to rest (R152): no edge from here on changes a register other than `tick_cnt` and the
bookkeeping, or the line. DEDUCED (log 28): rest is judged by every later edge, not by the next one, so a command whose
timeout still runs is not at rest between two ticks. -/
def Settled (txReady : Bool) (s : State) : Prop :=
  ∀ es : List Event, (∀ e ∈ es, QuietEdge txReady e) →
    ∃ t, runEvents es s = .next t ∧ t.h = { s.h with tickCnt := t.h.tickCnt } ∧ t.l = s.l ∧ t.mem = s.mem ∧
      t.line = s.line

/-- `n` steps, stopping at the first fault or refusal. -/
def runSteps : Nat → State → Host.Outcome State Fault Refusal
  | 0, s => .next s
  | n + 1, s =>
    match step s with
    | .next t => runSteps n t
    | .fault r => .fault r
    | .refused r => .refused r

/-- `n` events of an endless schedule, one after another. -/
def runOn (e : Nat → Event) : Nat → State → Host.Outcome State Fault Refusal
  | 0, s => .next s
  | n + 1, s =>
    match runOn e n s with
    | .next t => runEvent (e n) t
    | .fault r => .fault r
    | .refused r => .refused r

/-- Weak fairness (R14, R311): H steps, L steps and L steps with `uart_tx_ready` = 1 without end, and no reset. -/
def Fair (e : Nat → Event) : Prop :=
  (∀ n, ∃ m, n ≤ m ∧ ∃ o a b, e m = .h o a b) ∧ (∀ n, ∃ m, n ≤ m ∧ ∃ a b c, e m = .l true a b c) ∧
    ∀ n, e n ≠ .reset ∧ e n ≠ .resetHOnly ∧ e n ≠ .resetLOnly

/-- An H edge. -/
def IsHEdge (e : Event) : Prop := ∃ o a b, e = .h o a b

/-- An L edge. -/
def IsLEdge (e : Event) : Prop := ∃ r a b c, e = .l r a b c

/-! ### Commands -/

/-- The form of a waiting command with the given NB; the operands it does not use are dropped (R132). -/
def waitInstr (op : WaitOp) (nb : Bool) (b : Byte) (cap : Half) : Instr :=
  match op, nb with
  | .write, false => .write b
  | .write, true => .writeNb b
  | .read, false => .read
  | .read, true => .readNb
  | .readu, false => .readu b cap
  | .readu, true => .readuNb b cap

/-- The condition of `op` fails now and no value on its way through H's chain can make it hold (R174, R177): TX stays
full to H, or RX stays empty to H, as long as L takes no step. -/
def Stuck (op : WaitOp) (s : State) : Prop :=
  condition op s = false ∧
    match op with
    | .write => s.chg.txR.fresh = false ∧ ∀ g ∈ s.h.txRsync, g = s.l.txR.gray
    | .read | .readu => s.chg.rxW.fresh = false ∧ ∀ g ∈ s.h.rxWsync, g = s.l.rxW.gray

/-- The bytes a READU copies of a frame: of its first `min(CAP, ASM_CAP)` bytes, those before the first terminator
(R195, R198). -/
def copiedBytes (c : Config) (term : Byte) (cap : Half) (frame : List Byte) : List Byte :=
  (frame.take (copyLimit c cap)).takeWhile fun d => d != term

end Sys2Proof
end

