-- ==== Sys2Proof/Certificates/Slice0/Obligations.lean ====
section
/-! DEFINITION. The statements for the provers. `mem.<array>.read i` is the model's read of one entry. -/

open Sys2Proof Sys2Proof.Machine

/-! ### Encoding -/

/-- R130, R132, R136: no operand bit is lost between the encoder and the decoder. -/
def Obligations.DecodeEncodeRoundTrip : Prop :=
  ∀ i : Instr, i.wf = true → decode (encode i) = i

/-- R135, R136: every word decodes to a command with an encoding, and encoding it gives the word back with its ignored
fields 0. -/
def Obligations.EveryWordDecodesToItsUsedBits : Prop :=
  ∀ w : Word, (decode w).wf = true ∧ encode (decode w) = w &&& usedBits (decode w)

/-- R136 case by case: BADOP, then RSVBITS, then the five opcodes. -/
def Obligations.DecodeFollowsTheOpcodeMap : Prop :=
  ∀ w : Word,
    (¬(1 ≤ (fieldOp w).toNat ∧ (fieldOp w).toNat ≤ 5) → illegalCause (decode w) = some .badop) ∧
    (1 ≤ (fieldOp w).toNat ∧ (fieldOp w).toNat ≤ 5 ∧ fieldRsv w ≠ 0#3 → illegalCause (decode w) = some .rsvbits) ∧
    (fieldRsv w = 0#3 →
      (fieldOp w = 1#4 → decode w = .init) ∧
      (fieldOp w = 2#4 → decode w = waitInstr .write (fieldNb w) (fieldB w) (fieldCap w)) ∧
      (fieldOp w = 3#4 → decode w = .avail) ∧
      (fieldOp w = 4#4 → decode w = waitInstr .read (fieldNb w) (fieldB w) (fieldCap w)) ∧
      (fieldOp w = 5#4 → decode w = waitInstr .readu (fieldNb w) (fieldB w) (fieldCap w)))

/-- R135: a word that differs only in fields the command ignores decodes to the same command, and whatever word stands
on the port the command does the same, but for the latches `h_byte` and `h_cap`, which READ and (for `h_cap`) WRITE
never read (log 7, DEDUCED). -/
def Obligations.IgnoredFieldsHaveNoEffect : Prop :=
  (∀ w v : Word, w &&& usedBits (decode w) = v &&& usedBits (decode w) → decode v = decode w) ∧
  ∀ (i : Instr) (s : State) (w : Word), ∃ t u : State,
    exec i s = .next t ∧ exec i { s with host := { s.host with cmdWord := w } } = .next u ∧
    u = { t with h := { t.h with byte := u.h.byte, cap := u.h.cap }, host := { t.host with cmdWord := w } } ∧
    (i ≠ .read → i ≠ .readNb → u.h.byte = t.h.byte ∧
      ((∀ b, i ≠ .write b ∧ i ≠ .writeNb b) → u.h.cap = t.h.cap))

/-- R147 and the decode vectors of 95_test_vectors.md 2.4, each word written out bit by bit from R130. -/
def Obligations.SpecWordsDecodeAsWritten : Prop :=
  decode 0b0001_0_000_0000000000000000_00000000#32 = .init ∧
  decode 0b0010_0_000_0000000000000000_00100011#32 = .write 0x23 ∧
  decode 0b0010_1_000_0000000011111111_01000001#32 = .writeNb 0x41 ∧
  decode 0b0011_1_000_0000000010101011_11001101#32 = .avail ∧
  decode 0b0100_0_000_0000000011111111_00000000#32 = .read ∧
  decode 0b0100_1_000_0000000000000000_00000000#32 = .readNb ∧
  decode 0b0101_0_000_0000000000100000_00001101#32 = .readu 0x0D 32 ∧
  decode 0b0101_1_000_0000000000100000_00001101#32 = .readuNb 0x0D 32 ∧
  illegalCause (decode 0b0000_1_111_0000000000000000_00000000#32) = some .badop ∧
  illegalCause (decode 0b0001_0_111_0000000000000000_00000000#32) = some .rsvbits

/-- R140: each field of a response is read back from its place in the word, and the fields fill the word. -/
def Obligations.ResponseFieldsReadBack : Prop :=
  ∀ (st : St) (k : Kind) (c : Cause) (d : Byte) (n : Half),
    rspSt (rspPack st k c d n) = stCode st ∧ rspKind (rspPack st k c d n) = kindCode k ∧
    rspCause (rspPack st k c d n) = causeCode c ∧ rspData (rspPack st k c d n) = d ∧
    rspCount (rspPack st k c d n) = n

/-! ### What each command does at its acceptance -/

/-- R180: INIT sets `h_init`, with its bookkeeping when it was 0, answers OK, and changes nothing else; its word is
0x1000_0000, and NB, CAP and B are ignored. -/
def Obligations.InitSetsHInitAndAnswersOk : Prop :=
  (∀ s : State, exec .init s = .next
    { s with
      h := { s.h with init := true, rspValid := true, rspWord := 0x0000_0001#32 }
      chg := { s.chg with init := if s.h.init then s.chg.init else ⟨false, true⟩ } }) ∧
  encode .init = 0x1000_0000#32 ∧ ∀ w : Word, fieldOp w = 1#4 → fieldRsv w = 0#3 → decode w = .init

/-- R183, R106: with room in TX as H sees it, WRITE and WRITE.nb push their byte and answer OK with COUNT 1. -/
def Obligations.WriteWithRoomPushesItsByte : Prop :=
  ∀ (s : State) (nb : Bool) (b : Byte) (cap : Half), s.h.init = true → s.txFullH = false →
    ∃ t : State, exec (waitInstr .write nb b cap) s = .next t ∧
      t.mem.tx.read (s.h.txW.bin % 2 ^ s.cfg.txAw) = some b ∧
      t.h.txW = ⟨(s.h.txW.bin + 1) % 2 ^ (s.cfg.txAw + 1), b2g ((s.h.txW.bin + 1) % 2 ^ (s.cfg.txAw + 1))⟩ ∧
      t.chg = { s.chg with txW := ⟨s.h.txW.gray, true⟩ } ∧
      t.h.rspValid = true ∧ t.h.rspWord = 0x0001_0001#32 ∧ t.h.seq = .idle

/-- R186: AVAIL tells whether H sees an entry in RX, or UNINIT, and changes only the response; its word is 0x3000_0000,
and NB, CAP and B are ignored. -/
def Obligations.AvailAnswersWhetherRxHoldsAnEntry : Prop :=
  (∀ s : State,
    (s.h.init = false → exec .avail s = .next { s with h := { s.h with rspValid := true, rspWord := 0x0000_0020#32 } }) ∧
    (s.h.init = true → s.h.rxR.gray ≠ synced s.h.rxWsync →
      exec .avail s = .next { s with h := { s.h with rspValid := true, rspWord := 0x0000_0001#32 } }) ∧
    (s.h.init = true → s.h.rxR.gray = synced s.h.rxWsync →
      exec .avail s = .next { s with h := { s.h with rspValid := true, rspWord := 0x0000_0000#32 } })) ∧
  encode .avail = 0x3000_0000#32 ∧ ∀ w : Word, fieldOp w = 3#4 → fieldRsv w = 0#3 → decode w = .avail

/-- R189, R190: READ and READ.nb with a data entry at the head of RX pop it and answer with its byte. -/
def Obligations.ReadReturnsTheHeadByte : Prop :=
  ∀ (s : State) (nb : Bool) (b d : Byte) (cap : Half), s.h.init = true → s.rxEmptyH = false →
    s.rxHeadH = 0#1 ++ d →
    ∃ t : State, exec (waitInstr .read nb b cap) s = .next t ∧
      t.h.rxR = ⟨(s.h.rxR.bin + 1) % 2 ^ (s.cfg.rxAw + 1), b2g ((s.h.rxR.bin + 1) % 2 ^ (s.cfg.rxAw + 1))⟩ ∧
      t.chg = { s.chg with rxR := ⟨s.h.rxR.gray, true⟩ } ∧ t.mem = s.mem ∧
      t.h.rspValid = true ∧ t.h.rspWord = 0#16 ++ d ++ 0x01#8 ∧ t.h.seq = .idle

/-- R190: READ and READ.nb with an END marker at the head of RX pop it, answer nothing, and wait under T. -/
def Obligations.ReadDiscardsAnEndMarker : Prop :=
  ∀ (s : State) (nb : Bool) (b : Byte) (cap : Half), s.h.init = true → s.rxEmptyH = false →
    Entry.mark s.rxHeadH = true →
    ∃ t : State, exec (waitInstr .read nb b cap) s = .next t ∧
      t.h.rxR = ⟨(s.h.rxR.bin + 1) % 2 ^ (s.cfg.rxAw + 1), b2g ((s.h.rxR.bin + 1) % 2 ^ (s.cfg.rxAw + 1))⟩ ∧
      t.chg = { s.chg with rxR := ⟨s.h.rxR.gray, true⟩ } ∧ t.mem = s.mem ∧
      t.h.op = 0x4#4 ∧ t.h.copied = 0#16 ∧ t.h.stop = false ∧
      t.h.rspValid = s.h.rspValid ∧ t.h.rspWord = s.h.rspWord ∧ t.h.seq = .wait ∧
      t.h.timeLeft = if nb then 0 else s.cfg.rto

/-- R195, R197, R198: what READU and READU.nb do with the entry at the head of RX. -/
def Obligations.ReaduTakesTheFirstEntry : Prop :=
  ∀ (s : State) (nb : Bool) (term : Byte) (cap : Half), s.h.init = true → s.rxEmptyH = false →
    ∃ t : State, exec (waitInstr .readu nb term cap) s = .next t ∧
      t.h.rxR = ⟨(s.h.rxR.bin + 1) % 2 ^ (s.cfg.rxAw + 1), b2g ((s.h.rxR.bin + 1) % 2 ^ (s.cfg.rxAw + 1))⟩ ∧
      t.chg = { s.chg with rxR := ⟨s.h.rxR.gray, true⟩ } ∧ t.mem = s.mem ∧
      t.h.op = 0x5#4 ∧ t.h.byte = term ∧ t.h.cap = cap ∧
      (Entry.mark s.rxHeadH = true →
        t.h.seq = .idle ∧ t.h.rspValid = true ∧ t.h.rspWord = 0x0000_0001#32 ∧ t.h.copied = 0#16 ∧ t.h.stop = false) ∧
      (Entry.mark s.rxHeadH = false → min cap.toNat s.cfg.asmCap = 0 →
        t.h.seq = .untilEnd ∧ t.h.rspValid = s.h.rspValid ∧ t.h.copied = 0#16 ∧ t.h.stop = false) ∧
      (Entry.mark s.rxHeadH = false → 0 < min cap.toNat s.cfg.asmCap → Entry.data s.rxHeadH = term →
        t.h.seq = .untilEnd ∧ t.h.rspValid = s.h.rspValid ∧ t.h.copied = 0#16 ∧ t.h.stop = true) ∧
      (Entry.mark s.rxHeadH = false → 0 < min cap.toNat s.cfg.asmCap → Entry.data s.rxHeadH ≠ term →
        t.h.seq = .untilEnd ∧ t.h.rspValid = true ∧
        t.h.rspWord = 0#16 ++ Entry.data s.rxHeadH ++ 0x05#8 ∧ t.h.copied = 1#16 ∧ t.h.stop = false)

/-- R207: every word that R139 calls illegal is answered ILLEGAL with its cause, before INIT too, and nothing else
changes; the same by command. -/
def Obligations.IllegalWordsAreAnsweredAtOnce : Prop :=
  ∀ s : State,
    (∀ w : Word,
      (¬(1 ≤ (fieldOp w).toNat ∧ (fieldOp w).toNat ≤ 5) → exec (decode w) s =
        .next { s with h := { s.h with rspValid := true, rspWord := 0x0000_0032#32 } }) ∧
      (1 ≤ (fieldOp w).toNat ∧ (fieldOp w).toNat ≤ 5 ∧ fieldRsv w ≠ 0#3 → exec (decode w) s =
        .next { s with h := { s.h with rspValid := true, rspWord := 0x0000_0042#32 } })) ∧
    ∀ i : Instr,
      (illegalCause i = some .badop →
        exec i s = .next { s with h := { s.h with rspValid := true, rspWord := 0x0000_0032#32 } }) ∧
      (illegalCause i = some .rsvbits →
        exec i s = .next { s with h := { s.h with rspValid := true, rspWord := 0x0000_0042#32 } })

/-- R174, R261: before INIT a waiting command answers FAIL/UNINIT, whatever the queues hold, and changes only the
response. -/
def Obligations.WaitingCommandsBeforeInitAnswerUninit : Prop :=
  ∀ (s : State) (op : WaitOp) (nb : Bool) (b : Byte) (cap : Half), s.h.init = false →
    exec (waitInstr op nb b cap) s = .next { s with h := { s.h with rspValid := true, rspWord := 0x0000_0020#32 } }

/-- R173, R174: a waiting command whose condition fails answers FAIL/TIMEOUT at once when its T is 0, else waits with
all of T left; either way no queue changes, and the operands the command uses are latched. That they are latched on the
FAIL/TIMEOUT path too is log 10 (DEDUCED: R174 followed where R267 says that a FAIL changes only the response). -/
def Obligations.BlockedCommandsTimeOutOrWait : Prop :=
  ∀ (s : State) (op : WaitOp) (nb : Bool) (b : Byte) (cap : Half), s.h.init = true → condition op s = false →
    ∃ t : State, exec (waitInstr op nb b cap) s = .next t ∧ t.mem = s.mem ∧ t.chg = s.chg ∧
      t.h.txW = s.h.txW ∧ t.h.rxR = s.h.rxR ∧ t.h.op = waitOpCode op ∧
      t.h.copied = 0#16 ∧ t.h.stop = false ∧ (op ≠ .read → t.h.byte = b) ∧ (op = .readu → t.h.cap = cap) ∧
      (nb = true ∨ (op = .write ∧ s.cfg.wto = 0) ∨ (op ≠ .write ∧ s.cfg.rto = 0) →
        t.h.rspValid = true ∧ t.h.rspWord = 0x0000_0010#32 ∧ t.h.seq = s.h.seq) ∧
      (nb = false → op = .write → s.cfg.wto ≠ 0 →
        t.h.rspValid = s.h.rspValid ∧ t.h.seq = .wait ∧ t.h.timeLeft = s.cfg.wto) ∧
      (nb = false → op ≠ .write → s.cfg.rto ≠ 0 →
        t.h.rspValid = s.h.rspValid ∧ t.h.seq = .wait ∧ t.h.timeLeft = s.cfg.rto)

/-- The frame of every command: what no command's acceptance touches (R15, R170, R275). -/
def Obligations.CommandsKeepEverythingElse : Prop :=
  ∀ (i : Instr) (s t : State), exec i s = .next t →
    t.cfg = s.cfg ∧ t.l = s.l ∧ t.line = s.line ∧ t.host = s.host ∧ t.sched = s.sched ∧
    (∀ k, t.mem.rx.read k = s.mem.rx.read k) ∧ (∀ k, t.mem.asm.read k = s.mem.asm.read k) ∧
    t.h.tickCnt = s.h.tickCnt ∧ t.h.txRsync = s.h.txRsync ∧ t.h.rxWsync = s.h.rxWsync ∧
    t.chg.txR = s.chg.txR ∧ t.chg.rxW = s.chg.rxW

/-- The frame by command (R180, R183, R186, R189, R195, R207, R213): only INIT changes `h_init`; only WRITE changes TX,
and then only the entry at the TX write pointer, and only when it finds room; only READ and READU pop RX; only the waiting commands touch the latches, the timeout and `h_state`. -/
def Obligations.CommandsChangeOnlyTheirOwnRegisters : Prop :=
  ∀ (i : Instr) (s t : State), exec i s = .next t →
    (i ≠ .init → t.h.init = s.h.init ∧ t.chg.init = s.chg.init) ∧
    ((∀ b, i ≠ .write b ∧ i ≠ .writeNb b) ∨ s.h.init = false ∨ s.txFullH = true →
      (∀ k, t.mem.tx.read k = s.mem.tx.read k) ∧ t.h.txW = s.h.txW ∧ t.chg.txW = s.chg.txW) ∧
    (∀ k, k ≠ s.h.txW.bin % s.cfg.txDepth → t.mem.tx.read k = s.mem.tx.read k) ∧
    (i ≠ .read → i ≠ .readNb → (∀ b c, i ≠ .readu b c ∧ i ≠ .readuNb b c) →
      t.h.rxR = s.h.rxR ∧ t.chg.rxR = s.chg.rxR) ∧
    (i = .init ∨ i = .avail ∨ (illegalCause i).isSome = true →
      t.h.op = s.h.op ∧ t.h.byte = s.h.byte ∧ t.h.cap = s.h.cap ∧ t.h.timeLeft = s.h.timeLeft ∧
      t.h.copied = s.h.copied ∧ t.h.stop = s.h.stop ∧ t.h.seq = s.h.seq)

/-! ### The sequencer -/

/-- R171, R172: at an H edge in IDLE where HostEnv has a command to offer and offers it, the step is `exec` of the
decoded word, on the state after HostEnv's turn with `rsp_valid` cleared, followed by the shifts and the prescaler of
R170. -/
def Obligations.StepRunsTheDecodedCommand : Prop :=
  ∀ (s : State) (a b : Bool) (es : List Event) (w : Word), s.cfg.legal = true →
    s.sched.events = .h true a b :: es → s.h.seq = .idle →
    ((s.host.sampleRsp s.h.rspValid s.h.rspWord).retireDone).nextWord s.cfg = some w →
    step s = mapNext (State.finishH a b) (exec (decode w) ((s.takeEvent.hostTurn true).clearRsp.hostAccepted)) ∧
    (s.takeEvent.hostTurn true).host.cmdWord = w ∧ (s.takeEvent.hostTurn true).host.cmdValid = true

/-- R175, R176, R183, R190, R197: in WAIT the condition is looked at before the time left, so a command whose condition
holds acts even with no time left: WRITE pushes and answers OK; READ answers the byte, or discards the marker and keeps
waiting under what is left; READU takes its frame's first entry. `h_copied` is 0 and `h_stop` is 0 in WAIT in every
state that SequencerInvariantIsKept speaks of. -/
def Obligations.CompletionWinsOverExpiry : Prop :=
  ∀ s : State, s.h.seq = .wait →
    (s.h.op = 0x2#4 → s.txFullH = false →
      ∃ t, sequencer s = .next t ∧ t.mem.tx.read (s.h.txW.bin % s.cfg.txDepth) = some s.h.byte ∧
        t.h.txW = s.h.txW.inc s.cfg.txPw ∧ t.chg = { s.chg with txW := ⟨s.h.txW.gray, true⟩ } ∧
        t.h.op = s.h.op ∧ t.h.byte = s.h.byte ∧ t.h.cap = s.h.cap ∧
        t.h.rspValid = true ∧ t.h.rspWord = 0x0001_0001#32 ∧ t.h.seq = .idle) ∧
    (s.h.op = 0x4#4 → s.rxEmptyH = false →
      ∃ t, sequencer s = .next t ∧ t.mem = s.mem ∧ t.h.rxR = s.h.rxR.inc s.cfg.rxPw ∧
        t.chg = { s.chg with rxR := ⟨s.h.rxR.gray, true⟩ } ∧
        t.h.op = s.h.op ∧ t.h.byte = s.h.byte ∧ t.h.cap = s.h.cap ∧
        (Entry.mark s.rxHeadH = false → t.h.rspValid = true ∧
          t.h.rspWord = 0#16 ++ Entry.data s.rxHeadH ++ 0x01#8 ∧ t.h.seq = .idle) ∧
        (Entry.mark s.rxHeadH = true → t.h.rspValid = s.h.rspValid ∧ t.h.timeLeft = s.h.timeLeft ∧
          t.h.seq = .wait)) ∧
    (s.h.op = 0x5#4 → s.rxEmptyH = false →
      ∃ t, sequencer s = .next t ∧ t.mem = s.mem ∧ t.h.rxR = s.h.rxR.inc s.cfg.rxPw ∧
        t.chg = { s.chg with rxR := ⟨s.h.rxR.gray, true⟩ } ∧
        t.h.op = s.h.op ∧ t.h.byte = s.h.byte ∧ t.h.cap = s.h.cap ∧
        (Entry.mark s.rxHeadH = true → t.h.seq = .idle ∧ t.h.rspValid = true ∧
          t.h.rspWord = s.h.copied ++ 0x0001#16 ∧ (s.h.copied = 0#16 → t.h.rspWord = 0x0000_0001#32)) ∧
        (Entry.mark s.rxHeadH = false → t.h.seq = .untilEnd ∧
          (s.h.stop = true ∨ min s.h.cap.toNat s.cfg.asmCap ≤ s.h.copied.toNat →
            t.h.copied = s.h.copied ∧ t.h.stop = s.h.stop ∧ t.h.rspValid = s.h.rspValid) ∧
          (s.h.stop = false → s.h.copied.toNat < min s.h.cap.toNat s.cfg.asmCap →
            (Entry.data s.rxHeadH = s.h.byte →
              t.h.copied = s.h.copied ∧ t.h.stop = true ∧ t.h.rspValid = s.h.rspValid) ∧
            (Entry.data s.rxHeadH ≠ s.h.byte →
              t.h.copied = s.h.copied + 1#16 ∧ t.h.stop = false ∧ t.h.rspValid = true ∧
              t.h.rspWord = s.h.copied ++ Entry.data s.rxHeadH ++ 0x05#8))))

/-- R175, R178: in WAIT with the condition false, no time left answers FAIL/TIMEOUT; else a tick takes one from the
time left unless it is INF; no queue and no latched operand changes. -/
def Obligations.WaitCountsTicksThenExpires : Prop :=
  ∀ (s : State) (op : WaitOp), s.h.seq = .wait → s.h.op = waitOpCode op → condition op s = false →
    ∃ t : State, sequencer s = .next t ∧ t.mem = s.mem ∧ t.chg = s.chg ∧ t.h.txW = s.h.txW ∧ t.h.rxR = s.h.rxR ∧
      t.h.op = s.h.op ∧ t.h.byte = s.h.byte ∧ t.h.cap = s.h.cap ∧ t.h.copied = s.h.copied ∧ t.h.stop = s.h.stop ∧
      (s.h.timeLeft = 0 → t.h.seq = .idle ∧ t.h.rspValid = true ∧ t.h.rspWord = 0x0000_0010#32) ∧
      (s.h.timeLeft ≠ 0 → t.h.seq = .wait ∧ t.h.rspValid = s.h.rspValid ∧
        t.h.timeLeft = if s.h.tickCnt = s.cfg.tickDiv - 1 ∧ s.h.timeLeft ≠ 2 ^ s.cfg.timeoutW - 1
          then s.h.timeLeft - 1 else s.h.timeLeft)

/-- R197, R199: the UNTIL step holds while H sees no entry; else it pops one, and a copied byte, a terminator, a
discarded byte and the END marker each have their own effect. -/
def Obligations.UntilDrainsOneEntryAtATime : Prop :=
  ∀ s : State, s.h.seq = .untilEnd →
    ∃ t : State, sequencer s = .next t ∧ t.mem = s.mem ∧
      t.h.op = s.h.op ∧ t.h.byte = s.h.byte ∧ t.h.cap = s.h.cap ∧
      (s.rxEmptyH = true → t = s) ∧
      (s.rxEmptyH = false → t.h.rxR = s.h.rxR.inc s.cfg.rxPw ∧
        t.chg = { s.chg with rxR := ⟨s.h.rxR.gray, true⟩ } ∧
        (Entry.mark s.rxHeadH = true → t.h.seq = .idle ∧ t.h.rspValid = true ∧
          t.h.rspWord = s.h.copied ++ 0x0001#16) ∧
        (Entry.mark s.rxHeadH = false → t.h.seq = .untilEnd ∧
          (s.h.stop = true ∨ min s.h.cap.toNat s.cfg.asmCap ≤ s.h.copied.toNat →
            t.h.copied = s.h.copied ∧ t.h.stop = s.h.stop ∧ t.h.rspValid = s.h.rspValid) ∧
          (s.h.stop = false → s.h.copied.toNat < min s.h.cap.toNat s.cfg.asmCap →
            (Entry.data s.rxHeadH = s.h.byte →
              t.h.copied = s.h.copied ∧ t.h.stop = true ∧ t.h.rspValid = s.h.rspValid) ∧
            (Entry.data s.rxHeadH ≠ s.h.byte →
              t.h.copied = s.h.copied + 1#16 ∧ t.h.stop = false ∧ t.h.rspValid = true ∧
              t.h.rspWord = s.h.copied ++ Entry.data s.rxHeadH ++ 0x05#8))))

/-- R15, R170, R225, R275, R312: an edge of one domain leaves the registers of the other as they were; an H edge moves the
prescaler by one, whatever else it does. A host that changes its mind before an acceptance changes nothing of the block,
and no command it has issued; that its whole list then gives way, a pseudo-instruction between two of its commands too,
is log 18 (DESIGN CHOICE). -/
def Obligations.EachDomainStepsAlone : Prop :=
  (∀ (s t : State) (o a b : Bool), hStep o a b s = .next t →
    t.l = s.l ∧ t.line = s.line ∧ t.cfg = s.cfg ∧ (∀ k, t.mem.rx.read k = s.mem.rx.read k) ∧
    (∀ k, t.mem.asm.read k = s.mem.asm.read k) ∧ t.h.tickCnt = (s.h.tickCnt + 1) % s.cfg.tickDiv) ∧
  (∀ (s t : State) (r a b c : Bool), lStep r a b c s = .next t →
    t.h = s.h ∧ t.host = s.host ∧ t.cfg = s.cfg ∧ (∀ k, t.mem.tx.read k = s.mem.tx.read k)) ∧
  (∀ (s : State) (tasks : List HostTask), ∃ t, runEvent (.plan tasks) s = .next t ∧ t.cfg = s.cfg ∧ t.h = s.h ∧
    t.l = s.l ∧ t.chg = s.chg ∧ t.mem = s.mem ∧ t.line = s.line ∧ t.sched = s.sched ∧ t.host.issued = s.host.issued ∧
    t.host.log = s.host.log ∧ (s.host.awaiting = false → t.host.todo = tasks))

/-- R89, R91, R92: at every edge of its domain each chain shifts by one; its first stage takes the source, or, when the
source is fresh, the drawn one of its new and previous value, and the source is then no longer fresh. That H's chains
shift with no L step between is log 27 (DESIGN CHOICE: R89 followed where R117's words on two AVAILs differ). -/
def Obligations.ChainsSampleAndShiftAtEveryEdge : Prop :=
  (∀ (s t : State) (o a b : Bool), hStep o a b s = .next t →
    t.h.txRsync = ((if s.chg.txR.fresh && !a then s.chg.txR.prev else s.l.txR.gray) :: s.h.txRsync).dropLast ∧
    t.h.rxWsync = ((if s.chg.rxW.fresh && !b then s.chg.rxW.prev else s.l.rxW.gray) :: s.h.rxWsync).dropLast ∧
    t.chg.txR = ⟨s.chg.txR.prev, false⟩ ∧ t.chg.rxW = ⟨s.chg.rxW.prev, false⟩) ∧
  (∀ (s t : State) (r a b c : Bool), lStep r a b c s = .next t →
    t.l.txWsync = ((if s.chg.txW.fresh && !a then s.chg.txW.prev else s.h.txW.gray) :: s.l.txWsync).dropLast ∧
    t.l.rxRsync = ((if s.chg.rxR.fresh && !b then s.chg.rxR.prev else s.h.rxR.gray) :: s.l.rxRsync).dropLast ∧
    t.l.initSync = ((if s.chg.init.fresh && !c then s.chg.init.prev else s.h.init) :: s.l.initSync).dropLast ∧
    t.chg.txW = ⟨s.chg.txW.prev, false⟩ ∧ t.chg.rxR = ⟨s.chg.rxR.prev, false⟩ ∧
    t.chg.init = ⟨s.chg.init.prev, false⟩)

/-- R140, R142: an H step that answers either ends the command with a FINAL beat, or gives a DATA beat of a READU that
goes on; one that does not answer keeps `rsp_word` and ends no command. -/
def Obligations.EveryCommandEndsWithItsFinalBeat : Prop :=
  ∀ (s t : State) (o a b : Bool), hStep o a b s = .next t →
    (t.h.rspValid = true →
      (rspKind t.h.rspWord = 0b00#2 ∧ t.h.seq = .idle) ∨
      (rspKind t.h.rspWord = 0b01#2 ∧ t.h.seq = .untilEnd ∧ rspSt t.h.rspWord = 0b01#2)) ∧
    (t.h.rspValid = false → t.h.rspWord = s.h.rspWord ∧ (s.h.seq ≠ .idle → t.h.seq ≠ .idle))

/-! ### Reset and refusals -/

/-- R47, R290, R292: a reset empties both FIFOs on both sides, forgets any pending command and `h_init`, and leaves
`line_in`, `line_out` and HostEnv alone; every register and the bookkeeping take their reset values. That no entry of an array is listed after it is log 6 (DESIGN CHOICE: the
unspecified contents of R47 are free values). -/
def Obligations.ResetLosesEverythingQueued : Prop :=
  ∀ (s : State) (es : List Event), s.cfg.legal = true → s.sched.events = .reset :: es →
    ∃ t : State, step s = .next t ∧ txQueue t = [] ∧ rxQueue t = [] ∧ t.txEmptyL = true ∧ t.rxEmptyH = true ∧
      t.txFullH = false ∧ t.rxFreeL = 2 ^ s.cfg.rxAw ∧ t.h.init = false ∧ t.h.seq = .idle ∧ t.h.rspValid = false ∧
      t.h.rspWord = 0x0000_0000#32 ∧ t.l.fState = .empty ∧ t.l.fCursor = 0 ∧ t.l.fPub = false ∧
      t.h = HRegs.reset s.cfg ∧ t.l = LRegs.reset s.cfg ∧ t.chg = Changes.reset ∧
      t.h.tickCnt = 0 ∧ t.h.op = 0#4 ∧ t.h.byte = 0#8 ∧ t.h.cap = 0#16 ∧ t.h.timeLeft = 0 ∧ t.h.copied = 0#16 ∧
      t.h.stop = false ∧ t.l.fLen = 0 ∧ t.l.fPidx = 0 ∧ t.chg.txW = ⟨0, false⟩ ∧ t.chg.txR = ⟨0, false⟩ ∧
      t.chg.rxW = ⟨0, false⟩ ∧ t.chg.rxR = ⟨0, false⟩ ∧ t.chg.init = ⟨false, false⟩ ∧
      t.h.txW = ⟨0, 0⟩ ∧ t.h.rxR = ⟨0, 0⟩ ∧ t.l.txR = ⟨0, 0⟩ ∧ t.l.rxW = ⟨0, 0⟩ ∧
      (∀ g ∈ t.h.txRsync ++ t.h.rxWsync ++ t.l.txWsync ++ t.l.rxRsync, g = 0) ∧
      (∀ g ∈ t.l.initSync, g = false) ∧ t.uartTxValid = false ∧
      (∀ i, t.mem.tx.read i = none ∧ t.mem.rx.read i = none ∧ t.mem.asm.read i = none) ∧
      t.line = s.line ∧ t.host = s.host ∧ t.cfg = s.cfg

/-- R47, R44: the flags and ports right after reset, under every legal configuration. -/
def Obligations.FlagsAfterReset : Prop :=
  ∀ c : Config, c.legal = true →
    (State.resetWith c).cmdReady true = true ∧ (State.resetWith c).cmdReady false = false ∧
    (State.resetWith c).txFullH = false ∧ (State.resetWith c).rxEmptyH = true ∧
    (State.resetWith c).txEmptyL = true ∧ (State.resetWith c).rxFreeL = 2 ^ c.rxAw ∧
    (State.resetWith c).uartRxReady = false ∧ (State.resetWith c).uartTxValid = false ∧
    (State.resetWith c).h.rspValid = false ∧ (State.resetWith c).h.init = false

/-- R11, R291: a configuration that breaks a range of R10 is refused; under a legal one a reset of one domain alone is
refused, and nothing else. That the refusal comes at every step is log 2 (DEDUCED); that a reset of one domain is an
event refused by name is log 12 (DEDUCED). -/
def Obligations.IllegalConfigurationsAndSingleResetsAreRefused : Prop :=
  ∀ s : State,
    (¬(1 ≤ s.cfg.txAw ∧ 1 ≤ s.cfg.rxAw ∧ s.cfg.asmCap + 1 ≤ 2 ^ s.cfg.rxAw ∧ 1 ≤ s.cfg.asmCap ∧
        s.cfg.asmCap ≤ 65535 ∧ 2 ≤ s.cfg.syncStages ∧ 1 ≤ s.cfg.timeoutW ∧ s.cfg.wto ≤ 2 ^ s.cfg.timeoutW - 1 ∧
        s.cfg.rto ≤ 2 ^ s.cfg.timeoutW - 1 ∧ 1 ≤ s.cfg.tickDiv) → step s = .refused .illegalConfiguration) ∧
    (s.cfg.legal = true → s.nextEvent = .resetHOnly ∨ s.nextEvent = .resetLOnly →
      step s = .refused .singleDomainReset) ∧
    (s.cfg.legal = true → ∀ r, step s = .refused r →
      r = .singleDomainReset ∧ (s.nextEvent = .resetHOnly ∨ s.nextEvent = .resetLOnly))

/-- R10: no step changes a parameter. -/
def Obligations.ParametersNeverChange : Prop :=
  ∀ s t : State, step s = .next t → t.cfg = s.cfg

/-! ### The line-side engines -/

/-- R227, R229: the accumulate step. A byte equal to TERM closes the frame without joining it, tested before the
capacity; the ASM_CAP-th byte closes an overflow frame; any other byte goes on. With no byte waiting, or before `l_init`,
nothing changes. The premise `f_cursor < ASM_CAP` follows from R42 (FramingInvariantIsKept). -/
def Obligations.FramingTakesOneByte : Prop :=
  ∀ (s : State) (r a b c : Bool), s.cfg.legal = true →
    s.l.fState = .empty ∨ s.l.fState = .accum → s.l.fCursor < s.cfg.asmCap →
    (s.lInit = false ∨ s.line.inp = [] → ∃ t, lStep r a b c s = .next t ∧ t.line.inp = s.line.inp ∧ t.mem = s.mem ∧
      t.l.fState = s.l.fState ∧ t.l.fCursor = s.l.fCursor ∧ t.l.fLen = s.l.fLen ∧ t.l.fPub = s.l.fPub ∧
      t.l.fPidx = s.l.fPidx ∧ t.l.rxW = s.l.rxW ∧ t.chg.rxW = s.chg.rxW) ∧
    (∀ d rest, s.lInit = true → s.line.inp = d :: rest → ∃ t, lStep r a b c s = .next t ∧ t.line.inp = rest ∧
      t.mem.asm.read s.l.fCursor = some d ∧ (∀ k, k ≠ s.l.fCursor → t.mem.asm.read k = s.mem.asm.read k) ∧
      t.mem.rx = s.mem.rx ∧ t.l.rxW = s.l.rxW ∧ t.chg.rxW = s.chg.rxW ∧ t.l.fPub = s.l.fPub ∧ t.l.fPidx = s.l.fPidx ∧
      t.l.fCursor = s.l.fCursor + 1 ∧
      (d = s.cfg.term → t.l.fState = .termd ∧ t.l.fLen = s.l.fCursor) ∧
      (d ≠ s.cfg.term → s.l.fCursor + 1 = s.cfg.asmCap → t.l.fState = .ovf ∧ t.l.fLen = s.cfg.asmCap) ∧
      (d ≠ s.cfg.term → s.l.fCursor + 1 ≠ s.cfg.asmCap → t.l.fState = .accum ∧ t.l.fLen = s.l.fLen))

/-- R236: the reserve phase starts a publish when RX has room for the whole frame and its marker; else WAIT stalls and
DROP discards the frame whole. Once L sees RX empty there is room for every frame. -/
def Obligations.PublishReservesRoomOrWaitsOrDrops : Prop :=
  ∀ (s : State) (r a b c : Bool), s.lInit = true → s.l.fState = .termd ∨ s.l.fState = .ovf → s.l.fPub = false →
    ∃ t, lStep r a b c s = .next t ∧ t.line.inp = s.line.inp ∧ t.l.rxW = s.l.rxW ∧ t.chg.rxW = s.chg.rxW ∧
      t.mem = s.mem ∧ t.l.fLen = s.l.fLen ∧
      (s.l.fLen + 1 ≤ s.rxFreeL → t.l.fPub = true ∧ t.l.fPidx = 0 ∧ t.l.fState = s.l.fState ∧ t.l.fCursor = s.l.fCursor) ∧
      (s.cfg.legal = true → s.l.fLen ≤ s.cfg.asmCap → s.rxCntL = 0 → t.l.fPub = true) ∧
      (s.rxFreeL < s.l.fLen + 1 → s.cfg.policy = .drop →
        t.l.fPub = false ∧ t.l.fState = .empty ∧ t.l.fCursor = 0 ∧ t.l.fPidx = s.l.fPidx) ∧
      (s.rxFreeL < s.l.fLen + 1 → s.cfg.policy = .wait →
        t.l.fPub = false ∧ t.l.fState = s.l.fState ∧ t.l.fCursor = s.l.fCursor ∧ t.l.fPidx = s.l.fPidx)

/-- R237, R106: the stream phase pushes one data entry, or the END marker, with which the buffer returns to EMPTY. -/
def Obligations.PublishStreamsOneEntry : Prop :=
  ∀ (s : State) (r a b c : Bool), s.cfg.legal = true → s.lInit = true →
    s.l.fState = .termd ∨ s.l.fState = .ovf → s.l.fPub = true → s.l.fLen ≤ s.cfg.asmCap →
    ∃ t, lStep r a b c s = .next t ∧ t.line.inp = s.line.inp ∧ t.l.rxW = s.l.rxW.inc s.cfg.rxPw ∧
      t.chg.rxW = ⟨s.l.rxW.gray, true⟩ ∧
      (∀ k, k ≠ s.l.rxW.bin % s.cfg.rxDepth → t.mem.rx.read k = s.mem.rx.read k) ∧
      (s.l.fPidx < s.l.fLen →
        t.mem.rx.read (s.l.rxW.bin % s.cfg.rxDepth) = some (0#1 ++ s.mem.asmAt s.l.fPidx) ∧
        t.l.fPidx = s.l.fPidx + 1 ∧ t.l.fPub = true ∧ t.l.fState = s.l.fState) ∧
      (s.l.fLen ≤ s.l.fPidx →
        t.mem.rx.read (s.l.rxW.bin % s.cfg.rxDepth) = some 0x100#9 ∧
        t.l.fPidx = 0 ∧ t.l.fPub = false ∧ t.l.fState = .empty ∧ t.l.fCursor = 0)

/-- R222, R240: a byte leaves TX exactly at an L edge where `uart_tx_valid` and `uart_tx_ready` are both 1; it is the
head of TX, and it joins `line_out`. -/
def Obligations.TransmitSendsTheHeadOnAHandshake : Prop :=
  ∀ (s t : State) (r a b c : Bool), lStep r a b c s = .next t →
    (s.lInit = true ∧ s.l.txR.gray ≠ synced s.l.txWsync ∧ r = true →
      t.line.out = s.line.out ++ [s.mem.txAt (s.l.txR.bin % 2 ^ s.cfg.txAw)] ∧
      t.l.txR = s.l.txR.inc (s.cfg.txAw + 1) ∧ t.chg.txR = ⟨s.l.txR.gray, true⟩) ∧
    (s.lInit = false ∨ s.l.txR.gray = synced s.l.txWsync ∨ r = false →
      t.line.out = s.line.out ∧ t.l.txR = s.l.txR ∧ t.chg.txR = s.chg.txR)

/-- R224: before `l_init` an L edge only shifts the chains: the UART keeps its bytes, nothing is published, nothing is
sent. -/
def Obligations.LineIsGatedByInitialisation : Prop :=
  ∀ (s : State) (r a b c : Bool), s.lInit = false →
    s.uartRxReady = false ∧ s.uartTxValid = false ∧
    ∃ t, lStep r a b c s = .next t ∧ t.line = s.line ∧ t.mem = s.mem ∧
      t.l = { s.l with txWsync := t.l.txWsync, rxRsync := t.l.rxRsync, initSync := t.l.initSync }

/-! ### Gray code -/

/-- R19: `b2g b` is `b XOR (b >> 1)`, `b2g` and `g2b` are inverse on W-bit values, `g2b` has the bits R19 gives it, and
neighbours differ in exactly one bit. -/
def Obligations.GrayCodeIsAOneBitChangeBijection : Prop :=
  ∀ w b : Nat, b < 2 ^ w →
    b2g b = b ^^^ (b / 2) ∧ b2g b < 2 ^ w ∧ g2b w b < 2 ^ w ∧ g2b w (b2g b) = b ∧ b2g (g2b w b) = b ∧
    (∀ i, i < w → (g2b w b).testBit i = ((g2b w b).testBit (i + 1) ^^ b.testBit i)) ∧
    (1 ≤ w → ∃ k, k < w ∧ b2g b ^^^ b2g ((b + 1) % 2 ^ w) = 2 ^ k)

/-- R101: the Gray-domain full test agrees with the counting one. -/
def Obligations.GrayFullTestAgreesWithTheCount : Prop :=
  ∀ s : State, s.cfg.legal = true → CtlInv s → TxInv s → s.txFullGray = s.txFullH

/-! ### Invariants of a step -/

/-- The counters stay in range, a pending command keeps its opcode, the chains keep their length (R34 to R40). -/
def Obligations.SequencerInvariantIsKept : Prop :=
  ∀ s t : State, CtlInv s → step s = .next t → CtlInv t

/-- No stage of `l_init_sync` runs ahead of `h_init`, and TX stays empty before INIT (R94, R224). -/
def Obligations.InitialisationInvariantIsKept : Prop :=
  ∀ s t : State, CtlInv s → InitInv s → step s = .next t → InitInv t

/-- R42's relations between the framing registers survive every step. -/
def Obligations.FramingInvariantIsKept : Prop :=
  ∀ s t : State, CtlInv s → FrameInv s → step s = .next t → FrameInv t

/-- TX's pointers and chains stay in order (R86, R94, R110, R111). -/
def Obligations.TxPointerInvariantIsKept : Prop :=
  ∀ s t : State, CtlInv s → TxInv s → step s = .next t → TxInv t

/-- RX's pointers and chains stay in order, and a running publish keeps its room (R86, R94, R110, R111, R238). -/
def Obligations.RxPointerInvariantIsKept : Prop :=
  ∀ s t : State, CtlInv s → FrameInv s → RxInv s → step s = .next t → RxInv t

/-- The arrays stay in canonical form and within their sizes (R43). -/
def Obligations.ArraysStayCanonicalAndInBounds : Prop :=
  ∀ s t : State, s.cfg.legal = true → MemInv s → step s = .next t → MemInv t

/-- Every entry a rule may read has been written (R83). -/
def Obligations.ReadableEntriesStayWritten : Prop :=
  ∀ s t : State, CtlInv s → FrameInv s → TxInv s → RxInv s → WrittenInv s → step s = .next t → WrittenInv t

/-- Frames stay framed: no data entry is TERM, and each frame's END marker is there or on its way (R84, R200, R232). -/
def Obligations.FramesStayFramed : Prop :=
  ∀ s t : State, CtlInv s → FrameInv s → RxInv s → WrittenInv s → StreamInv s → step s = .next t → StreamInv t

/-- No response uses a reserved ST, KIND or CAUSE (R141 to R143). -/
def Obligations.ResponseCodesStayLegal : Prop :=
  ∀ s t : State, RspInv s → step s = .next t → RspInv t

/-- Every invariant holds at every launch, after the first or a later reset and after INIT's acceptance (R311). -/
def Obligations.InvariantsHoldAtLaunch : Prop :=
  ∀ s : State, Launch s → Inv s

/-- Every invariant holds in every reachable state, and no reachable state faults (the faults are those of logs 8
and 9): the only stop is the refusal of a reset of one domain alone (log 12, DEDUCED). -/
def Obligations.ReachableStatesAreSound : Prop :=
  ∀ s : State, Reachable s → Inv s ∧ (∀ f, step s ≠ .fault f) ∧ (∀ r, step s = .refused r → r = .singleDomainReset)

/-- R42, in every reachable state. -/
def Obligations.FramingRelationsInReachableStates : Prop :=
  ∀ s : State, Reachable s →
    (s.l.fState = .empty → s.l.fCursor = 0 ∧ s.l.fPub = false ∧ s.l.fPidx = 0) ∧
    (s.l.fState = .accum → 1 ≤ s.l.fCursor ∧ s.l.fCursor ≤ s.cfg.asmCap - 1 ∧ s.l.fPub = false) ∧
    (s.l.fState = .termd → s.l.fLen ≤ s.cfg.asmCap - 1 ∧ s.l.fCursor = s.l.fLen + 1) ∧
    (s.l.fState = .ovf → s.l.fLen = s.cfg.asmCap ∧ s.l.fCursor = s.cfg.asmCap) ∧
    (s.l.fState = .termd ∨ s.l.fState = .ovf → s.l.fPidx ≤ s.l.fLen)

/-- R110, and R111's order of what each side believes, in every reachable state. -/
def Obligations.OccupancyIsBoundedAndFlagsAreConservative : Prop :=
  ∀ s : State, Reachable s →
    s.occTx ≤ 2 ^ s.cfg.txAw ∧ s.occRx ≤ 2 ^ s.cfg.rxAw ∧
    s.txCntL ≤ s.occTx ∧ s.occTx ≤ s.txCntH ∧ s.rxCntH ≤ s.occRx ∧ s.occRx ≤ s.rxCntL

/-! ### The queues and whole runs -/

/-- R112, R241: TX is first in, first out, and nothing is lost or doubled between a push and the wire: an L edge moves
bytes from the front of TX to the end of `line_out`; an H edge only adds at the back, and only as a WRITE's answer. -/
def Obligations.TxIsFirstInFirstOutToTheWire : Prop :=
  (∀ (s t : State) (r a b c : Bool), CtlInv s → TxInv s → lStep r a b c s = .next t →
    t.line.out ++ txQueue t = s.line.out ++ txQueue s) ∧
  (∀ (s t : State) (o a b : Bool), CtlInv s → TxInv s → hStep o a b s = .next t →
    t.line.out = s.line.out ∧
    (txQueue t = txQueue s ∨
      (txQueue t = txQueue s ++ [t.h.byte] ∧ t.h.op = 0x2#4 ∧ t.h.rspValid = true ∧ t.h.rspWord = 0x0001_0001#32)))

/-- R112: RX is first in, first out: an L edge adds at most one entry at the back, an H edge takes at most the entry at
the front, which is the head H reads. -/
def Obligations.RxIsFirstInFirstOut : Prop :=
  (∀ (s t : State) (r a b c : Bool), CtlInv s → FrameInv s → RxInv s → lStep r a b c s = .next t →
    rxQueue t = rxQueue s ∨ ∃ e, rxQueue t = rxQueue s ++ [e]) ∧
  (∀ (s t : State) (o a b : Bool), CtlInv s → FrameInv s → RxInv s → hStep o a b s = .next t →
    rxQueue t = rxQueue s ∨ rxQueue s = s.rxHeadH :: rxQueue t)

/-- R113, into H: after SYNC_STAGES + 1 H edges in a row H sees both L pointers as they are; after fewer than
SYNC_STAGES, what it sees was already in its chain. That H edges alone make an L pointer visible, with no L step
between, is log 27 (DESIGN CHOICE: R89 and R113 followed where R117's words on two AVAILs differ). -/
def Obligations.CrossingIntoHTakesTheChainLength : Prop :=
  ∀ (s : State) (es : List Event), CtlInv s → s.sched.events = es → (∀ e ∈ es, IsHEdge e) →
    es.length = s.cfg.syncStages + 1 →
    (∃ t, runSteps (s.cfg.syncStages + 1) s = .next t ∧ synced t.h.txRsync = s.l.txR.gray ∧
      synced t.h.rxWsync = s.l.rxW.gray) ∧
    (∀ n, n < s.cfg.syncStages → ∃ t, runSteps n s = .next t ∧ synced t.h.txRsync ∈ s.h.txRsync ∧
      synced t.h.rxWsync ∈ s.h.rxWsync)

/-- R113, into L, for both H pointers and for `h_init` (R181). -/
def Obligations.CrossingIntoLTakesTheChainLength : Prop :=
  ∀ (s : State) (es : List Event), CtlInv s → FrameInv s → s.sched.events = es → (∀ e ∈ es, IsLEdge e) →
    es.length = s.cfg.syncStages + 1 →
    (∃ t, runSteps (s.cfg.syncStages + 1) s = .next t ∧ synced t.l.txWsync = s.h.txW.gray ∧
      synced t.l.rxRsync = s.h.rxR.gray ∧ t.lInit = s.h.init) ∧
    (∀ n, n < s.cfg.syncStages → ∃ t, runSteps n s = .next t ∧ synced t.l.txWsync ∈ s.l.txWsync ∧
      synced t.l.rxRsync ∈ s.l.rxRsync ∧ t.lInit ∈ s.l.initSync)

/-- R181, R114, R311: under fairness, once INIT has been executed the line side starts. -/
def Obligations.InitReachesTheLineUnderFairness : Prop :=
  ∀ (s : State) (e : Nat → Event), Reachable s → s.h.init = true → Fair e →
    ∃ n t, runOn e n s = .next t ∧ t.lInit = true

/-- R177: a waiting command with a finite T ≥ 1, accepted at H step 0 and blocked for good, gives no answer before H
step n and answers FAIL/TIMEOUT at it, with (T − 1)·TICK_DIV + 2 ≤ n ≤ T·TICK_DIV + 1. -/
def Obligations.BlockedCommandTimesOutWithinTheBound : Prop :=
  ∀ (s : State) (op : WaitOp) (byte : Byte) (cap : Half) (a b : Bool) (es : List Event),
    CtlInv s → s.h.seq = .idle → s.h.init = true → Stuck op s →
    1 ≤ effTimeout s.cfg op false → effTimeout s.cfg op false < s.cfg.inf →
    s.host.todo = [.word (encode (waitInstr op false byte cap))] → s.host.awaiting = false →
    s.sched.events = .h true a b :: es → (∀ e ∈ es, IsHEdge e) →
    effTimeout s.cfg op false * s.cfg.tickDiv + 1 ≤ es.length →
    ∃ n, (effTimeout s.cfg op false - 1) * s.cfg.tickDiv + 2 ≤ n ∧ n ≤ effTimeout s.cfg op false * s.cfg.tickDiv + 1 ∧
      (∀ m, 1 ≤ m → m ≤ n → ∃ t, runSteps m s = .next t ∧ t.h.seq = .wait ∧ t.h.rspValid = false) ∧
      ∃ t, runSteps (n + 1) s = .next t ∧ t.h.seq = .idle ∧ t.h.rspValid = true ∧ t.h.rspWord = 0x0000_0010#32

/-- R178: a pending command with T = INF that stays blocked is never answered and keeps the port. -/
def Obligations.InfiniteTimeoutNeverExpires : Prop :=
  ∀ (s : State) (op : WaitOp) (es : List Event), CtlInv s → s.h.seq = .wait → s.h.op = waitOpCode op → Stuck op s →
    s.h.timeLeft = 2 ^ s.cfg.timeoutW - 1 → s.sched.events = es → (∀ e ∈ es, IsHEdge e) → 1 ≤ es.length →
    ∃ t, runSteps es.length s = .next t ∧ t.h.seq = .wait ∧ t.h.timeLeft = 2 ^ s.cfg.timeoutW - 1 ∧
      t.h.rspValid = false ∧ t.cmdReady true = false ∧ t.host.issued = s.host.issued

/-- R195 to R201: a READU of a frame that H sees whole copies the frame's first min(CAP, ASM_CAP) bytes up to the first
terminator among them, one DATA beat each with its index, answers FINAL with how many, and takes the whole frame out
of RX, in one H step an entry. The beats are read off the log of a HostEnv that samples every response (log 13,
DEDUCED) and has the pace of log 18 (DESIGN CHOICE). -/
def Obligations.ReaduCopiesAndDequeuesOneFrame : Prop :=
  ∀ (s : State) (nb : Bool) (term : Byte) (cap : Half) (frame : List Byte) (a b : Bool) (es : List Event),
    CtlInv s → RxInv s → s.h.seq = .idle → s.h.init = true → s.h.rspValid = false →
    s.host.todo = [.word (encode (waitInstr .readu nb term cap))] → s.host.awaiting = false →
    s.sched.events = .h true a b :: es → (∀ e ∈ es, IsHEdge e) → es.length = frame.length + 1 →
    frame.length + 1 ≤ s.rxCntH →
    (rxQueue s).take (frame.length + 1) = frame.map dataEntry ++ [endMarker] →
    ∃ t, runSteps (frame.length + 2) s = .next t ∧ t.h.seq = .idle ∧
      rxQueue t = (rxQueue s).drop (frame.length + 1) ∧
      t.host.log = s.host.log ++
        (copiedBytes s.cfg term cap frame).mapIdx (fun k d => rspPack .ok .data .none d (BitVec.ofNat 16 k)) ++
        [rspPack .ok .final .none 0 (BitVec.ofNat 16 (copiedBytes s.cfg term cap frame).length)]

/-- R235, R239, R244: bytes without TERM, fewer than ASM_CAP, and then TERM, arriving at an initialised block with an
empty assembly buffer and room in RX, are published as exactly that frame, after which the buffer is empty. -/
def Obligations.TerminatedLineIsPublishedAsOneFrame : Prop :=
  ∀ (s : State) (line rest : List Byte) (es : List Event), CtlInv s → FrameInv s → RxInv s →
    s.h.init = true → s.chg.init.fresh = false → (∀ g ∈ s.l.initSync, g = true) → s.l.fState = .empty →
    line.length < s.cfg.asmCap → s.cfg.term ∉ line → s.line.inp = line ++ s.cfg.term :: rest →
    line.length + 1 ≤ s.rxFreeL → s.sched.events = es → (∀ e ∈ es, IsLEdge e) →
    es.length = 2 * line.length + 3 →
    ∃ t, runSteps (2 * line.length + 3) s = .next t ∧
      rxQueue t = rxQueue s ++ line.map dataEntry ++ [endMarker] ∧ t.line.inp = rest ∧ t.l.fState = .empty ∧
      t.l.fCursor = 0

/-- R231, R245: ASM_CAP bytes without TERM are published as one frame of exactly ASM_CAP bytes, and the bytes after them
stay for the next frame. -/
def Obligations.OverflowIsPublishedAtFullCapacity : Prop :=
  ∀ (s : State) (line rest : List Byte) (es : List Event), CtlInv s → FrameInv s → RxInv s →
    s.h.init = true → s.chg.init.fresh = false → (∀ g ∈ s.l.initSync, g = true) → s.l.fState = .empty →
    line.length = s.cfg.asmCap → s.cfg.term ∉ line → s.line.inp = line ++ rest →
    line.length + 1 ≤ s.rxFreeL → s.sched.events = es → (∀ e ∈ es, IsLEdge e) →
    es.length = 2 * line.length + 2 →
    ∃ t, runSteps (2 * line.length + 2) s = .next t ∧
      rxQueue t = rxQueue s ++ line.map dataEntry ++ [endMarker] ∧ t.line.inp = rest ∧ t.l.fState = .empty ∧
      t.l.fCursor = 0

/-- R148: WRITEN of bytes that H sees room for enqueues them as one contiguous run, in order, and returns their number;
WRITEN of no byte issues nothing and returns 0. -/
def Obligations.WritenEnqueuesItsRun : Prop :=
  ∀ (s : State) (nb : Bool) (bytes : List Byte) (es : List Event), CtlInv s → TxInv s → s.h.seq = .idle →
    s.h.init = true → s.h.rspValid = false → s.host.todo = pseudoWriten nb bytes → s.host.awaiting = false →
    s.txCntH + bytes.length ≤ 2 ^ s.cfg.txAw → s.sched.events = es →
    (∀ e ∈ es, ∃ a b, e = .h true a b) → es.length = bytes.length + 1 →
    ∃ t, runSteps (bytes.length + 1) s = .next t ∧ txQueue t = txQueue s ++ bytes ∧
      t.host.results = s.host.results ++ [.wrote bytes.length] ∧ t.host.issued = s.host.issued + bytes.length ∧
      t.host.todo = []

/-- R149: DRAIN on an RX that H sees empty issues one AVAIL and nothing else. -/
def Obligations.DrainOfAnEmptyQueueIssuesOneAvail : Prop :=
  ∀ (s : State) (a b a' b' : Bool) (es : List Event), s.cfg.legal = true → s.h.seq = .idle → s.h.init = true →
    s.h.rspValid = false → s.rxEmptyH = true → s.host.todo = pseudoDrain → s.host.awaiting = false →
    s.sched.events = .h true a b :: .h true a' b' :: es →
    ∃ t, runSteps 2 s = .next t ∧ t.host.todo = [] ∧ t.host.issued = s.host.issued + 1 ∧
      t.host.log = s.host.log ++ [0x0000_0000#32] ∧ t.host.results = s.host.results ++ [.drained] ∧
      t.h.rxR = s.h.rxR
end

