-- ==== Sys2Proof/Laws/Encoding.lean ====
section
/-! SUPPORT. The fields of a packed command word, each read back from its place (spec/30_encoding.md R130). -/

namespace Sys2Proof

section

variable (op : BitVec 4) (nb : Bool) (rsv : BitVec 3) (cap : Half) (b : Byte) (rest : BitVec 28)

@[simp] theorem fieldOp_packWord : fieldOp (packWord op nb rsv cap b) = op := by
  unfold packWord fieldOp
  ext i hi
  simp only [BitVec.getElem_extractLsb', BitVec.getLsbD_append]
  have : i < 4 := hi
  interval_cases i <;> simp

@[simp] theorem fieldNb_packWord : fieldNb (packWord op nb rsv cap b) = nb := by
  unfold packWord fieldNb
  simp only [BitVec.getLsbD_append]
  simp

@[simp] theorem fieldRsv_packWord : fieldRsv (packWord op nb rsv cap b) = rsv := by
  unfold packWord fieldRsv
  ext i hi
  simp only [BitVec.getElem_extractLsb', BitVec.getLsbD_append]
  have : i < 3 := hi
  interval_cases i <;> simp

@[simp] theorem fieldCap_packWord : fieldCap (packWord op nb rsv cap b) = cap := by
  unfold packWord fieldCap
  ext i hi
  simp only [BitVec.getElem_extractLsb', BitVec.getLsbD_append]
  have : i < 16 := hi
  interval_cases i <;> simp

@[simp] theorem fieldB_packWord : fieldB (packWord op nb rsv cap b) = b := by
  unfold packWord fieldB
  ext i hi
  simp only [BitVec.getElem_extractLsb', BitVec.getLsbD_append]
  have : i < 8 := hi
  interval_cases i <;> simp

@[simp] theorem fieldOp_append : fieldOp (op ++ rest) = op := by
  unfold fieldOp
  ext i hi
  simp only [BitVec.getElem_extractLsb', BitVec.getLsbD_append]
  have : i < 4 := hi
  interval_cases i <;> simp

@[simp] theorem fieldRest_append : fieldRest (op ++ rest) = rest := by
  unfold fieldRest
  ext i hi
  simp only [BitVec.getElem_extractLsb', BitVec.getLsbD_append]
  have : i < 28 := hi
  interval_cases i <;> simp

/-- Bits 31:24 of a packed word, all a table row fixes of a legal command. -/
theorem packWord_top : packWord op nb rsv cap b &&& 0xFF000000#32 = packWord op nb rsv 0 0 := by
  unfold packWord
  apply BitVec.eq_of_getLsbD_eq
  intro i hi
  simp only [BitVec.getLsbD_and, BitVec.getLsbD_append]
  interval_cases i <;> simp

/-- The top bits of a word given by its opcode and its other 28 bits. -/
theorem append_top : (op ++ rest : Word) &&& 0xF0000000#32 = op ++ 0#28 := by
  apply BitVec.eq_of_getLsbD_eq
  intro i hi
  simp only [BitVec.getLsbD_and, BitVec.getLsbD_append]
  interval_cases i <;> simp

/-- A word is its fields. -/
theorem packWord_fields (w : Word) : 
    packWord (fieldOp w) (fieldNb w) (fieldRsv w) (fieldCap w) (fieldB w) = w := by
  unfold packWord fieldOp fieldNb fieldRsv fieldCap fieldB
  apply BitVec.eq_of_getLsbD_eq
  intro i hi
  simp only [BitVec.getLsbD_append, BitVec.getLsbD_extractLsb']
  interval_cases i <;> simp

/-- A word is its opcode and its other 28 bits. -/
theorem append_fields (w : Word) : (fieldOp w ++ fieldRest w : Word) = w := by
  unfold fieldOp fieldRest
  apply BitVec.eq_of_getLsbD_eq
  intro i hi
  simp only [BitVec.getLsbD_append, BitVec.getLsbD_extractLsb']
  interval_cases i <;> simp

end

end Sys2Proof
end

