-- ==== Sys2Proof/Laws/Launch.lean ====
section
/-! SUPPORT. Which states are launch states: after the power-up reset, after any reset event, and after INIT's acceptance
(spec/70_reset_and_hazards.md R290, R311). -/

namespace Sys2Proof

open Sys2Proof.Machine

theorem afterReset_resetWith {c : Config} (hc : c.legal = true) : AfterReset (State.resetWith c) := And.intro hc rfl

/-- The state right after a reset event is a launch state, whatever was before it. -/
theorem afterReset_applyReset {s : State} (hs : s.cfg.legal = true) : AfterReset s.applyReset := And.intro hs rfl

/-- The state right after the H step that accepts INIT in a reset state is a launch state. -/
theorem launch_init {r t : State} (a b : Bool) (hr : AfterReset r) (ht : exec .init r = .next t) :
    Launch (t.finishH a b) := Or.inr ⟨r, t, a, b, hr, ht, rfl⟩

end Sys2Proof
end

