-- ==== Sys2Proof/Laws/Params.lean ====
section
/-! SUPPORT. Laws of the derived parameters, of modular subtraction and of the chains' shift. -/

namespace Sys2Proof

/-- `clog2 n` is the least k with 2^k ≥ n (spec/00_scope.md R12). -/
theorem clog2_le_iff (n k : Nat) : clog2 n ≤ k ↔ n ≤ 2 ^ k := by
  unfold clog2
  split
  next h => exact ⟨fun _ => Nat.le_trans h Nat.one_le_two_pow, fun _ => Nat.zero_le _⟩
  next h =>
    have hn : n - 1 ≠ 0 := by omega
    rw [Nat.succ_le_iff, Nat.log2_lt hn]
    omega

theorem le_two_pow_clog2 (n : Nat) : n ≤ 2 ^ clog2 n := (clog2_le_iff n _).1 (Nat.le_refl _)

/-- What a legal configuration satisfies (R10, R11). -/
theorem legal_iff (c : Config) : c.legal = true ↔
    1 ≤ c.txAw ∧ 1 ≤ c.rxAw ∧ c.asmCap + 1 ≤ c.rxDepth ∧ 1 ≤ c.asmCap ∧ c.asmCap ≤ 65535 ∧ 2 ≤ c.syncStages ∧
      1 ≤ c.timeoutW ∧ c.wto ≤ c.inf ∧ c.rto ≤ c.inf ∧ 1 ≤ c.tickDiv := by
  simp [Config.legal, and_assoc]

/-- A framing counter of at most ASM_CAP is not narrowed by its width. -/
theorem mod_cw (c : Config) {n : Nat} (h : n ≤ c.asmCap) : n % 2 ^ c.cw = n :=
  Nat.mod_eq_of_lt (Nat.lt_of_lt_of_le (Nat.lt_succ_of_le h) (le_two_pow_clog2 (c.asmCap + 1)))

namespace Machine

theorem subMod_lt (w a b : Nat) : subMod w a b < 2 ^ w := Nat.mod_lt _ (Nat.two_pow_pos w)

/-- Modular subtraction of values in range, without the modulus. -/
theorem subMod_eq {w a b : Nat} (ha : a < 2 ^ w) (hb : b < 2 ^ w) :
    subMod w a b = if b ≤ a then a - b else a + 2 ^ w - b := by
  unfold subMod
  rw [Nat.mod_eq_of_lt hb]
  split
  next h =>
    rw [show a + 2 ^ w - b = (a - b) + 2 ^ w by omega, Nat.add_mod_right, Nat.mod_eq_of_lt (by omega)]
  next h => exact Nat.mod_eq_of_lt (by omega)

theorem g2b_lt (w g : Nat) : g2b w g < 2 ^ w := by
  induction w generalizing g with
  | zero => simp [g2b]
  | succ w ih =>
    have h1 := ih (g >>> 1)
    have h2 : (g2b w (g >>> 1) ^^^ g) % 2 < 2 := Nat.mod_lt _ (by decide)
    simp only [g2b, Nat.pow_succ]
    omega

@[simp] theorem shiftIn_length {α : Type} (x : α) (c : List α) : (shiftIn x c).length = c.length := by
  simp [shiftIn]

/-- The stages after a shift: the new value first, then each stage but the last. -/
theorem shiftIn_cons {α : Type} (x y : α) (c : List α) : shiftIn x (y :: c) = x :: (y :: c).dropLast := rfl

/-- Every stage after a shift is the new value or was a stage. -/
theorem mem_shiftIn {α : Type} {x y : α} {c : List α} (h : y ∈ shiftIn x c) : y = x ∨ y ∈ c := by
  have := List.mem_of_mem_dropLast h
  simpa using this

/-- A chain whose stages all hold the new value is not changed by the shift. -/
theorem shiftIn_settled {α : Type} {x : α} {c : List α} (h : ∀ y ∈ c, y = x) : shiftIn x c = c := by
  have hc : c = List.replicate c.length x := List.eq_replicate_iff.2 ⟨rfl, h⟩
  rw [hc]
  simp [shiftIn, ← List.replicate_succ, List.dropLast_replicate]

/-- A sample is the source's value or its previous one (R91, R92). -/
theorem sample_cases {α : Type} (d : Bool) (cur : α) (c : Change α) :
    sample d cur c = cur ∨ (c.fresh = true ∧ sample d cur c = c.prev) := by
  unfold sample
  split <;> simp_all

@[simp] theorem settle_prev {α : Type} (c : Change α) : c.settle.prev = c.prev := rfl
@[simp] theorem settle_fresh {α : Type} (c : Change α) : c.settle.fresh = false := rfl

end Machine

end Sys2Proof
end

