-- ==== Sys2Proof/Laws/State.lean ====
section
/-! SUPPORT. One lemma per field of State per shared update, true by rfl, so that no proof unfolds an update. -/

namespace Sys2Proof.Machine

section

variable (b : Byte) (s : State)

@[simp] theorem pushTx_cfg : (s.pushTx b).cfg = s.cfg := rfl
@[simp] theorem pushTx_h : (s.pushTx b).h = { s.h with txW := s.h.txW.inc s.cfg.txPw } := rfl
@[simp] theorem pushTx_l : (s.pushTx b).l = s.l := rfl
@[simp] theorem pushTx_chg : (s.pushTx b).chg = { s.chg with txW := ⟨s.h.txW.gray, true⟩ } := rfl
@[simp] theorem pushTx_mem : (s.pushTx b).mem =
    { s.mem with tx := s.mem.tx.write (s.h.txW.bin % s.cfg.txDepth) b } := rfl
@[simp] theorem pushTx_line : (s.pushTx b).line = s.line := rfl
@[simp] theorem pushTx_host : (s.pushTx b).host = s.host := rfl
@[simp] theorem pushTx_sched : (s.pushTx b).sched = s.sched := rfl

end

section

variable (s : State)

@[simp] theorem popTx_cfg : s.popTx.cfg = s.cfg := rfl
@[simp] theorem popTx_h : s.popTx.h = s.h := rfl
@[simp] theorem popTx_l : s.popTx.l = { s.l with txR := s.l.txR.inc s.cfg.txPw } := rfl
@[simp] theorem popTx_chg : s.popTx.chg = { s.chg with txR := ⟨s.l.txR.gray, true⟩ } := rfl
@[simp] theorem popTx_mem : s.popTx.mem = s.mem := rfl
@[simp] theorem popTx_line : s.popTx.line = s.line := rfl
@[simp] theorem popTx_host : s.popTx.host = s.host := rfl
@[simp] theorem popTx_sched : s.popTx.sched = s.sched := rfl

end

section

variable (e : Entry) (s : State)

@[simp] theorem pushRx_cfg : (s.pushRx e).cfg = s.cfg := rfl
@[simp] theorem pushRx_h : (s.pushRx e).h = s.h := rfl
@[simp] theorem pushRx_l : (s.pushRx e).l = { s.l with rxW := s.l.rxW.inc s.cfg.rxPw } := rfl
@[simp] theorem pushRx_chg : (s.pushRx e).chg = { s.chg with rxW := ⟨s.l.rxW.gray, true⟩ } := rfl
@[simp] theorem pushRx_mem : (s.pushRx e).mem =
    { s.mem with rx := s.mem.rx.write (s.l.rxW.bin % s.cfg.rxDepth) e } := rfl
@[simp] theorem pushRx_line : (s.pushRx e).line = s.line := rfl
@[simp] theorem pushRx_host : (s.pushRx e).host = s.host := rfl
@[simp] theorem pushRx_sched : (s.pushRx e).sched = s.sched := rfl

end

section

variable (s : State)

@[simp] theorem popRx_cfg : s.popRx.cfg = s.cfg := rfl
@[simp] theorem popRx_h : s.popRx.h = { s.h with rxR := s.h.rxR.inc s.cfg.rxPw } := rfl
@[simp] theorem popRx_l : s.popRx.l = s.l := rfl
@[simp] theorem popRx_chg : s.popRx.chg = { s.chg with rxR := ⟨s.h.rxR.gray, true⟩ } := rfl
@[simp] theorem popRx_mem : s.popRx.mem = s.mem := rfl
@[simp] theorem popRx_line : s.popRx.line = s.line := rfl
@[simp] theorem popRx_host : s.popRx.host = s.host := rfl
@[simp] theorem popRx_sched : s.popRx.sched = s.sched := rfl

end

section

variable (st : St) (k : Kind) (c : Cause) (d : Byte) (n : Half) (s : State)

@[simp] theorem respond_cfg : (s.respond st k c d n).cfg = s.cfg := rfl
@[simp] theorem respond_h : (s.respond st k c d n).h =
    { s.h with rspValid := true, rspWord := rspPack st k c d n } := rfl
@[simp] theorem respond_l : (s.respond st k c d n).l = s.l := rfl
@[simp] theorem respond_chg : (s.respond st k c d n).chg = s.chg := rfl
@[simp] theorem respond_mem : (s.respond st k c d n).mem = s.mem := rfl
@[simp] theorem respond_line : (s.respond st k c d n).line = s.line := rfl
@[simp] theorem respond_host : (s.respond st k c d n).host = s.host := rfl
@[simp] theorem respond_sched : (s.respond st k c d n).sched = s.sched := rfl

end

section

variable (s : State)

@[simp] theorem clearRsp_cfg : s.clearRsp.cfg = s.cfg := rfl
@[simp] theorem clearRsp_h : s.clearRsp.h = { s.h with rspValid := false } := rfl
@[simp] theorem clearRsp_l : s.clearRsp.l = s.l := rfl
@[simp] theorem clearRsp_chg : s.clearRsp.chg = s.chg := rfl
@[simp] theorem clearRsp_mem : s.clearRsp.mem = s.mem := rfl
@[simp] theorem clearRsp_line : s.clearRsp.line = s.line := rfl
@[simp] theorem clearRsp_host : s.clearRsp.host = s.host := rfl
@[simp] theorem clearRsp_sched : s.clearRsp.sched = s.sched := rfl

end

section

variable (q : SeqState) (s : State)

@[simp] theorem setSeq_cfg : (s.setSeq q).cfg = s.cfg := rfl
@[simp] theorem setSeq_h : (s.setSeq q).h = { s.h with seq := q } := rfl
@[simp] theorem setSeq_l : (s.setSeq q).l = s.l := rfl
@[simp] theorem setSeq_chg : (s.setSeq q).chg = s.chg := rfl
@[simp] theorem setSeq_mem : (s.setSeq q).mem = s.mem := rfl
@[simp] theorem setSeq_line : (s.setSeq q).line = s.line := rfl
@[simp] theorem setSeq_host : (s.setSeq q).host = s.host := rfl
@[simp] theorem setSeq_sched : (s.setSeq q).sched = s.sched := rfl

end

section

variable (op : WaitOp) (b : Byte) (cap : Half) (s : State)

@[simp] theorem latch_cfg : (s.latch op b cap).cfg = s.cfg := rfl
@[simp] theorem latch_h : (s.latch op b cap).h =
    { s.h with op := waitOpCode op, byte := b, cap := cap, copied := 0, stop := false } := rfl
@[simp] theorem latch_l : (s.latch op b cap).l = s.l := rfl
@[simp] theorem latch_chg : (s.latch op b cap).chg = s.chg := rfl
@[simp] theorem latch_mem : (s.latch op b cap).mem = s.mem := rfl
@[simp] theorem latch_line : (s.latch op b cap).line = s.line := rfl
@[simp] theorem latch_host : (s.latch op b cap).host = s.host := rfl
@[simp] theorem latch_sched : (s.latch op b cap).sched = s.sched := rfl

end

section

variable (s : State)

@[simp] theorem prescale_cfg : s.prescale.cfg = s.cfg := rfl
@[simp] theorem prescale_h : s.prescale.h = { s.h with tickCnt := (s.h.tickCnt + 1) % s.cfg.tickDiv } := rfl
@[simp] theorem prescale_l : s.prescale.l = s.l := rfl
@[simp] theorem prescale_chg : s.prescale.chg = s.chg := rfl
@[simp] theorem prescale_mem : s.prescale.mem = s.mem := rfl
@[simp] theorem prescale_line : s.prescale.line = s.line := rfl
@[simp] theorem prescale_host : s.prescale.host = s.host := rfl
@[simp] theorem prescale_sched : s.prescale.sched = s.sched := rfl

end

section

variable (a b : Bool) (s : State)

@[simp] theorem syncH_cfg : (s.syncH a b).cfg = s.cfg := rfl
@[simp] theorem syncH_h : (s.syncH a b).h =
    { s.h with txRsync := shiftIn (sample a s.l.txR.gray s.chg.txR) s.h.txRsync, rxWsync := shiftIn (sample b s.l.rxW.gray s.chg.rxW) s.h.rxWsync } := rfl
@[simp] theorem syncH_l : (s.syncH a b).l = s.l := rfl
@[simp] theorem syncH_chg : (s.syncH a b).chg = { s.chg with txR := s.chg.txR.settle, rxW := s.chg.rxW.settle } := rfl
@[simp] theorem syncH_mem : (s.syncH a b).mem = s.mem := rfl
@[simp] theorem syncH_line : (s.syncH a b).line = s.line := rfl
@[simp] theorem syncH_host : (s.syncH a b).host = s.host := rfl
@[simp] theorem syncH_sched : (s.syncH a b).sched = s.sched := rfl

end

section

variable (a b c : Bool) (s : State)

@[simp] theorem syncL_cfg : (s.syncL a b c).cfg = s.cfg := rfl
@[simp] theorem syncL_h : (s.syncL a b c).h = s.h := rfl
@[simp] theorem syncL_l : (s.syncL a b c).l =
    { s.l with txWsync := shiftIn (sample a s.h.txW.gray s.chg.txW) s.l.txWsync, rxRsync := shiftIn (sample b s.h.rxR.gray s.chg.rxR) s.l.rxRsync, initSync := shiftIn (sample c s.h.init s.chg.init) s.l.initSync } := rfl
@[simp] theorem syncL_chg : (s.syncL a b c).chg =
    { s.chg with txW := s.chg.txW.settle, rxR := s.chg.rxR.settle, init := s.chg.init.settle } := rfl
@[simp] theorem syncL_mem : (s.syncL a b c).mem = s.mem := rfl
@[simp] theorem syncL_line : (s.syncL a b c).line = s.line := rfl
@[simp] theorem syncL_host : (s.syncL a b c).host = s.host := rfl
@[simp] theorem syncL_sched : (s.syncL a b c).sched = s.sched := rfl

end

section

variable (s : State)

@[simp] theorem applyReset_cfg : s.applyReset.cfg = s.cfg := rfl
@[simp] theorem applyReset_h : s.applyReset.h = HRegs.reset s.cfg := rfl
@[simp] theorem applyReset_l : s.applyReset.l = LRegs.reset s.cfg := rfl
@[simp] theorem applyReset_chg : s.applyReset.chg = Changes.reset := rfl
@[simp] theorem applyReset_mem : s.applyReset.mem = ⟨[], [], [], s.mem.epoch + 1⟩ := rfl
@[simp] theorem applyReset_line : s.applyReset.line = s.line := rfl
@[simp] theorem applyReset_host : s.applyReset.host = s.host := rfl
@[simp] theorem applyReset_sched : s.applyReset.sched = s.sched := rfl

end

section

variable (bs : List Byte) (s : State)

@[simp] theorem receive_cfg : (s.receive bs).cfg = s.cfg := rfl
@[simp] theorem receive_h : (s.receive bs).h = s.h := rfl
@[simp] theorem receive_l : (s.receive bs).l = s.l := rfl
@[simp] theorem receive_chg : (s.receive bs).chg = s.chg := rfl
@[simp] theorem receive_mem : (s.receive bs).mem = s.mem := rfl
@[simp] theorem receive_line : (s.receive bs).line = { s.line with inp := s.line.inp ++ bs } := rfl
@[simp] theorem receive_host : (s.receive bs).host = s.host := rfl
@[simp] theorem receive_sched : (s.receive bs).sched = s.sched := rfl

end

section

variable (offer : Bool) (s : State)

@[simp] theorem hostTurn_cfg : (s.hostTurn offer).cfg = s.cfg := rfl
@[simp] theorem hostTurn_h : (s.hostTurn offer).h = s.h := rfl
@[simp] theorem hostTurn_l : (s.hostTurn offer).l = s.l := rfl
@[simp] theorem hostTurn_chg : (s.hostTurn offer).chg = s.chg := rfl
@[simp] theorem hostTurn_mem : (s.hostTurn offer).mem = s.mem := rfl
@[simp] theorem hostTurn_line : (s.hostTurn offer).line = s.line := rfl
@[simp] theorem hostTurn_host : (s.hostTurn offer).host =
    ((s.host.sampleRsp s.h.rspValid s.h.rspWord).retireDone).drive s.cfg offer := rfl
@[simp] theorem hostTurn_sched : (s.hostTurn offer).sched = s.sched := rfl

end

section

variable (s : State)

@[simp] theorem replan_cfg (ts : List HostTask) : (s.replan ts).cfg = s.cfg := rfl
@[simp] theorem replan_h (ts : List HostTask) : (s.replan ts).h = s.h := rfl
@[simp] theorem replan_l (ts : List HostTask) : (s.replan ts).l = s.l := rfl
@[simp] theorem replan_chg (ts : List HostTask) : (s.replan ts).chg = s.chg := rfl
@[simp] theorem replan_mem (ts : List HostTask) : (s.replan ts).mem = s.mem := rfl
@[simp] theorem replan_line (ts : List HostTask) : (s.replan ts).line = s.line := rfl
@[simp] theorem replan_host (ts : List HostTask) : (s.replan ts).host = s.host.replan ts := rfl
@[simp] theorem replan_sched (ts : List HostTask) : (s.replan ts).sched = s.sched := rfl

@[simp] theorem hostAccepted_cfg : s.hostAccepted.cfg = s.cfg := rfl
@[simp] theorem hostAccepted_h : s.hostAccepted.h = s.h := rfl
@[simp] theorem hostAccepted_l : s.hostAccepted.l = s.l := rfl
@[simp] theorem hostAccepted_chg : s.hostAccepted.chg = s.chg := rfl
@[simp] theorem hostAccepted_mem : s.hostAccepted.mem = s.mem := rfl
@[simp] theorem hostAccepted_line : s.hostAccepted.line = s.line := rfl
@[simp] theorem hostAccepted_host : s.hostAccepted.host = s.host.accepted := rfl
@[simp] theorem hostAccepted_sched : s.hostAccepted.sched = s.sched := rfl

end

section

variable (a b : Bool) (s : State)

@[simp] theorem finishH_cfg : (s.finishH a b).cfg = s.cfg := rfl
@[simp] theorem finishH_h : (s.finishH a b).h =
    { s.h with txRsync := shiftIn (sample a s.l.txR.gray s.chg.txR) s.h.txRsync, rxWsync := shiftIn (sample b s.l.rxW.gray s.chg.rxW) s.h.rxWsync, tickCnt := (s.h.tickCnt + 1) % s.cfg.tickDiv } := rfl
@[simp] theorem finishH_l : (s.finishH a b).l = s.l := rfl
@[simp] theorem finishH_chg : (s.finishH a b).chg =
    { s.chg with txR := s.chg.txR.settle, rxW := s.chg.rxW.settle } := rfl
@[simp] theorem finishH_mem : (s.finishH a b).mem = s.mem := rfl
@[simp] theorem finishH_line : (s.finishH a b).line = s.line := rfl
@[simp] theorem finishH_host : (s.finishH a b).host = s.host := rfl
@[simp] theorem finishH_sched : (s.finishH a b).sched = s.sched := rfl

end

/-! `setInit`, `reserve` and `takeEvent` choose between states, so their lemmas split once. -/

section

variable (s : State)


@[simp] theorem setInit_cfg : s.setInit.cfg = s.cfg := by unfold State.setInit; split <;> rfl
@[simp] theorem setInit_l : s.setInit.l = s.l := by unfold State.setInit; split <;> rfl
@[simp] theorem setInit_mem : s.setInit.mem = s.mem := by unfold State.setInit; split <;> rfl
@[simp] theorem setInit_line : s.setInit.line = s.line := by unfold State.setInit; split <;> rfl
@[simp] theorem setInit_host : s.setInit.host = s.host := by unfold State.setInit; split <;> rfl
@[simp] theorem setInit_sched : s.setInit.sched = s.sched := by unfold State.setInit; split <;> rfl

@[simp] theorem setInit_h : s.setInit.h = { s.h with init := true } := by
  unfold State.setInit
  split
  next hi => rw [← hi]
  next => rfl

@[simp] theorem setInit_chg :
    s.setInit.chg = { s.chg with init := if s.h.init then s.chg.init else ⟨false, true⟩ } := by
  unfold State.setInit
  split <;> rfl

@[simp] theorem reserve_cfg : s.reserve.cfg = s.cfg := by
  unfold State.reserve
  split
  · rfl
  · split <;> rfl

@[simp] theorem reserve_h : s.reserve.h = s.h := by
  unfold State.reserve
  split
  · rfl
  · split <;> rfl

@[simp] theorem reserve_chg : s.reserve.chg = s.chg := by
  unfold State.reserve
  split
  · rfl
  · split <;> rfl

@[simp] theorem reserve_mem : s.reserve.mem = s.mem := by
  unfold State.reserve
  split
  · rfl
  · split <;> rfl

@[simp] theorem reserve_line : s.reserve.line = s.line := by
  unfold State.reserve
  split
  · rfl
  · split <;> rfl

@[simp] theorem reserve_host : s.reserve.host = s.host := by
  unfold State.reserve
  split
  · rfl
  · split <;> rfl

@[simp] theorem reserve_sched : s.reserve.sched = s.sched := by
  unfold State.reserve
  split
  · rfl
  · split <;> rfl

@[simp] theorem takeEvent_cfg : s.takeEvent.cfg = s.cfg := by unfold State.takeEvent; split <;> rfl
@[simp] theorem takeEvent_h : s.takeEvent.h = s.h := by unfold State.takeEvent; split <;> rfl
@[simp] theorem takeEvent_l : s.takeEvent.l = s.l := by unfold State.takeEvent; split <;> rfl
@[simp] theorem takeEvent_chg : s.takeEvent.chg = s.chg := by unfold State.takeEvent; split <;> rfl
@[simp] theorem takeEvent_mem : s.takeEvent.mem = s.mem := by unfold State.takeEvent; split <;> rfl
@[simp] theorem takeEvent_line : s.takeEvent.line = s.line := by unfold State.takeEvent; split <;> rfl
@[simp] theorem takeEvent_host : s.takeEvent.host = s.host := by unfold State.takeEvent; split <;> rfl

theorem nextEvent_cons {s : State} {e : Event} {es : List Event} (h : s.sched.events = e :: es) :
    s.nextEvent = e := by simp [State.nextEvent, h]

theorem takeEvent_cons {s : State} {e : Event} {es : List Event} (h : s.sched.events = e :: es) :
    s.takeEvent = { s with sched := { s.sched with events := es } } := by simp [State.takeEvent, h]

end

/-! HostEnv's counts and log (R31, R46, R313). -/

section

variable (e : HostEnv) (rsp : Word)

@[simp] theorem accepted_issued : e.accepted.issued = e.issued + 1 := by unfold HostEnv.accepted; dsimp only; split <;> rfl
@[simp] theorem accepted_unanswered : e.accepted.unanswered = e.unanswered + 1 := by
  unfold HostEnv.accepted; dsimp only; split <;> rfl
@[simp] theorem accepted_log : e.accepted.log = e.log := by unfold HostEnv.accepted; dsimp only; split <;> rfl

@[simp] theorem finalBeat_issued : (e.finalBeat rsp).issued = e.issued := by unfold HostEnv.finalBeat; dsimp only; split <;> rfl
@[simp] theorem finalBeat_unanswered : (e.finalBeat rsp).unanswered = e.unanswered - 1 := by
  unfold HostEnv.finalBeat; dsimp only; split <;> rfl
@[simp] theorem finalBeat_log : (e.finalBeat rsp).log = e.log := by unfold HostEnv.finalBeat; dsimp only; split <;> rfl

/-- Before its acceptance a command leaves no trace when the host takes it back (R312). -/
theorem replan_replan_of_not_awaiting (ts us : List HostTask) (h : e.awaiting = false) :
    (e.replan ts).replan us = e.replan us := by simp [HostEnv.replan, h]

@[simp] theorem sampleRsp_none : e.sampleRsp false rsp = e := rfl
@[simp] theorem sampleRsp_log : (e.sampleRsp true rsp).log = e.log ++ [rsp] := by
  by_cases h : rspKind rsp = kindCode .final <;> simp [HostEnv.sampleRsp, h]
@[simp] theorem sampleRsp_issued (valid : Bool) : (e.sampleRsp valid rsp).issued = e.issued := by
  unfold HostEnv.sampleRsp
  split
  · rfl
  · dsimp only
    split <;> simp

end

end Sys2Proof.Machine
end

