-- ==== Sys2Proof/Laws/Sequencer.lean ====
section
/-! SUPPORT. What the command operations can do, said once each: the arms of `exec`, acceptance, the WAIT step, the UNTIL
step (spec/40_host_commands.md R174, R175, R197, R199). -/

namespace Sys2Proof.Machine

/-- `mapNext` goes on exactly where its argument does. -/
theorem mapNext_next {f : State → State} {o : Host.Outcome State Fault Refusal} {t : State} :
    mapNext f o = .next t ↔ ∃ u, o = .next u ∧ f u = t := by
  cases o <;> simp [mapNext]

/-- Acceptance of a waiting command before INIT (R174). -/
theorem acceptWaiting_uninit (op : WaitOp) (nb : Bool) (b : Byte) (cap : Half) {s : State} (h : s.h.init = false) :
    acceptWaiting op nb b cap s = s.respond .fail .final .uninit 0 0 := by simp [acceptWaiting, h]

/-- Acceptance with the condition true: the attempt succeeds (R174). -/
theorem acceptWaiting_ready {op : WaitOp} (nb : Bool) (b : Byte) (cap : Half) {s : State} (h : s.h.init = true)
    (hc : condition op s = true) :
    acceptWaiting op nb b cap s = act op ⟨b, cap, 0, false⟩ (effTimeout s.cfg op nb) (s.latch op b cap) := by
  simp [acceptWaiting, h, hc]

/-- Acceptance with the condition false and T = 0: FAIL/TIMEOUT at once (R174). -/
theorem acceptWaiting_noTime {op : WaitOp} {nb : Bool} (b : Byte) (cap : Half) {s : State} (h : s.h.init = true)
    (hc : condition op s = false) (ht : effTimeout s.cfg op nb = 0) :
    acceptWaiting op nb b cap s = (s.latch op b cap).respond .fail .final .timeout 0 0 := by
  simp [acceptWaiting, h, hc, ht]

/-- Acceptance with the condition false and T > 0: WAIT (R174). -/
theorem acceptWaiting_wait {op : WaitOp} {nb : Bool} (b : Byte) (cap : Half) {s : State} (h : s.h.init = true)
    (hc : condition op s = false) (ht : effTimeout s.cfg op nb ≠ 0) :
    acceptWaiting op nb b cap s =
      { s.latch op b cap with
        h := { (s.latch op b cap).h with timeLeft := effTimeout s.cfg op nb, seq := .wait } } := by
  simp [acceptWaiting, h, hc, ht]

/-- Every case of the WAIT step (R175). -/
theorem waitFor_cases (op : WaitOp) (s : State) :
    (condition op s = true ∧ waitFor op s = act op s.latchedOps s.h.timeLeft s) ∨
    (condition op s = false ∧ s.h.timeLeft = 0 ∧ waitFor op s = (s.respond .fail .final .timeout 0 0).setSeq .idle) ∨
    (condition op s = false ∧ s.h.timeLeft ≠ 0 ∧ s.tick = true ∧ s.h.timeLeft ≠ s.cfg.inf ∧
      waitFor op s = { s with h := { s.h with timeLeft := s.h.timeLeft - 1 } }) ∨
    (condition op s = false ∧ s.h.timeLeft ≠ 0 ∧ (s.tick = false ∨ s.h.timeLeft = s.cfg.inf) ∧ waitFor op s = s) := by
  unfold waitFor
  split
  next h => exact .inl ⟨h, rfl⟩
  next h =>
    have h : condition op s = false := by simpa using h
    split
    next ht => exact .inr (.inl ⟨h, ht, rfl⟩)
    next ht =>
      split
      next hk => exact .inr (.inr (.inl ⟨h, ht, by simp_all, by simp_all, rfl⟩))
      next hk =>
        refine .inr (.inr (.inr ⟨h, ht, ?_, rfl⟩))
        cases hs : s.tick with
        | false => exact .inl rfl
        | true => exact .inr (by simpa [hs] using hk)

/-- The WAIT step goes on exactly when `h_op` holds a waiting command (R175). -/
theorem waitStep_next {s t : State} :
    waitStep s = .next t ↔ ∃ op, waitOpOf s.h.op = some op ∧ waitFor op s = t := by
  unfold waitStep
  cases waitOpOf s.h.op <;> simp

@[simp] theorem waitOpOf_waitOpCode (op : WaitOp) : waitOpOf (waitOpCode op) = some op := by cases op <;> rfl

theorem waitOpOf_some {c : BitVec 4} {op : WaitOp} (h : waitOpOf c = some op) : c = waitOpCode op := by
  unfold waitOpOf at h
  split at h
  next hc => cases h; exact hc
  next =>
    split at h
    next hc => cases h; exact hc
    next =>
      split at h
      next hc => cases h; exact hc
      next => cases h

/-- What handling a data entry of READU does (R197): copy, stop, or discard. -/
theorem copyByte_cases (ops : Operands) (d : Byte) (s : State) :
    ((ops.stop = true ∨ copyLimit s.cfg ops.cap ≤ ops.copied.toNat) ∧ copyByte ops d s = s) ∨
    (ops.stop = false ∧ ops.copied.toNat < copyLimit s.cfg ops.cap ∧ d = ops.b ∧
      copyByte ops d s = { s with h := { s.h with stop := true } }) ∨
    (ops.stop = false ∧ ops.copied.toNat < copyLimit s.cfg ops.cap ∧ d ≠ ops.b ∧
      copyByte ops d s =
        { s with
          h := { s.h with
            rspValid := true, rspWord := rspPack .ok .data .none d ops.copied, copied := ops.copied + 1 } }) := by
  unfold copyByte
  split
  next h =>
    have hs : ops.stop = false ∧ ops.copied.toNat < copyLimit s.cfg ops.cap := by simpa using h
    split
    next hd => exact .inr (.inl ⟨hs.1, hs.2, hd, rfl⟩)
    next hd => exact .inr (.inr ⟨hs.1, hs.2, hd, rfl⟩)
  next h =>
    refine .inl ⟨?_, rfl⟩
    cases hs : ops.stop with
    | true => exact .inl rfl
    | false => exact .inr (by simpa [hs] using h)

/-- READU's handling of the head entry (R197). -/
theorem processEntry_mark (ops : Operands) {s : State} (h : Entry.mark s.rxHeadH = true) :
    processEntry ops s = (s.popRx.respond .ok .final .none 0 ops.copied).setSeq .idle := by simp [processEntry, h]

theorem processEntry_data (ops : Operands) {s : State} (h : Entry.mark s.rxHeadH = false) :
    processEntry ops s = (copyByte ops (Entry.data s.rxHeadH) s.popRx).setSeq .untilEnd := by simp [processEntry, h]

theorem actRead_mark (timeout : Nat) {s : State} (h : Entry.mark s.rxHeadH = true) :
    actRead timeout s = { s.popRx with h := { s.popRx.h with timeLeft := timeout, seq := .wait } } := by
  simp [actRead, h]

theorem actRead_data (timeout : Nat) {s : State} (h : Entry.mark s.rxHeadH = false) :
    actRead timeout s = (s.popRx.respond .ok .final .none (Entry.data s.rxHeadH) 0).setSeq .idle := by
  simp [actRead, h]

/-- What a successful attempt can do (R174): a WRITE pushes; a READ or READU pops, and answers, or goes on. -/
theorem act_cases (op : WaitOp) (ops : Operands) (timeout : Nat) (s : State) :
    (op = .write ∧ act op ops timeout s = ((s.pushTx ops.b).respond .ok .final .none 0 1).setSeq .idle) ∨
    (op = .read ∧ act op ops timeout s = actRead timeout s) ∨
    (op = .readu ∧ act op ops timeout s = processEntry ops s) := by
  cases op
  · exact .inl ⟨rfl, rfl⟩
  · exact .inr (.inl ⟨rfl, rfl⟩)
  · exact .inr (.inr ⟨rfl, rfl⟩)

/-- Latching changes nothing a condition or an attempt looks at. -/
@[simp] theorem condition_latch (c op : WaitOp) (b : Byte) (cap : Half) (s : State) :
    condition c (s.latch op b cap) = condition c s := by cases c <;> rfl

@[simp] theorem rxHeadH_latch (op : WaitOp) (b : Byte) (cap : Half) (s : State) :
    (s.latch op b cap).rxHeadH = s.rxHeadH := rfl

/-- R117's two AVAILs: once no value of `rx_wgray` is on its way, H edges alone leave `rx_empty_h` as it is (log 27). -/
theorem rxEmptyH_syncH_settled (a b : Bool) {s : State} (hf : s.chg.rxW.fresh = false)
    (hc : ∀ g ∈ s.h.rxWsync, g = s.l.rxW.gray) : (s.syncH a b).rxEmptyH = s.rxEmptyH := by
  have : shiftIn (sample b s.l.rxW.gray s.chg.rxW) s.h.rxWsync = s.h.rxWsync := by
    simpa [sample, hf] using shiftIn_settled hc
  simp [State.rxEmptyH, State.syncH, this]

/-- All AVAIL can do is answer (R186). -/
theorem execAvail_next {s t : State} (h : execAvail s = .next t) : ∃ st c, t = s.respond st .final c 0 0 := by
  unfold execAvail at h
  split at h
  · cases h; exact ⟨_, _, rfl⟩
  · split at h <;> cases h <;> exact ⟨_, _, rfl⟩

/-- AVAIL answers from `h_init` and `rx_empty_h` alone (R186). -/
theorem execAvail_answer {s v t u : State} (hi : v.h.init = s.h.init) (he : v.rxEmptyH = s.rxEmptyH)
    (ht : execAvail s = .next t) (hu : execAvail v = .next u) :
    u.h.rspValid = t.h.rspValid ∧ u.h.rspWord = t.h.rspWord := by
  unfold execAvail at ht hu
  rw [hi, he] at hu
  split at ht <;> split at hu <;> simp_all
  · subst ht hu; exact ⟨rfl, rfl⟩
  · split at ht <;> split at hu <;> simp_all <;> subst ht hu <;> exact ⟨rfl, rfl⟩

/-- R117: AVAIL has no side effect, so a second AVAIL answers as the first did. -/
theorem execAvail_again {s t u : State} (ht : execAvail s = .next t) (hu : execAvail t = .next u) :
    u.h.rspValid = t.h.rspValid ∧ u.h.rspWord = t.h.rspWord := by
  obtain ⟨st, c, rfl⟩ := execAvail_next ht
  exact execAvail_answer (s := s) rfl rfl ht hu

/-- R117's two AVAILs on consecutive H edges: they answer alike when no value of `rx_wgray` is on its way (log 27). -/
theorem execAvail_twice (a b o : Bool) {s t u : State} (hf : s.chg.rxW.fresh = false)
    (hc : ∀ g ∈ s.h.rxWsync, g = s.l.rxW.gray) (ht : execAvail s = .next t)
    (hu : execAvail (((t.finishH a b).hostTurn o).clearRsp.hostAccepted) = .next u) :
    u.h.rspValid = t.h.rspValid ∧ u.h.rspWord = t.h.rspWord := by
  obtain ⟨st, c, rfl⟩ := execAvail_next ht
  have he := rxEmptyH_syncH_settled a b hf hc
  exact execAvail_answer (s := s) (v := ((State.finishH a b (s.respond st .final c 0 0)).hostTurn o).clearRsp.hostAccepted)
    rfl he ht hu

/-- What `exec` is, by kind of command. -/
theorem exec_cases (i : Instr) (s : State) :
    (i = .init ∧ exec i s = .next (s.setInit.respond .ok .final .none 0 0)) ∨
    (i = .avail ∧ ∃ st c, exec i s = .next (s.respond st .final c 0 0)) ∨
    (∃ op nb b cap, exec i s = .next (acceptWaiting op nb b cap s) ∧
      (op = .write → i = .write b ∨ i = .writeNb b) ∧ (op = .read → i = .read ∨ i = .readNb) ∧
      (op = .readu → i = .readu b cap ∨ i = .readuNb b cap)) ∨
    (∃ c, illegalCause i = some c ∧ exec i s = .next (s.respond .illegal .final c 0 0)) := by
  cases i with
  | init => exact .inl ⟨rfl, rfl⟩
  | avail =>
    refine .inr (.inl ⟨rfl, ?_⟩)
    simp only [exec, execAvail]
    split
    · exact ⟨_, _, rfl⟩
    · split <;> exact ⟨_, _, rfl⟩
  | write b => exact .inr (.inr (.inl ⟨.write, false, b, s.portCap, rfl, by simp⟩))
  | writeNb b => exact .inr (.inr (.inl ⟨.write, true, b, s.portCap, rfl, by simp⟩))
  | read => exact .inr (.inr (.inl ⟨.read, false, s.portB, s.portCap, rfl, by simp⟩))
  | readNb => exact .inr (.inr (.inl ⟨.read, true, s.portB, s.portCap, rfl, by simp⟩))
  | readu b cap => exact .inr (.inr (.inl ⟨.readu, false, b, cap, rfl, by simp⟩))
  | readuNb b cap => exact .inr (.inr (.inl ⟨.readu, true, b, cap, rfl, by simp⟩))
  | illegalOp0 _ => exact .inr (.inr (.inr ⟨.badop, rfl, rfl⟩))
  | illegalOp67 _ _ => exact .inr (.inr (.inr ⟨.badop, rfl, rfl⟩))
  | illegalOp8F _ _ => exact .inr (.inr (.inr ⟨.badop, rfl, rfl⟩))
  | illegalRsv _ _ _ _ _ => exact .inr (.inr (.inr ⟨.rsvbits, rfl, rfl⟩))

/-- What the sequencer's action can do (R172). -/
theorem sequencer_cases {s t : State} (h : sequencer s = .next t) :
    (s.h.seq = .idle ∧ s.host.cmdValid = true ∧ exec (decode s.host.cmdWord) s.hostAccepted = .next t) ∨
    (s.h.seq = .idle ∧ s.host.cmdValid = false ∧ t = s) ∨
    (s.h.seq = .wait ∧ ∃ op, waitOpOf s.h.op = some op ∧ t = waitFor op s) ∨
    (s.h.seq = .untilEnd ∧ t = untilStep s) := by
  unfold sequencer at h
  split at h
  next hq =>
    split at h
    next hv => exact .inl ⟨hq, hv, h⟩
    next hv => exact .inr (.inl ⟨hq, by simpa using hv, by cases h; rfl⟩)
  next hq =>
    obtain ⟨op, ho, ht⟩ := waitStep_next.1 h
    exact .inr (.inr (.inl ⟨hq, op, ho, ht.symm⟩))
  next hq => exact .inr (.inr (.inr ⟨hq, by cases h; rfl⟩))

end Sys2Proof.Machine
end

