-- ==== Sys2Proof/Laws/Line.lean ====
section
/-! SUPPORT. What the L step's parts can do, said once each (spec/41_line_engines.md R227, R236, R237, R240). -/

namespace Sys2Proof.Machine

/-- The transmit step (R240): a transfer, or nothing. -/
theorem transmit_cases (txReady : Bool) (s : State) :
    (s.lInit = true ∧ s.txEmptyL = false ∧ txReady = true ∧
      s.transmit txReady = { s.popTx with line := { s.line with out := s.line.out ++ [s.txHeadL] } }) ∨
    ((s.lInit = false ∨ s.txEmptyL = true ∨ txReady = false) ∧ s.transmit txReady = s) := by
  unfold State.transmit
  split
  next h =>
    have : (s.lInit = true ∧ s.txEmptyL = false) ∧ txReady = true := by simpa [State.uartTxValid] using h
    exact .inl ⟨this.1.1, this.1.2, this.2, rfl⟩
  next h =>
    refine .inr ⟨?_, rfl⟩
    cases h1 : s.lInit <;> cases h2 : s.txEmptyL <;> cases h3 : txReady <;> simp_all [State.uartTxValid]

/-- The accumulate step when it goes on (R227). -/
theorem accumulate_cases {b : Byte} {rest : List Byte} {s t : State} (h : s.accumulate b rest = .next t) :
    s.l.fCursor < s.cfg.asmCap ∧ t.mem = { s.mem with asm := s.mem.asm.write s.l.fCursor b } ∧
    t.line = { s.line with inp := rest } ∧ t.cfg = s.cfg ∧ t.h = s.h ∧ t.chg = s.chg ∧ t.host = s.host ∧
    t.sched = s.sched ∧
    ((b = s.cfg.term ∧ t.l = { s.l with
        fLen := s.l.fCursor, fCursor := (s.l.fCursor + 1) % 2 ^ s.cfg.cw, fState := .termd }) ∨
     (b ≠ s.cfg.term ∧ s.l.fCursor + 1 = s.cfg.asmCap ∧ t.l = { s.l with
        fLen := s.cfg.asmCap, fCursor := s.cfg.asmCap, fState := .ovf }) ∨
     (b ≠ s.cfg.term ∧ s.l.fCursor + 1 ≠ s.cfg.asmCap ∧ t.l = { s.l with
        fCursor := (s.l.fCursor + 1) % 2 ^ s.cfg.cw, fState := .accum })) := by
  unfold State.accumulate at h
  split at h
  next => cases h
  next hc =>
    refine ⟨Nat.lt_of_not_le hc, ?_⟩
    split at h
    next hb => cases h; exact ⟨rfl, rfl, rfl, rfl, rfl, rfl, rfl, .inl ⟨hb, rfl⟩⟩
    next hb =>
      split at h
      next he => cases h; exact ⟨rfl, rfl, rfl, rfl, rfl, rfl, rfl, .inr (.inl ⟨hb, he, rfl⟩)⟩
      next he => cases h; exact ⟨rfl, rfl, rfl, rfl, rfl, rfl, rfl, .inr (.inr ⟨hb, he, rfl⟩)⟩

/-- The reserve phase (R236). -/
theorem reserve_cases (s : State) :
    (s.l.fLen + 1 ≤ s.rxFreeL ∧ s.reserve = { s with l := { s.l with fPub := true, fPidx := 0 } }) ∨
    (s.rxFreeL < s.l.fLen + 1 ∧ s.cfg.policy = .drop ∧
      s.reserve = { s with l := { s.l with fCursor := 0, fState := .empty } }) ∨
    (s.rxFreeL < s.l.fLen + 1 ∧ s.cfg.policy = .wait ∧ s.reserve = s) := by
  unfold State.reserve
  split
  next h => exact .inl ⟨h, rfl⟩
  next h =>
    cases hp : s.cfg.policy with
    | drop => exact .inr (.inl ⟨Nat.lt_of_not_le h, rfl, rfl⟩)
    | wait => exact .inr (.inr ⟨Nat.lt_of_not_le h, rfl, rfl⟩)

/-- The stream phase when it goes on (R237). -/
theorem stream_cases {s t : State} (h : s.stream = .next t) :
    (s.l.fPidx < s.l.fLen ∧ s.l.fPidx < s.cfg.asmCap ∧
      t = { s.pushRx (dataEntry (s.mem.asmAt s.l.fPidx)) with
        l := { (s.pushRx (dataEntry (s.mem.asmAt s.l.fPidx))).l with fPidx := (s.l.fPidx + 1) % 2 ^ s.cfg.cw } }) ∨
    (s.l.fLen ≤ s.l.fPidx ∧
      t = { s.pushRx endMarker with
        l := { (s.pushRx endMarker).l with fPub := false, fPidx := 0, fCursor := 0, fState := .empty } }) := by
  unfold State.stream at h
  split at h
  next hp =>
    split at h
    next => cases h
    next hc => cases h; exact .inl ⟨hp, Nat.lt_of_not_le hc, rfl⟩
  next hp => cases h; exact .inr ⟨Nat.le_of_not_lt hp, rfl⟩

/-- What the framing step can do (R224, R227, R236, R237). -/
theorem framing_cases {s t : State} (h : s.framing = .next t) :
    (s.lInit = true ∧ (s.l.fState = .empty ∨ s.l.fState = .accum) ∧ s.line.inp = [] ∧ t = s) ∨
    (s.lInit = true ∧ (s.l.fState = .empty ∨ s.l.fState = .accum) ∧
      ∃ b rest, s.line.inp = b :: rest ∧ s.accumulate b rest = .next t) ∨
    (s.lInit = true ∧ (s.l.fState = .termd ∨ s.l.fState = .ovf) ∧ s.l.fPub = true ∧ s.stream = .next t) ∨
    (s.lInit = true ∧ (s.l.fState = .termd ∨ s.l.fState = .ovf) ∧ s.l.fPub = false ∧ t = s.reserve) ∨
    (s.lInit = false ∧ t = s) := by
  unfold State.framing at h
  split at h
  next hr =>
    have hr : s.lInit = true ∧ (s.l.fState = .empty ∨ s.l.fState = .accum) := by
      simpa [State.uartRxReady] using hr
    split at h
    next hi => cases h; exact .inl ⟨hr.1, hr.2, hi, rfl⟩
    next b rest hi => exact .inr (.inl ⟨hr.1, hr.2, b, rest, hi, h⟩)
  next hr =>
    split at h
    next hl =>
      have hf : s.l.fState = .termd ∨ s.l.fState = .ovf := by
        cases hs : s.l.fState <;> simp_all [State.uartRxReady]
      split at h
      next hp => exact .inr (.inr (.inl ⟨hl, hf, hp, h⟩))
      next hp => cases h; exact .inr (.inr (.inr (.inl ⟨hl, hf, by simpa using hp, rfl⟩)))
    next hl => cases h; exact .inr (.inr (.inr (.inr ⟨by simpa using hl, rfl⟩)))

/-- An L edge that goes on: the transmit step, then the framing step, then the shifts (R225). -/
theorem lStep_next {r a b c : Bool} {s t : State} :
    lStep r a b c s = .next t ↔ ∃ u, (s.transmit r).framing = .next u ∧ u.syncL a b c = t := by
  unfold lStep
  exact mapNext_next

end Sys2Proof.Machine
end

