-- ==== Sys2Proof/Laws/Memory.lean ====
section
/-! SUPPORT. The laws of the storage arrays: read after write, and the canonical form every write keeps. -/

namespace Sys2Proof.Machine

variable {w : Nat}

@[simp] theorem memory_read_nil (i : Nat) : Memory.read ([] : Memory w) i = none := rfl

/-- A read after a write: the value written at its index, and what was there at every other. -/
theorem memory_read_write (m : Memory w) (i k : Nat) (v : BitVec w) :
    Memory.read (Memory.write m i v) k = if k = i then some v else Memory.read m k := by
  induction m with
  | nil => simp [Memory.write, Memory.read]
  | cons p m ih =>
    obtain ⟨j, x⟩ := p
    by_cases h1 : i < j
    · simp [Memory.write, Memory.read, h1]
    · by_cases h2 : i = j
      · subst h2
        by_cases hk : k = i <;> simp [Memory.write, Memory.read, hk]
      · by_cases hk : k = j
        · subst hk
          simp [Memory.write, Memory.read, h1, h2, Ne.symm h2]
        · simp [Memory.write, Memory.read, h1, h2, hk, ih]

@[simp] theorem memory_read_write_same (m : Memory w) (i : Nat) (v : BitVec w) :
    Memory.read (Memory.write m i v) i = some v := by simp [memory_read_write]

theorem memory_read_write_other (m : Memory w) {i k : Nat} (v : BitVec w) (h : k ≠ i) :
    Memory.read (Memory.write m i v) k = Memory.read m k := by simp [memory_read_write, h]

/-- Every entry of a written array was there before or is the one written. -/
theorem mem_of_mem_memory_write {m : Memory w} {i : Nat} {v : BitVec w} {p : Nat × BitVec w}
    (h : p ∈ Memory.write m i v) : p = (i, v) ∨ p ∈ m := by
  induction m with
  | nil => simpa [Memory.write] using h
  | cons q m ih =>
    obtain ⟨j, x⟩ := q
    unfold Memory.write at h
    split at h
    · simpa using h
    · split at h
      · rcases List.mem_cons.1 h with h | h
        · exact .inl h
        · exact .inr (List.mem_cons_of_mem _ h)
      · rcases List.mem_cons.1 h with h | h
        · exact .inr (h ▸ List.mem_cons_self)
        · exact (ih h).imp_right (List.mem_cons_of_mem _)

/-- A write keeps the canonical form. -/
theorem memory_write_wf {m : Memory w} (h : Memory.wf m) (i : Nat) (v : BitVec w) :
    Memory.wf (Memory.write m i v) := by
  induction m with
  | nil => simp [Memory.write, Memory.wf]
  | cons q m ih =>
    obtain ⟨j, x⟩ := q
    obtain ⟨hq, hm⟩ := List.pairwise_cons.1 h
    unfold Memory.write
    split
    next hlt =>
      refine List.pairwise_cons.2 ⟨fun p hp => ?_, h⟩
      rcases List.mem_cons.1 hp with rfl | hp
      · exact hlt
      · exact Nat.lt_trans hlt (hq p hp)
    next hge =>
      split
      next heq => exact List.pairwise_cons.2 ⟨fun p hp => heq ▸ hq p hp, hm⟩
      next hne =>
        refine List.pairwise_cons.2 ⟨fun p hp => ?_, ih hm⟩
        rcases mem_of_mem_memory_write hp with rfl | hp
        · show j < i
          omega
        · exact hq p hp

/-- A write inside the bounds keeps every index inside them. -/
theorem memory_write_bound {m : Memory w} {n i : Nat} {v : BitVec w} (h : ∀ p ∈ m, p.1 < n) (hi : i < n) :
    ∀ p ∈ Memory.write m i v, p.1 < n := by
  intro p hp
  rcases mem_of_mem_memory_write hp with rfl | hp
  · exact hi
  · exact h p hp

/-- Two canonical arrays that read alike are equal data. -/
theorem memory_ext {m n : Memory w} (hm : Memory.wf m) (hn : Memory.wf n)
    (h : ∀ i, Memory.read m i = Memory.read n i) : m = n := by
  have none_below : ∀ (l : Memory w) (i : Nat), (∀ p ∈ l, i < p.1) → Memory.read l i = none := by
    intro l i hl
    induction l with
    | nil => rfl
    | cons p l ih =>
      have := hl p List.mem_cons_self
      simp [Memory.read, Nat.ne_of_lt this, ih fun q hq => hl q (List.mem_cons_of_mem _ hq)]
  induction m generalizing n with
  | nil =>
    cases n with
    | nil => rfl
    | cons q n => simpa [Memory.read] using h q.1
  | cons p m ih =>
    cases n with
    | nil => simpa [Memory.read] using h p.1
    | cons q n =>
      obtain ⟨hp, hm'⟩ := List.pairwise_cons.1 hm
      obtain ⟨hq, hn'⟩ := List.pairwise_cons.1 hn
      have hk : p.1 = q.1 := by
        rcases Nat.lt_trichotomy p.1 q.1 with hlt | heq | hgt
        · have := h p.1
          rw [none_below (q :: n) p.1 (by
            intro r hr
            rcases List.mem_cons.1 hr with rfl | hr
            · exact hlt
            · exact Nat.lt_trans hlt (hq r hr))] at this
          simp [Memory.read] at this
        · exact heq
        · have := h q.1
          rw [none_below (p :: m) q.1 (by
            intro r hr
            rcases List.mem_cons.1 hr with rfl | hr
            · exact hgt
            · exact Nat.lt_trans hgt (hp r hr))] at this
          simp [Memory.read] at this
      have hv : p.2 = q.2 := by simpa [Memory.read, hk] using h p.1
      have hpq : p = q := Prod.ext hk hv
      subst hpq
      rw [ih hm' hn' fun i => ?_]
      by_cases hi : i = p.1
      · rw [none_below m i fun r hr => hi ▸ hp r hr, none_below n i fun r hr => hi ▸ hq r hr]
      · simpa [Memory.read, hi] using h i

/-- The arrays right after reset are canonical. -/
theorem reset_memory_wf (c : Config) :
    Memory.wf (State.resetWith c).mem.tx ∧ Memory.wf (State.resetWith c).mem.rx ∧
      Memory.wf (State.resetWith c).mem.asm := by simp [State.resetWith, Memory.wf]

end Sys2Proof.Machine
end

