-- ==== Sys2Proof/Laws/PerInstr.lean ====
section
/-! SUPPORT. One lemma per command: the word it encodes to lies in its row of spec/opcode_table.json. -/

/-- The word of `i` has its table row's match bits under the row's mask. The RSVBITS row, the table's catch-all, is met
by a word of a legal OP whose RSV is not 0. -/
def Sys2Proof.Laws.TableRow.Statement (i : Sys2Proof.Instr) : Prop :=
  i.wf = true →
    match i with
    | .init => Sys2Proof.encode i &&& 0xF7000000#32 = 0x10000000#32
    | .write _ => Sys2Proof.encode i &&& 0xFF000000#32 = 0x20000000#32
    | .writeNb _ => Sys2Proof.encode i &&& 0xFF000000#32 = 0x28000000#32
    | .avail => Sys2Proof.encode i &&& 0xF7000000#32 = 0x30000000#32
    | .read => Sys2Proof.encode i &&& 0xFF000000#32 = 0x40000000#32
    | .readNb => Sys2Proof.encode i &&& 0xFF000000#32 = 0x48000000#32
    | .readu _ _ => Sys2Proof.encode i &&& 0xFF000000#32 = 0x50000000#32
    | .readuNb _ _ => Sys2Proof.encode i &&& 0xFF000000#32 = 0x58000000#32
    | .illegalOp0 _ => Sys2Proof.encode i &&& 0xF0000000#32 = 0x00000000#32
    | .illegalOp67 _ _ => Sys2Proof.encode i &&& 0xE0000000#32 = 0x60000000#32
    | .illegalOp8F _ _ => Sys2Proof.encode i &&& 0x80000000#32 = 0x80000000#32
    | .illegalRsv op _ rsv _ _ =>
      Sys2Proof.fieldOp (Sys2Proof.encode i) = op ∧ Sys2Proof.fieldRsv (Sys2Proof.encode i) = rsv

namespace Sys2Proof.Laws.TableRow

open Sys2Proof

theorem init : Statement .init := fun _ => by decide

theorem write (b : Byte) : Statement (.write b) := fun _ => (packWord_top 2 false 0 0 b).trans (by decide)

theorem writeNb (b : Byte) : Statement (.writeNb b) := fun _ => (packWord_top 2 true 0 0 b).trans (by decide)

theorem avail : Statement .avail := fun _ => by decide

theorem read : Statement .read := fun _ => by decide

theorem readNb : Statement .readNb := fun _ => by decide

theorem readu (term : Byte) (cap : Half) : Statement (.readu term cap) :=
  fun _ => (packWord_top 5 false 0 cap term).trans (by decide)

theorem readuNb (term : Byte) (cap : Half) : Statement (.readuNb term cap) :=
  fun _ => (packWord_top 5 true 0 cap term).trans (by decide)

theorem illegalOp0 (rest : BitVec 28) : Statement (.illegalOp0 rest) :=
  fun _ => (append_top 0 rest).trans (by decide)

theorem illegalOp67 (op : BitVec 4) (rest : BitVec 28) : Statement (.illegalOp67 op rest) := by
  intro h
  have hm : (0xE0000000#32) = 0xF0000000#32 &&& 0xE0000000#32 := by decide
  have ho : op = 6#4 ∨ op = 7#4 := by simpa [Instr.wf] using h
  show (op ++ rest : Word) &&& 0xE0000000#32 = _
  rw [hm, ← BitVec.and_assoc, append_top]
  rcases ho with rfl | rfl <;> decide

theorem illegalOp8F (op : BitVec 4) (rest : BitVec 28) : Statement (.illegalOp8F op rest) := by
  intro h
  have hm : (0x80000000#32) = 0xF0000000#32 &&& 0x80000000#32 := by decide
  have key : ∀ o : BitVec 4, 8 ≤ o.toNat → (o ++ 0#28 : Word) &&& 0x80000000#32 = 0x80000000#32 := by decide
  show (op ++ rest : Word) &&& 0x80000000#32 = _
  rw [hm, ← BitVec.and_assoc, append_top]
  exact key op (by simpa [Instr.wf] using h)

theorem illegalRsv (op : BitVec 4) (nb : Bool) (rsv : BitVec 3) (cap : Half) (b : Byte) :
    Statement (.illegalRsv op nb rsv cap b) :=
  fun _ => ⟨fieldOp_packWord op nb rsv cap b, fieldRsv_packWord op nb rsv cap b⟩

end Sys2Proof.Laws.TableRow
end

