-- ==== Sys2Proof/Laws/Step.lean ====
section
/-! SUPPORT. What one step can do (spec/00_scope.md R13, R14; spec/70_reset_and_hazards.md R290, R291). -/

namespace Sys2Proof.Machine

/-- An H edge that goes on: HostEnv's turn, the sequencer, then the shifts and the prescaler (R170). -/
theorem hStep_next {o a b : Bool} {s t : State} :
    hStep o a b s = .next t ↔ ∃ u, sequencer (s.hostTurn o).clearRsp = .next u ∧ u.finishH a b = t := by
  unfold hStep
  exact mapNext_next

/-- A step that goes on: the configuration is legal, and one event of those that go on happened. -/
theorem step_cases {s t : State} (h : step s = .next t) :
    s.cfg.legal = true ∧
    ((∃ o a b, s.nextEvent = .h o a b ∧ hStep o a b s.takeEvent = .next t) ∨
     (∃ r a b c, s.nextEvent = .l r a b c ∧ lStep r a b c s.takeEvent = .next t) ∨
     (∃ ts, s.nextEvent = .plan ts ∧ t = s.takeEvent.replan ts) ∨
     (∃ bs, s.nextEvent = .rx bs ∧ t = s.takeEvent.receive bs) ∨
     (s.nextEvent = .reset ∧ t = s.takeEvent.applyReset)) := by
  unfold step stepRun at h
  split at h
  next hl =>
    refine ⟨hl, ?_⟩
    cases he : s.nextEvent with
    | h o a b => exact .inl ⟨o, a, b, rfl, by simpa [he, runEvent] using h⟩
    | l r a b c => exact .inr (.inl ⟨r, a, b, c, rfl, by simpa [he, runEvent] using h⟩)
    | plan ts =>
      rw [he] at h
      exact .inr (.inr (.inl ⟨ts, rfl, by cases h; rfl⟩))
    | rx bs =>
      rw [he] at h
      exact .inr (.inr (.inr (.inl ⟨bs, rfl, by cases h; rfl⟩)))
    | reset =>
      rw [he] at h
      exact .inr (.inr (.inr (.inr ⟨rfl, by cases h; rfl⟩)))
    | resetHOnly => rw [he] at h; cases h
    | resetLOnly => rw [he] at h; cases h
  next => cases h

/-- A step whose next event is lined up. -/
theorem step_cons {s : State} {e : Event} {es : List Event} (hl : s.cfg.legal = true)
    (he : s.sched.events = e :: es) :
    step s = runEvent e { s with sched := { s.sched with events := es } } := by
  simp [step, stepRun, hl, nextEvent_cons he, takeEvent_cons he]

end Sys2Proof.Machine
end

