-- ==== Sys2Proof/Machine/Assembler.lean ====
section
/-! DEFINITION. The assembler: from a line of text to what HostEnv runs (spec/30_encoding.md R146 to R151). Text is a
list of characters. Spaces and tabs separate tokens; a quoted character is one token, `';'` too (log 25). -/

namespace Sys2Proof.Machine

/-- A token of a line. -/
inductive Token where
  | name (cs : List Char)
  | num (n : Nat)
  | comma
  deriving DecidableEq, Repr

/-- A digit's value in a base, with letters for the digits above 9. -/
def digitValue (base : Nat) (c : Char) : Option Nat :=
  let n := c.toNat
  let v := if 48 ≤ n ∧ n ≤ 57 then n - 48 else if 97 ≤ n ∧ n ≤ 102 then n - 87 else base
  if v < base then some v else none

/-- The digits of a number; underscores only group them (spec/00_scope.md R16). -/
def digits (base : Nat) : List Char → Nat → Option Nat
  | [], acc => some acc
  | c :: cs, acc =>
    if c = '_' then digits base cs acc
    else match digitValue base c with
      | some d => digits base cs (acc * base + d)
      | none => none

/-- A number: decimal, `0x` hexadecimal or `0b` binary (R146). -/
def numeral : List Char → Option Nat
  | '0' :: 'x' :: c :: cs => digits 16 (c :: cs) 0
  | '0' :: 'b' :: c :: cs => digits 2 (c :: cs) 0
  | cs => digits 10 cs 0

/-- Mnemonics are case-insensitive (R146). -/
def lowerChar (c : Char) : Char :=
  if 65 ≤ c.toNat ∧ c.toNat ≤ 90 then Char.ofNat (c.toNat + 32) else c

/-- The token of a run of characters, given in reverse; none for an empty run. -/
def wordToken (rev : List Char) : Option (List Token) :=
  match rev.reverse with
  | [] => some []
  | c :: cs =>
    if 48 ≤ c.toNat ∧ c.toNat ≤ 57 then (numeral (c :: cs)).map fun n => [.num n]
    else some [.name (c :: cs)]

/-- The tokens of a line; `;` starts a comment (R146). `rev` is the run of characters being read, in reverse. -/
def lex (rev : List Char) : List Char → Option (List Token)
  | [] => wordToken rev
  | ';' :: _ => wordToken rev
  | '\'' :: c :: '\'' :: cs =>
    (wordToken rev).bind fun ts => (lex [] cs).map fun us => ts ++ .num c.toNat :: us
  | c :: cs =>
    if c = ' ' ∨ c = '\t' then (wordToken rev).bind fun ts => (lex [] cs).map fun us => ts ++ us
    else if c = ',' then (wordToken rev).bind fun ts => (lex [] cs).map fun us => ts ++ .comma :: us
    else lex (lowerChar c :: rev) cs

/-- A number that fits a field of `w` bits (R146). -/
def fit (w n : Nat) : Option (BitVec w) := if n < 2 ^ w then some (BitVec.ofNat w n) else none

/-- A comma-separated list of bytes, each a number 0 to 255; `more` says that a comma was just read. -/
def byteList (more : Bool) : List Token → Option (List Byte)
  | [] => if more then none else some []
  | [.num n] => (fit 8 n).map fun b => [b]
  | .num n :: .comma :: ts => (fit 8 n).bind fun b => (byteList true ts).map fun bs => b :: bs
  | _ => none

/-- One command word as a task. -/
def command (i : Instr) : Option (List HostTask) := some [.word (encode i)]

/-- A line of tokens (R146, R148 to R151). Each mnemonic is spelt in lower case. An empty line is no command. -/
def parseLine (c : Config) : List Token → Option (List HostTask)
  | [] => some []
  | .name ['.', 'w', 'o', 'r', 'd'] :: [.num n] => (fit 32 n).map fun w => [.word w]
  | .name ['i', 'n', 'i', 't'] :: [] => command .init
  | .name ['w', 'r', 'i', 't', 'e'] :: [.num n] => (fit 8 n).bind fun b => command (.write b)
  | .name ['w', 'r', 'i', 't', 'e', '.', 'n', 'b'] :: [.num n] => (fit 8 n).bind fun b => command (.writeNb b)
  | .name ['a', 'v', 'a', 'i', 'l'] :: [] => command .avail
  | .name ['r', 'e', 'a', 'd'] :: [] => command .read
  | .name ['r', 'e', 'a', 'd', '.', 'n', 'b'] :: [] => command .readNb
  | .name ['r', 'e', 'a', 'd', 'u'] :: [.num t, .comma, .num n] =>
    (fit 8 t).bind fun term => (fit 16 n).bind fun cap => command (.readu term cap)
  | .name ['r', 'e', 'a', 'd', 'u', '.', 'n', 'b'] :: [.num t, .comma, .num n] =>
    (fit 8 t).bind fun term => (fit 16 n).bind fun cap => command (.readuNb term cap)
  | .name ['w', 'r', 'i', 't', 'e', 'n'] :: ts => (byteList false ts).map (pseudoWriten false)
  | .name ['w', 'r', 'i', 't', 'e', 'n', '.', 'n', 'b'] :: ts => (byteList false ts).map (pseudoWriten true)
  | .name ['d', 'r', 'a', 'i', 'n'] :: [] => some pseudoDrain
  | .name ['s', 'e', 'n', 'd', 'l', 'i', 'n', 'e'] :: ts => (byteList false ts).map (pseudoSendline c false)
  | .name ['s', 'e', 'n', 'd', 'l', 'i', 'n', 'e', '.', 'n', 'b'] :: ts =>
    (byteList false ts).map (pseudoSendline c true)
  | .name ['q', 'u', 'e', 'r', 'y'] :: [.num n] => (fit 16 n).map fun cap => pseudoQuery c cap []
  | .name ['q', 'u', 'e', 'r', 'y'] :: .num n :: .comma :: ts =>
    (fit 16 n).bind fun cap => (byteList true ts).map (pseudoQuery c cap)
  | _ => none

/-- One line of assembly text (R146). -/
def assembleLine (c : Config) (cs : List Char) : Option (List HostTask) := (lex [] cs).bind (parseLine c)

/-- A text of several lines, as what HostEnv runs in order. -/
def assemble (c : Config) : List (List Char) → Option (List HostTask)
  | [] => some []
  | l :: ls => (assembleLine c l).bind fun ts => (assemble c ls).map fun us => ts ++ us

/-- The state with a list of tasks given to HostEnv (R31, R311). -/
def State.loadTasks (ts : List HostTask) (s : State) : State :=
  { s with host := { s.host with todo := s.host.todo ++ ts } }

end Sys2Proof.Machine
end

