-- ==== Sys2Proof/Tests/Slice0.lean ====
section
/-! SUPPORT. The model's own tests, with expected values from spec/95_test_vectors.md and the rules it cites, and a
witness for the hypotheses of every statement. -/

namespace Sys2Proof.Tests

open Sys2Proof Sys2Proof.Machine

/-! ### Small states -/

/-- `p` holds of the state the outcome goes on to. -/
def holds (o : Host.Outcome State Fault Refusal) (p : State → Bool) : Bool :=
  match o with
  | .next t => p t
  | .fault _ => false
  | .refused _ => false

theorem next_of_holds {o : Host.Outcome State Fault Refusal} {p : State → Bool} (h : holds o p = true) :
    ∃ t, o = .next t ∧ p t = true := by
  cases o with
  | next t => exact ⟨t, rfl, h⟩
  | fault r => simp [holds] at h
  | refused r => simp [holds] at h

/-- Indices from `n` on. -/
def cellsFrom {α : Type} : Nat → List α → List (Nat × α)
  | _, [] => []
  | n, x :: xs => (n, x) :: cellsFrom (n + 1) xs

/-- Configuration P after INIT, both sides initialised. -/
def ready : State :=
  { State.reset with
    h := { State.reset.h with init := true }
    l := { State.reset.l with initSync := [true, true] } }

/-- `s` with these bytes in TX, seen by both sides. -/
def withTx (bs : List Byte) (s : State) : State :=
  { s with
    h := { s.h with txW := ⟨bs.length, b2g bs.length⟩ }
    l := { s.l with txWsync := [b2g bs.length, b2g bs.length] }
    mem := { s.mem with tx := cellsFrom 0 bs } }

/-- `s` with these entries in RX, seen by both sides. -/
def withRx (es : List Entry) (s : State) : State :=
  { s with
    l := { s.l with rxW := ⟨es.length, b2g es.length⟩ }
    h := { s.h with rxWsync := [b2g es.length, b2g es.length] }
    mem := { s.mem with rx := cellsFrom 0 es } }

/-- `s` with these events lined up. -/
def withEvents (es : List Event) (s : State) : State := { s with sched := { s.sched with events := es } }

/-- `s` with the pending command's state. -/
def pending (seq : SeqState) (op : BitVec 4) (byte : Byte) (cap : Half) (timeLeft : Nat) (s : State) : State :=
  { s with h := { s.h with seq := seq, op := op, byte := byte, cap := cap, timeLeft := timeLeft } }

/-- `s` with its framing buffer holding `bs`. -/
def framed (fs : FrameState) (cursor len : Nat) (bs : List Byte) (s : State) : State :=
  { s with
    l := { s.l with fState := fs, fCursor := cursor, fLen := len }
    mem := { s.mem with asm := cellsFrom 0 bs } }

/-- `s` with a publish under way. -/
def publishing (pidx : Nat) (s : State) : State := { s with l := { s.l with fPub := true, fPidx := pidx } }

/-- A full TX. -/
def txFull : State := withTx [0x61, 0x62, 0x63, 0x64] ready

/-- RX with the frame "AB". -/
def rxAB : State := withRx [0x041, 0x042, 0x100] ready

/-- A state in which every part is busy: a byte in TX, a frame in RX, a READU past its first entry, a line half in. -/
def busy : State :=
  framed .accum 1 0 [0x45] (withTx [0x61] (withRx [0x041, 0x042, 0x100] (pending .untilEnd 5 0x0D 32 2 ready)))

/-- One H edge, one L edge, both with the newest values. -/
def edgeH : Event := .h true true true
def edgeL : Event := .l true true true true

/-- `s` under other parameters. -/
def under (c : Config) (s : State) : State := { s with cfg := c }

/-- The reset state after INIT's acceptance. -/
def afterInit : State :=
  { State.reset with
    h := { State.reset.h with init := true, rspValid := true, rspWord := 0x0000_0001 }
    chg := { State.reset.chg with init := ⟨false, true⟩ } }

/-! ### Well-formedness -/

theorem test_op67_refuses_other_opcodes : (Instr.illegalOp67 5 0).wf = false := by decide
theorem test_op8F_refuses_low_opcodes : (Instr.illegalOp8F 7 0).wf = false := by decide
theorem test_rsv_refuses_rsv_zero : (Instr.illegalRsv 1 false 0 0 0).wf = false := by decide
theorem test_rsv_refuses_opcode_zero : (Instr.illegalRsv 0 false 1 0 0).wf = false := by decide
theorem test_rsv_refuses_opcode_six : (Instr.illegalRsv 6 false 1 0 0).wf = false := by decide

/-! ### Encoding: each word written out from R130, OP_NB_RSV_CAP_B -/

/-- 95_test_vectors.md 2.4. -/
theorem test_decode_init :
    decode 0b0001_0_000_0000000000000000_00000000#32 = .init ∧
    decode 0b0001_1_000_1111111111111111_11111111#32 = .init := by decide

theorem test_decode_write :
    decode 0b0010_0_000_0000000000000000_00100011#32 = .write 0x23 ∧
    decode 0b0010_1_000_0000000011111111_01000001#32 = .writeNb 0x41 := by decide

theorem test_decode_avail : decode 0b0011_1_000_0000000010101011_11001101#32 = .avail := by decide

theorem test_decode_read :
    decode 0b0100_0_000_0000000011111111_00000000#32 = .read ∧
    decode 0b0100_1_000_0000000000000000_00000000#32 = .readNb := by decide

theorem test_decode_readu :
    decode 0b0101_0_000_1111111111111111_01000010#32 = .readu 0x42 65535 ∧
    decode 0b0101_1_000_0000000000100000_00001101#32 = .readuNb 0x0D 32 := by decide

theorem test_decode_illegal_op0 : decode 0b0000_1_111_0000000000000000_00000000#32 = .illegalOp0 0xF000000 := by decide

theorem test_decode_illegal_op67 :
    decode 0b0110_0_000_0000000000000000_00000000#32 = .illegalOp67 6 0 ∧
    decode 0b0111_1_111_1111111111111111_11111111#32 = .illegalOp67 7 0xFFFFFFF := by decide

theorem test_decode_illegal_op8F :
    decode 0b1000_0_000_0000000000000000_00000000#32 = .illegalOp8F 8 0 ∧
    decode 0b1111_0_000_0000000000000000_00000000#32 = .illegalOp8F 15 0 := by decide

theorem test_decode_illegal_rsv :
    decode 0b0001_0_111_0000000000000000_00000000#32 = .illegalRsv 1 false 7 0 0 ∧
    decode 0b0010_0_001_0000000000000000_01000001#32 = .illegalRsv 2 false 1 0 0x41 := by decide

/-- R147. -/
theorem test_encode_base_forms :
    encode .init = 0x1000_0000 ∧ encode (.write 0x23) = 0x2000_0023 ∧ encode (.writeNb 0x23) = 0x2800_0023 ∧
    encode .avail = 0x3000_0000 ∧ encode .read = 0x4000_0000 ∧ encode .readNb = 0x4800_0000 ∧
    encode (.readu 0x0D 32) = 0x5000_200D ∧ encode (.readuNb 0x0D 32) = 0x5800_200D ∧
    encode (.readu 0x0D 0) = 0x5000_000D := by decide

theorem test_decodeTableWord : decodeTableWord 32 0x2000_0023 = some (.write 0x23) ∧ decodeTableWord 40 0 = none := by
  decide

/-! ### Assembler (R146 to R151) -/

theorem test_assemble_write_char :
    assembleLine Config.p ['W', 'R', 'I', 'T', 'E', ' ', '\'', ';', '\'', ' ', ';', 'x'] =
      some [.word 0x2000_003B] := by decide

theorem test_assemble_readu :
    assembleLine Config.p ['r', 'e', 'a', 'd', 'u', '.', 'N', 'B', ' ', '0', 'x', '0', 'D', ',', ' ', '3', '2'] =
      some [.word 0x5800_200D] := by decide

theorem test_assemble_raw_word :
    assembleLine Config.p ['.', 'w', 'o', 'r', 'd', ' ', '0', 'x', '1', '8', 'F', 'F', 'F', 'F', 'F', 'F'] =
      some [.word 0x18FF_FFFF] := by decide

theorem test_assemble_byte_range :
    assembleLine Config.p ['W', 'R', 'I', 'T', 'E', ' ', '2', '5', '6'] = none := by decide

theorem test_assemble_sendline :
    assembleLine Config.p ['S', 'E', 'N', 'D', 'L', 'I', 'N', 'E', ' ', '1', ',', '0', 'b', '1', '0'] =
      some [.writen false [1, 2, 0x0D] 0] := by decide

/-! ### Response words (95_test_vectors.md 2.5) -/

theorem test_response_words :
    rspPack .ok .final .none 0 1 = 0x0001_0001 ∧ rspPack .fail .final .timeout 0 0 = 0x0000_0010 ∧
    rspPack .fail .final .uninit 0 0 = 0x0000_0020 ∧ rspPack .fail .final .none 0 0 = 0x0000_0000 ∧
    rspPack .ok .final .none 0x4F 0 = 0x0000_4F01 ∧ rspPack .ok .data .none 0x4B 1 = 0x0001_4B05 ∧
    rspPack .illegal .final .badop 0 0 = 0x0000_0032 ∧ rspPack .illegal .final .rsvbits 0 0 = 0x0000_0042 := by decide

/-! ### Gray code and flags (95_test_vectors.md 2.1, 2.2) -/

theorem test_gray_table :
    (List.range 8).map b2g = [0b000, 0b001, 0b011, 0b010, 0b110, 0b111, 0b101, 0b100] ∧
    g2b 3 0b101 = 6 ∧ g2b 4 0b1010 = 12 ∧ g2b 4 0b1100 = 8 := by decide

/-- The rows (7, S = 010) and (6, S = 111) of the TX table. -/
theorem test_tx_full_rows :
    ({ ready with h := { ready.h with txW := ⟨7, 0b100⟩, txRsync := [0, 0b010] } } : State).txFullH = true ∧
    ({ ready with h := { ready.h with txW := ⟨7, 0b100⟩, txRsync := [0, 0b010] } } : State).txFullGray = true ∧
    ({ ready with h := { ready.h with txW := ⟨6, 0b101⟩, txRsync := [0, 0b111] } } : State).txCntH = 1 := by decide

/-- The last row of the RX table: rx_wbin = 1, rx_rsync[2] = 1010. -/
theorem test_rx_free_row :
    ({ ready with l := { ready.l with rxW := ⟨1, 0b0001⟩, rxRsync := [0, 0b1010] } } : State).rxCntL = 5 ∧
    ({ ready with l := { ready.l with rxW := ⟨1, 0b0001⟩, rxRsync := [0, 0b1010] } } : State).rxFreeL = 3 := by decide

/-- 95_test_vectors.md 2.3: the draw "old" at stage 1. -/
theorem test_first_stage_draws :
    holds (hStep false true false
      { ready with l := { ready.l with rxW := ⟨1, 1⟩ }, chg := { ready.chg with rxW := ⟨0, true⟩ } })
      (fun t => t.h.rxWsync == [0, 0] && !t.chg.rxW.fresh) = true ∧
    holds (hStep false true true
      { ready with l := { ready.l with rxW := ⟨1, 1⟩ }, chg := { ready.chg with rxW := ⟨0, true⟩ } })
      (fun t => t.h.rxWsync == [1, 0] && !t.chg.rxW.fresh) = true := by decide

/-! ### One step of each command (95_test_vectors.md 2.6 to 2.10) -/

theorem test_init_from_reset :
    holds (step (State.reset.withFetchWord 32 0x1000_0000))
      (fun t => t.h.init && t.chg.init.fresh && t.h.rspValid && t.h.rspWord == 0x0000_0001) = true := by decide

theorem test_init_twice_keeps_tx :
    holds (step (txFull.withFetchWord 32 0x18FF_FFFF))
      (fun t => t.h.rspWord == 0x0000_0001 && t.h.txW == txFull.h.txW && t.chg == txFull.chg) = true := by decide

theorem test_write_pushes :
    holds (step (ready.withFetchWord 32 0x2000_0023))
      (fun t => t.mem.tx == [(0, 0x23)] && t.h.txW == ⟨1, 1⟩ && t.h.rspWord == 0x0001_0001) = true := by decide

theorem test_write_waits_when_full :
    holds (step (txFull.withFetchWord 32 0x2000_0065))
      (fun t => t.h.seq == .wait && t.h.timeLeft == 2 && !t.h.rspValid && t.h.txW == txFull.h.txW) = true := by decide

theorem test_writeNb_times_out_when_full :
    holds (step (txFull.withFetchWord 32 0x2800_0065))
      (fun t => t.h.seq == .idle && t.h.rspWord == 0x0000_0010 && t.mem == txFull.mem) = true := by decide

theorem test_avail_empty :
    holds (step (ready.withFetchWord 32 0x3000_0000)) (fun t => t.h.rspValid && t.h.rspWord == 0) = true := by decide

theorem test_avail_end_marker :
    holds (step ((withRx [0x100] ready).withFetchWord 32 0x3800_ABCD))
      (fun t => t.h.rspWord == 1 && t.h.rxR == ⟨0, 0⟩) = true := by decide

theorem test_read_byte :
    holds (step (rxAB.withFetchWord 32 0x4000_FF00))
      (fun t => t.h.rspWord == 0x0000_4101 && t.h.rxR == ⟨1, 1⟩ && t.h.cap == 0xFF) = true := by decide

theorem test_read_end_marker_waits :
    holds (step ((withRx [0x100] ready).withFetchWord 32 0x4000_0000))
      (fun t => t.h.seq == .wait && t.h.timeLeft == 2 && !t.h.rspValid && t.h.rxR.bin == 1) = true := by decide

theorem test_readNb_before_init :
    holds (step (State.reset.withFetchWord 32 0x4800_0000))
      (fun t => t.h.rspWord == 0x0000_0020 && t.h.op == 0) = true := by decide

theorem test_readNb_empty :
    holds (step (ready.withFetchWord 32 0x4800_0000)) (fun t => t.h.rspWord == 0x0000_0010) = true := by decide

theorem test_readu_first_byte :
    holds (step (rxAB.withFetchWord 32 0x5000_200D))
      (fun t => t.h.seq == .untilEnd && t.h.rspWord == 0x0000_4105 && t.h.copied == 1) = true := by decide

theorem test_readu_zero_length_frame :
    holds (step ((withRx [0x100] ready).withFetchWord 32 0x5000_200D))
      (fun t => t.h.seq == .idle && t.h.rspWord == 0x0000_0001) = true := by decide

theorem test_readuNb_empty :
    holds (step (ready.withFetchWord 32 0x5800_200D)) (fun t => t.h.rspWord == 0x0000_0010 && t.h.op == 5) = true := by
  decide

theorem test_illegal_op0_before_init :
    holds (step (State.reset.withFetchWord 32 0)) (fun t => t.h.rspWord == 0x0000_0032 && !t.h.init) = true := by decide

theorem test_illegal_op67 :
    holds (step (ready.withFetchWord 32 0x6000_0000)) (fun t => t.h.rspWord == 0x0000_0032) = true := by decide

theorem test_illegal_op8F :
    holds (step (ready.withFetchWord 32 0x8000_0000)) (fun t => t.h.rspWord == 0x0000_0032) = true := by decide

theorem test_illegal_rsv_pushes_nothing :
    holds (step (ready.withFetchWord 32 0x2100_0041))
      (fun t => t.h.rspWord == 0x0000_0042 && t.mem.tx == [] && t.h.txW == ⟨0, 0⟩) = true := by decide

/-! ### The other parts -/

/-- The first two rows of the table in 95_test_vectors.md 2.3, an AVAIL offered at H step 2 and at H step 3 with no L
step: `rx_empty_h` is 1 before step 2 and 0 after it, so by R186 the answers are 0 and 1 (log 27). -/
theorem test_avail_twice_across_a_crossing :
    holds (runEvents [edgeH, edgeH]
      { ready with
        h := { ready.h with rxWsync := [0b0001, 0b0000] }
        l := { ready.l with rxW := ⟨1, 0b0001⟩ }
        mem := { ready.mem with rx := [(0, 0x041)] }
        host := { ready.host with todo := [.word 0x3000_0000, .word 0x3000_0000] } })
      (fun t => t.host.log == [0x0000_0000] && t.h.rspWord == 0x0000_0001) = true := by decide

/-- 95_test_vectors.md 2.10, second row: the terminator stops the copying without a beat. -/
theorem test_until_stops_at_terminator :
    holds (hStep true true true { busy with h := { busy.h with byte := 0x41 } })
      (fun t => t.h.stop && t.h.copied == 0 && !t.h.rspValid && t.h.rxR.bin == 1) = true := by decide

/-- 2.11: a wait step with a tick takes one from the time left; the last tick is no expiry yet. -/
theorem test_wait_counts_a_tick :
    holds (hStep true true true (pending .wait 4 0 0 1 ready))
      (fun t => t.h.timeLeft == 0 && t.h.seq == .wait && !t.h.rspValid) = true := by decide

/-- 2.12: TERM at f_cursor = ASM_CAP − 1 is tested before the capacity. -/
theorem test_term_before_capacity :
    holds (lStep true true true true
      { framed .accum 3 0 [0x41, 0x42, 0x43] ready with line := ⟨[0x0D, 0x41], []⟩ })
      (fun t => t.l.fState == .termd && t.l.fCursor == 4 && t.l.fLen == 3 && t.line.inp == [0x41]) = true := by decide

/-- 2.13, L step 7: the END marker. -/
theorem test_publish_end_marker :
    holds (lStep true true true true (publishing 2 (framed .termd 3 2 [0x4F, 0x4B, 0x0D] (withRx [0x04F, 0x04B] ready))))
      (fun t => t.mem.rx == [(0, 0x04F), (1, 0x04B), (2, 0x100)] && t.l.rxW == ⟨3, 0b0010⟩ && t.l.fState == .empty) =
        true := by decide

/-- 2.14: the head leaves on a handshake. -/
theorem test_transmit_head :
    holds (lStep true true true true txFull) (fun t => t.line.out == [0x61] && t.l.txR == ⟨1, 1⟩) = true := by decide

/-- R313: a run in which a reset lost a pending READ has not ended, although the host has nothing left to issue. -/
theorem test_lost_command_keeps_the_run_open :
    holds (step (ready.withFetchWord 32 0x4000_0000))
      (fun t => t.h.seq == .wait && t.host.unanswered == 1 && decide (¬ RunEnded t) &&
        decide (¬ RunEnded t.applyReset)) = true := by decide

/-- R313: the FINAL beat of the last command ends the run at the edge that samples it. -/
theorem test_sampled_final_beat_ends_the_run :
    holds (hStep false true true
      { afterInit with host := { HostEnv.start with issued := 1, unanswered := 1 } })
      (fun t => t.host.log == [0x0000_0001] && decide (RunEnded t)) = true := by decide

/-- R152: with configuration P's tick at every edge, an idle block is a fixed point of every quiet edge. -/
theorem quiet_ready {e : Event} (h : QuietEdge true e) : runEvent e ready = .next ready := by
  obtain ⟨a, b, rfl⟩ | ⟨a, b, c, rfl⟩ := h
  · cases a <;> cases b <;> rfl
  · cases a <;> cases b <;> cases c <;> rfl

theorem test_idle_is_settled : Settled true ready := by
  intro es h
  refine ⟨ready, ?_, rfl, rfl, rfl, rfl⟩
  induction es with
  | nil => rfl
  | cons e es ih =>
    simp only [runEvents, quiet_ready (h e (by simp))]
    exact ih fun e he => h e (by simp [he])

/-- A READ pending with one tick left, between two ticks. -/
def slowRead : State := under { Config.p with tickDiv := 2 } (pending .wait 4 0 0 1 ready)

/-- Such a READ is not at rest: the next edge changes only `tick_cnt`, but the one after it changes h_to. -/
theorem test_pending_timeout_is_not_settled : ¬ Settled true slowRead := by
  intro hs
  obtain ⟨t, ht, hh, -⟩ := hs [.h false true true, .h false true true] fun e he => .inl ⟨true, true, by simpa using he⟩
  have h0 : holds (runEvents [.h false true true, .h false true true] slowRead) (fun t => t.h.timeLeft == 0) = true := by
    decide
  have h1 : t.h.timeLeft = 1 := congrArg HRegs.timeLeft hh
  simp [ht, holds, h1] at h0

/-- R312: a WRITE offered while a READ is pending, with no tick left, is taken back and an AVAIL offered instead. Only
the AVAIL is accepted. -/
theorem test_offered_word_is_changed_before_acceptance :
    holds (runEvents [edgeH, .plan [.word 0x3000_0000], edgeH]
      { pending .wait 4 0 0 0 ready with host := { ready.host with todo := [.word 0x2000_0023] } })
      (fun t => t.h.rspWord == 0x0000_0000 && t.h.txW == ⟨0, 0⟩ && t.host.issued == 1 && t.host.todo == []) = true := by
  decide

theorem test_single_domain_reset :
    step (withEvents [.resetHOnly] ready) = .refused .singleDomainReset := rfl

/-! ### Witnesses: the hypotheses of each statement, met together -/

/-- Outcomes that go on. -/
def goesOn (o : Host.Outcome State Fault Refusal) : Bool := holds o fun _ => true

theorem next_of_goesOn {o : Host.Outcome State Fault Refusal} (h : goesOn o = true) : ∃ t, o = .next t :=
  (next_of_holds h).imp fun _ h => h.1

/-- A TX and an RX as large as TX_AW = 1 and ASM_CAP = 1 allow, with the DROP policy. -/
def tiny : Config := { Config.p with txAw := 1, rxAw := 1, asmCap := 1, policy := .drop }

/-- The shortest runs to a framed byte: INIT, two L edges, then the byte `b`. -/
def firstByte (c : Config) (b : Byte) : State :=
  { State.resetWith c with
    line := ⟨[b], []⟩
    host := { HostEnv.start with todo := [.word 0x1000_0000] }
    sched := ⟨[edgeH, edgeL, edgeL, edgeL], 0⟩ }

theorem reachable_run {n : Nat} {s t : State} (h : Reachable s) (hr : runSteps n s = .next t) : Reachable t := by
  induction n generalizing s with
  | zero => cases hr; exact h
  | succ n ih =>
    simp only [runSteps] at hr
    split at hr
    next u hu => exact ih (h.step hu) hr
    next => cases hr
    next => cases hr

theorem launch_firstByte {c : Config} (hc : c.legal = true) (b : Byte) : Launch (firstByte c b) :=
  Or.inl (And.intro hc rfl)

theorem reachable_firstByte {c : Config} (hc : c.legal = true) {b : Byte} {n : Nat} {p : State → Bool}
    (h : holds (runSteps n (firstByte c b)) p = true) : ∃ t, Reachable t ∧ p t = true := by
  obtain ⟨t, ht, hp⟩ := next_of_holds h
  have hr : Reachable (firstByte c b) := Reachable.launch (launch_firstByte hc b)
  exact ⟨t, reachable_run hr ht, hp⟩

theorem all_edgeH (n : Nat) : ∀ e ∈ List.replicate n edgeH, IsHEdge e :=
  fun _ he => ⟨true, true, true, List.eq_of_mem_replicate he⟩

theorem all_edgeL (n : Nat) : ∀ e ∈ List.replicate n edgeL, IsLEdge e :=
  fun _ he => ⟨true, true, true, true, List.eq_of_mem_replicate he⟩

theorem witness_DecodeEncodeRoundTrip :
    (Instr.illegalOp67 6 5).wf = true ∧ (Instr.illegalOp8F 15 1).wf = true ∧
    (Instr.illegalRsv 5 true 7 1 2).wf = true ∧ (Instr.readuNb 0xFF 0xFFFF).wf = true := by decide

theorem witness_DecodeFollowsTheOpcodeMap :
    ¬(1 ≤ (fieldOp 0x0F00_0000).toNat ∧ (fieldOp 0x0F00_0000).toNat ≤ 5) ∧
    ¬(1 ≤ (fieldOp 0x6000_0000).toNat ∧ (fieldOp 0x6000_0000).toNat ≤ 5) ∧
    (1 ≤ (fieldOp 0x1700_0000).toNat ∧ (fieldOp 0x1700_0000).toNat ≤ 5 ∧ fieldRsv 0x1700_0000 ≠ 0#3) ∧
    (1 ≤ (fieldOp 0x5100_0000).toNat ∧ (fieldOp 0x5100_0000).toNat ≤ 5 ∧ fieldRsv 0x5100_0000 ≠ 0#3) ∧
    (fieldRsv 0x1000_0000 = 0#3 ∧ fieldOp 0x1000_0000 = 1#4) ∧
    (fieldRsv 0x2000_0023 = 0#3 ∧ fieldOp 0x2000_0023 = 2#4) ∧
    (fieldRsv 0x3000_0000 = 0#3 ∧ fieldOp 0x3000_0000 = 3#4) ∧
    (fieldRsv 0x4800_0000 = 0#3 ∧ fieldOp 0x4800_0000 = 4#4) ∧
    (fieldRsv 0x5000_200D = 0#3 ∧ fieldOp 0x5000_200D = 5#4) := by decide

theorem witness_IgnoredFieldsHaveNoEffect :
    (0x18FF_FFFF#32 &&& usedBits (decode 0x18FF_FFFF#32) = 0x1000_0000#32 &&& usedBits (decode 0x18FF_FFFF#32)) ∧
    (0x4000_FF00#32 &&& usedBits (decode 0x4000_FF00#32) = 0x4000_00FF#32 &&& usedBits (decode 0x4000_FF00#32)) := by
  decide

theorem witness_WriteWithRoomPushesItsByte :
    ready.h.init = true ∧ ready.txFullH = false ∧
    (withTx [1, 2, 3] ready).h.init = true ∧ (withTx [1, 2, 3] ready).txFullH = false := by decide

theorem witness_AvailAnswersWhetherRxHoldsAnEntry :
    State.reset.h.init = false ∧ (rxAB.h.init = true ∧ rxAB.h.rxR.gray ≠ synced rxAB.h.rxWsync) ∧
    (ready.h.init = true ∧ ready.h.rxR.gray = synced ready.h.rxWsync) ∧
    (fieldOp 0x3800_ABCD = 3#4 ∧ fieldRsv 0x3800_ABCD = 0#3) := by decide

theorem witness_ReadReturnsTheHeadByte :
    rxAB.h.init = true ∧ rxAB.rxEmptyH = false ∧ rxAB.rxHeadH = 0#1 ++ 0x41#8 := by decide

theorem witness_ReadDiscardsAnEndMarker :
    (withRx [0x100] ready).h.init = true ∧ (withRx [0x100] ready).rxEmptyH = false ∧
    Entry.mark (withRx [0x100] ready).rxHeadH = true := by decide

/-- The clauses: an END marker; a limit of 0; the terminator within a limit of 1; a byte to copy within it. -/
theorem witness_ReaduTakesTheFirstEntry :
    ((withRx [0x100] ready).h.init = true ∧ (withRx [0x100] ready).rxEmptyH = false ∧
      Entry.mark (withRx [0x100] ready).rxHeadH = true) ∧
    rxAB.h.init = true ∧ rxAB.rxEmptyH = false ∧ Entry.mark rxAB.rxHeadH = false ∧
    min (0#16).toNat rxAB.cfg.asmCap = 0 ∧ 0 < min (1#16).toNat rxAB.cfg.asmCap ∧
    Entry.data rxAB.rxHeadH = 0x41#8 ∧ Entry.data rxAB.rxHeadH ≠ 0x0D#8 := by decide

theorem witness_IllegalWordsAreAnsweredAtOnce :
    illegalCause (.illegalOp0 0) = some .badop ∧ illegalCause (.illegalOp67 6 0) = some .badop ∧
    illegalCause (.illegalOp8F 8 0) = some .badop ∧ illegalCause (.illegalRsv 1 false 1 0 0) = some .rsvbits ∧
    ¬(1 ≤ (fieldOp 0x0F00_0000).toNat ∧ (fieldOp 0x0F00_0000).toNat ≤ 5) ∧
    ¬(1 ≤ (fieldOp 0x6000_0000).toNat ∧ (fieldOp 0x6000_0000).toNat ≤ 5) ∧
    (1 ≤ (fieldOp 0x1700_0000).toNat ∧ (fieldOp 0x1700_0000).toNat ≤ 5 ∧ fieldRsv 0x1700_0000 ≠ 0#3) ∧
    (1 ≤ (fieldOp 0x5100_0000).toNat ∧ (fieldOp 0x5100_0000).toNat ≤ 5 ∧ fieldRsv 0x5100_0000 ≠ 0#3) := by decide

theorem witness_InitSetsHInitAndAnswersOk : fieldOp 0x18FF_FFFF = 1#4 ∧ fieldRsv 0x18FF_FFFF = 0#3 := by decide

theorem witness_WaitingCommandsBeforeInitAnswerUninit : State.reset.h.init = false := by decide

/-- The clauses: NB; WTO = 0; RTO = 0; WTO not 0; RTO not 0. -/
theorem witness_BlockedCommandsTimeOutOrWait :
    (txFull.h.init = true ∧ condition .write txFull = false ∧ txFull.cfg.wto ≠ 0) ∧
    (ready.h.init = true ∧ condition .read ready = false ∧ condition .readu ready = false ∧ ready.cfg.rto ≠ 0) ∧
    ((under { Config.p with wto := 0, rto := 0 } txFull).h.init = true ∧
      condition .write (under { Config.p with wto := 0, rto := 0 } txFull) = false ∧
      condition .read (under { Config.p with wto := 0, rto := 0 } txFull) = false ∧
      (under { Config.p with wto := 0, rto := 0 } txFull).cfg.wto = 0 ∧
      (under { Config.p with wto := 0, rto := 0 } txFull).cfg.rto = 0) := by decide

theorem witness_CommandsKeepEverythingElse : ∃ t, exec (.write 0x41) ready = .next t :=
  next_of_goesOn (by decide)

theorem witness_CommandsChangeOnlyTheirOwnRegisters :
    (∃ t, exec (.write 0x41) ready = .next t) ∧ (∃ t, exec .init ready = .next t) ∧
    (∃ t, exec (.readu 0x0D 4) rxAB = .next t) ∧ (State.reset.h.init = false ∧ txFull.txFullH = true) ∧
    (∃ t, exec (.write 0x41) State.reset = .next t) ∧ (∃ t, exec (.write 0x41) txFull = .next t) ∧
    (1 ≠ ready.h.txW.bin % ready.cfg.txDepth) :=
  ⟨next_of_goesOn (by decide), next_of_goesOn (by decide), next_of_goesOn (by decide), by decide,
    next_of_goesOn (by decide), next_of_goesOn (by decide), by decide⟩

theorem witness_StepRunsTheDecodedCommand :
    (ready.withFetchWord 32 0x2000_0023).cfg.legal = true ∧
    (ready.withFetchWord 32 0x2000_0023).sched.events = [.h true true true] ∧
    (ready.withFetchWord 32 0x2000_0023).h.seq = .idle ∧
    (((ready.withFetchWord 32 0x2000_0023).host.sampleRsp ready.h.rspValid ready.h.rspWord).retireDone).nextWord
      ready.cfg = some 0x2000_0023 := by decide

/-- The clauses: WRITE; READ of a byte and of a marker; READU of a marker, of a byte past its limit, of the terminator
and of a byte to copy. -/
theorem witness_CompletionWinsOverExpiry :
    ((pending .wait 2 0x65 0 0 ready).h.seq = .wait ∧ (pending .wait 2 0x65 0 0 ready).h.op = 0x2#4 ∧
      (pending .wait 2 0x65 0 0 ready).txFullH = false) ∧
    ((pending .wait 4 0 0 0 rxAB).h.seq = .wait ∧ (pending .wait 4 0 0 0 rxAB).h.op = 0x4#4 ∧
      (pending .wait 4 0 0 0 rxAB).rxEmptyH = false ∧ Entry.mark (pending .wait 4 0 0 0 rxAB).rxHeadH = false) ∧
    ((pending .wait 4 0 0 0 (withRx [0x100] ready)).rxEmptyH = false ∧
      Entry.mark (pending .wait 4 0 0 0 (withRx [0x100] ready)).rxHeadH = true) ∧
    ((pending .wait 5 0x0D 4 0 (withRx [0x100] ready)).h.op = 0x5#4 ∧
      (pending .wait 5 0x0D 4 0 (withRx [0x100] ready)).h.copied = 0#16) ∧
    ((pending .wait 5 0x0D 0 0 rxAB).h.op = 0x5#4 ∧ (pending .wait 5 0x0D 0 0 rxAB).rxEmptyH = false ∧
      min (pending .wait 5 0x0D 0 0 rxAB).h.cap.toNat rxAB.cfg.asmCap ≤ (0#16).toNat) ∧
    ((pending .wait 5 0x41 1 0 rxAB).h.stop = false ∧ (0#16).toNat < min (1#16).toNat rxAB.cfg.asmCap ∧
      Entry.data (pending .wait 5 0x41 1 0 rxAB).rxHeadH = (pending .wait 5 0x41 1 0 rxAB).h.byte) ∧
    Entry.data (pending .wait 5 0x0D 1 0 rxAB).rxHeadH ≠ (pending .wait 5 0x0D 1 0 rxAB).h.byte := by decide

/-- The clauses: no time left; time left with a tick; INF. -/
theorem witness_WaitCountsTicksThenExpires :
    ((pending .wait 4 0 0 0 ready).h.seq = .wait ∧ (pending .wait 4 0 0 0 ready).h.op = waitOpCode .read ∧
      condition .read (pending .wait 4 0 0 0 ready) = false ∧ (pending .wait 4 0 0 0 ready).h.timeLeft = 0) ∧
    ((pending .wait 2 0 0 1 txFull).h.op = waitOpCode .write ∧ condition .write (pending .wait 2 0 0 1 txFull) = false ∧
      (pending .wait 2 0 0 1 txFull).h.timeLeft ≠ 0 ∧
      (pending .wait 2 0 0 1 txFull).h.tickCnt = txFull.cfg.tickDiv - 1) ∧
    (pending .wait 5 0 0 0xFFFF_FFFF ready).h.timeLeft = 2 ^ ready.cfg.timeoutW - 1 := by decide

/-- The clauses: nothing visible; a marker; past the limit; the terminator; a byte to copy, the last one allowed. -/
theorem witness_UntilDrainsOneEntryAtATime :
    ((pending .untilEnd 5 0x0D 4 0 ready).h.seq = .untilEnd ∧ (pending .untilEnd 5 0x0D 4 0 ready).rxEmptyH = true) ∧
    (busy.h.seq = .untilEnd ∧ busy.rxEmptyH = false ∧ Entry.mark busy.rxHeadH = false ∧ busy.h.stop = false ∧
      busy.h.copied.toNat < min busy.h.cap.toNat busy.cfg.asmCap ∧ Entry.data busy.rxHeadH ≠ busy.h.byte) ∧
    (Entry.mark (pending .untilEnd 5 0x0D 4 0 (withRx [0x100] ready)).rxHeadH = true) ∧
    (Entry.data (pending .untilEnd 5 0x41 4 0 rxAB).rxHeadH = 0x41#8) ∧
    (min (0#16).toNat rxAB.cfg.asmCap ≤ (pending .untilEnd 5 0x0D 0 0 rxAB).h.copied.toNat) := by decide

theorem witness_EachDomainStepsAlone :
    (∃ t, hStep true true true busy = .next t) ∧ ∃ t, lStep true true true true busy = .next t :=
  ⟨next_of_goesOn (by decide), next_of_goesOn (by decide)⟩

theorem witness_ChainsSampleAndShiftAtEveryEdge :
    (∃ t, hStep true false false busy = .next t) ∧ ∃ t, lStep true false false false busy = .next t :=
  ⟨next_of_goesOn (by decide), next_of_goesOn (by decide)⟩

/-- The clauses: a FINAL beat; a DATA beat; no beat while a command is pending. -/
theorem witness_EveryCommandEndsWithItsFinalBeat :
    (∃ t, hStep true true true (pending .untilEnd 5 0x0D 4 0 (withRx [0x100] ready)) = .next t ∧
      t.h.rspValid = true) ∧
    (∃ t, hStep true true true busy = .next t ∧ t.h.rspValid = true) ∧
    (∃ t, hStep true true true (pending .wait 4 0 0 2 ready) = .next t ∧ (!t.h.rspValid) = true) :=
  ⟨next_of_holds (by decide), next_of_holds (by decide), next_of_holds (by decide)⟩

theorem witness_ResetLosesEverythingQueued :
    (withEvents [.reset] busy).cfg.legal = true ∧ (withEvents [.reset] busy).sched.events = [.reset] := by decide

theorem witness_FlagsAfterReset : Config.p.legal = true ∧ tiny.legal = true := by decide

theorem witness_IllegalConfigurationsAndSingleResetsAreRefused :
    ¬(2 ≤ (under { Config.p with syncStages := 1 } ready).cfg.syncStages) ∧
    (under { Config.p with syncStages := 1 } ready).cfg.legal = false ∧
    ((withEvents [.resetHOnly] ready).cfg.legal = true ∧ (withEvents [.resetHOnly] ready).nextEvent = .resetHOnly) ∧
    (withEvents [.resetLOnly] ready).nextEvent = .resetLOnly ∧
    step (withEvents [.resetLOnly] ready) = .refused .singleDomainReset :=
  ⟨by decide, by decide, by decide, by decide, rfl⟩

theorem witness_ParametersNeverChange : ∃ t, step (withEvents [edgeH] busy) = .next t := next_of_goesOn (by decide)

/-- The clauses: no byte; `l_init` still 0; TERM, the ASM_CAP-th byte and an earlier byte, with f_cursor at 0 and at
ASM_CAP − 1. -/
theorem witness_FramingTakesOneByte :
    (State.reset.cfg.legal = true ∧ State.reset.lInit = false ∧ State.reset.l.fState = .empty ∧
      State.reset.l.fCursor < State.reset.cfg.asmCap) ∧
    (ready.cfg.legal = true ∧ ready.lInit = true ∧ ready.l.fState = .empty ∧ ready.l.fCursor < ready.cfg.asmCap ∧
      ready.line.inp = [] ∧ ready.l.fCursor + 1 ≠ ready.cfg.asmCap) ∧
    ((framed .accum 3 0 [0x41, 0x42, 0x43] ready).lInit = true ∧
      (framed .accum 3 0 [0x41, 0x42, 0x43] ready).l.fState = .accum ∧
      (framed .accum 3 0 [0x41, 0x42, 0x43] ready).l.fCursor < ready.cfg.asmCap ∧
      (framed .accum 3 0 [0x41, 0x42, 0x43] ready).l.fCursor + 1 = ready.cfg.asmCap) ∧
    ({ ready with line := ⟨[0x0D], []⟩ } : State).line.inp = ready.cfg.term :: [] ∧ 0x41#8 ≠ ready.cfg.term := by decide

/-- The clauses: exactly enough room, in an RX that L sees empty; one entry short, under DROP and under WAIT. -/
theorem witness_PublishReservesRoomOrWaitsOrDrops :
    ((framed .ovf 1 1 [0x41] (under tiny ready)).cfg.legal = true ∧ (framed .ovf 1 1 [0x41] (under tiny ready)).rxCntL = 0 ∧
      (framed .ovf 1 1 [0x41] (under tiny ready)).l.fLen ≤ (under tiny ready).cfg.asmCap) ∧
    ((framed .termd 2 1 [0x41, 0x0D] (under tiny ready)).lInit = true ∧
      (framed .termd 2 1 [0x41, 0x0D] (under tiny ready)).l.fPub = false ∧
      (framed .termd 2 1 [0x41, 0x0D] (under tiny ready)).l.fLen + 1 =
        (framed .termd 2 1 [0x41, 0x0D] (under tiny ready)).rxFreeL) ∧
    ((framed .ovf 1 1 [0x41] (under tiny (withRx [0x100] ready))).rxFreeL <
        (framed .ovf 1 1 [0x41] (under tiny (withRx [0x100] ready))).l.fLen + 1 ∧
      (under tiny ready).cfg.policy = .drop) ∧
    ((framed .termd 2 1 [0x41, 0x0D] (under { tiny with policy := .wait } (withRx [0x100] ready))).rxFreeL <
        (framed .termd 2 1 [0x41, 0x0D] (under { tiny with policy := .wait } (withRx [0x100] ready))).l.fLen + 1 ∧
      (under { tiny with policy := .wait } ready).cfg.policy = .wait) := by decide

/-- The clauses: the last byte; the marker; the marker of a zero-length frame. -/
theorem witness_PublishStreamsOneEntry :
    ((publishing 0 (framed .termd 2 1 [0x41, 0x0D] ready)).cfg.legal = true ∧
      (publishing 0 (framed .termd 2 1 [0x41, 0x0D] ready)).lInit = true ∧
      (publishing 0 (framed .termd 2 1 [0x41, 0x0D] ready)).l.fPidx < 1) ∧
    ((publishing 1 (framed .termd 2 1 [0x41, 0x0D] (withRx [0x041] ready))).l.fLen ≤
      (publishing 1 (framed .termd 2 1 [0x41, 0x0D] (withRx [0x041] ready))).l.fPidx) ∧
    ((publishing 0 (framed .termd 1 0 [0x0D] ready)).l.fLen ≤ (publishing 0 (framed .termd 1 0 [0x0D] ready)).l.fPidx) :=
  by decide

theorem witness_TransmitSendsTheHeadOnAHandshake :
    (txFull.lInit = true ∧ txFull.l.txR.gray ≠ synced txFull.l.txWsync) ∧
    (∃ t, lStep true true true true txFull = .next t) ∧ (∃ t, lStep false true true true txFull = .next t) ∧
    (ready.l.txR.gray = synced ready.l.txWsync) ∧ (∃ t, lStep true true true true ready = .next t) ∧
    State.reset.lInit = false ∧ (∃ t, lStep true true true true State.reset = .next t) :=
  ⟨by decide, next_of_goesOn (by decide), next_of_goesOn (by decide), by decide, next_of_goesOn (by decide), by decide,
    next_of_goesOn (by decide)⟩

theorem witness_LineIsGatedByInitialisation : State.reset.lInit = false := by decide

theorem witness_GrayCodeIsAOneBitChangeBijection : 0 < 2 ^ 0 ∧ (7 < 2 ^ 3 ∧ 1 ≤ 3 ∧ 2 < 3) := by decide

theorem witness_GrayFullTestAgreesWithTheCount : txFull.cfg.legal = true ∧ CtlInv txFull ∧ TxInv txFull := by decide

theorem witness_SequencerInvariantIsKept : CtlInv (withEvents [edgeH] busy) ∧
    ∃ t, step (withEvents [edgeH] busy) = .next t := ⟨by decide, next_of_goesOn (by decide)⟩

theorem witness_InitialisationInvariantIsKept : CtlInv (withEvents [edgeL] busy) ∧ InitInv (withEvents [edgeL] busy) ∧
    ∃ t, step (withEvents [edgeL] busy) = .next t := ⟨by decide, by decide, next_of_goesOn (by decide)⟩

theorem witness_FramingInvariantIsKept : CtlInv (withEvents [edgeL] busy) ∧ FrameInv (withEvents [edgeL] busy) ∧
    ∃ t, step (withEvents [edgeL] busy) = .next t := ⟨by decide, by decide, next_of_goesOn (by decide)⟩

theorem witness_TxPointerInvariantIsKept : CtlInv (withEvents [edgeL] busy) ∧ TxInv (withEvents [edgeL] busy) ∧
    ∃ t, step (withEvents [edgeL] busy) = .next t := ⟨by decide, by decide, next_of_goesOn (by decide)⟩

theorem witness_RxPointerInvariantIsKept : CtlInv (withEvents [edgeH] busy) ∧ FrameInv (withEvents [edgeH] busy) ∧
    RxInv (withEvents [edgeH] busy) ∧ ∃ t, step (withEvents [edgeH] busy) = .next t :=
  ⟨by decide, by decide, by decide, next_of_goesOn (by decide)⟩

theorem witness_ArraysStayCanonicalAndInBounds : busy.cfg.legal = true ∧ MemInv (withEvents [edgeL] busy) ∧
    ∃ t, step (withEvents [edgeL] busy) = .next t := ⟨by decide, by decide, next_of_goesOn (by decide)⟩

theorem witness_ReadableEntriesStayWritten : CtlInv (withEvents [edgeL] busy) ∧ FrameInv (withEvents [edgeL] busy) ∧
    TxInv (withEvents [edgeL] busy) ∧ RxInv (withEvents [edgeL] busy) ∧ WrittenInv (withEvents [edgeL] busy) ∧
    ∃ t, step (withEvents [edgeL] busy) = .next t :=
  ⟨by decide, by decide, by decide, by decide, by decide, next_of_goesOn (by decide)⟩

theorem witness_FramesStayFramed : CtlInv (withEvents [edgeH] busy) ∧ FrameInv (withEvents [edgeH] busy) ∧
    RxInv (withEvents [edgeH] busy) ∧ WrittenInv (withEvents [edgeH] busy) ∧ StreamInv (withEvents [edgeH] busy) ∧
    ∃ t, step (withEvents [edgeH] busy) = .next t :=
  ⟨by decide, by decide, by decide, by decide, by decide, next_of_goesOn (by decide)⟩

theorem witness_ResponseCodesStayLegal : RspInv (withEvents [edgeH] busy) ∧
    ∃ t, step (withEvents [edgeH] busy) = .next t := ⟨by decide, next_of_goesOn (by decide)⟩

theorem launch_reset (es : List Event) : Launch (withEvents es State.reset) :=
  Or.inl (And.intro (show State.reset.cfg.legal = true by decide) rfl)

theorem launch_afterInit : Launch afterInit := by
  refine Or.inr ⟨State.reset, _, true, true, And.intro (by decide) rfl, rfl, ?_⟩
  decide

/-- The clauses: after reset, in two configurations; after a reset event; after INIT's acceptance. -/
theorem witness_InvariantsHoldAtLaunch :
    Launch State.reset ∧ Launch (firstByte tiny 0x41) ∧ Launch busy.applyReset ∧ Launch afterInit :=
  ⟨launch_reset [], launch_firstByte (by decide) 0x41, Or.inl (afterReset_applyReset (s := busy) (by decide)),
    launch_afterInit⟩

/-- A refusal is met too: a reset of one domain alone, from a launch. -/
theorem witness_ReachableStatesAreSound : Reachable State.reset ∧ Reachable (withEvents [.resetLOnly] State.reset) ∧
    step (withEvents [.resetLOnly] State.reset) = .refused .singleDomainReset :=
  ⟨.launch (launch_reset []), .launch (launch_reset [.resetLOnly]), rfl⟩

/-- The clauses, with f_cursor at its limits: EMPTY; ACCUM; TERMD; OVF. -/
theorem witness_FramingRelationsInReachableStates :
    (∃ t, Reachable t ∧ (t.l.fState == .empty) = true) ∧
    (∃ t, Reachable t ∧ (t.l.fState == .accum && t.l.fCursor == 1) = true) ∧
    (∃ t, Reachable t ∧ (t.l.fState == .termd && t.l.fCursor == t.cfg.asmCap) = true) ∧
    (∃ t, Reachable t ∧ (t.l.fState == .ovf && t.l.fCursor == 1) = true) :=
  ⟨⟨State.reset, .launch (launch_reset []), by decide⟩,
    reachable_firstByte (c := Config.p) (b := 0x41) (n := 4) (by decide) (by decide),
    reachable_firstByte (c := tiny) (b := 0x0D) (n := 4) (by decide) (by decide),
    reachable_firstByte (c := tiny) (b := 0x41) (n := 4) (by decide) (by decide)⟩

theorem witness_OccupancyIsBoundedAndFlagsAreConservative : Reachable State.reset :=
  .launch (launch_reset [])

theorem witness_TxIsFirstInFirstOutToTheWire : CtlInv txFull ∧ TxInv txFull ∧
    (∃ t, lStep true true true true txFull = .next t) ∧ ∃ t, hStep true true true txFull = .next t :=
  ⟨by decide, by decide, next_of_goesOn (by decide), next_of_goesOn (by decide)⟩

theorem witness_RxIsFirstInFirstOut : CtlInv busy ∧ FrameInv busy ∧ RxInv busy ∧
    (∃ t, lStep true true true true busy = .next t) ∧ ∃ t, hStep true true true busy = .next t :=
  ⟨by decide, by decide, by decide, next_of_goesOn (by decide), next_of_goesOn (by decide)⟩

theorem witness_CrossingIntoHTakesTheChainLength :
    CtlInv (withEvents (List.replicate 3 edgeH) busy) ∧
    (withEvents (List.replicate 3 edgeH) busy).sched.events = List.replicate 3 edgeH ∧
    (∀ e ∈ List.replicate 3 edgeH, IsHEdge e) ∧ (List.replicate 3 edgeH).length = busy.cfg.syncStages + 1 :=
  ⟨by decide, rfl, all_edgeH 3, by decide⟩

theorem witness_CrossingIntoLTakesTheChainLength :
    CtlInv (withEvents (List.replicate 3 edgeL) busy) ∧ FrameInv (withEvents (List.replicate 3 edgeL) busy) ∧
    (withEvents (List.replicate 3 edgeL) busy).sched.events = List.replicate 3 edgeL ∧
    (∀ e ∈ List.replicate 3 edgeL, IsLEdge e) ∧ (List.replicate 3 edgeL).length = busy.cfg.syncStages + 1 :=
  ⟨by decide, by decide, rfl, all_edgeL 3, by decide⟩

/-- H edges and L edges in turn. -/
def inTurn (n : Nat) : Event := if n % 2 = 0 then edgeH else edgeL

theorem fair_inTurn : Fair inTurn := by
  refine ⟨fun n => ⟨2 * n, by omega, true, true, true, ?_⟩, fun n => ⟨2 * n + 1, by omega, true, true, true, ?_⟩,
    fun n => ?_⟩
  · simp [inTurn, edgeH]
  · simp [inTurn, edgeL]
  · unfold inTurn
    split <;> simp [edgeH, edgeL]

theorem witness_InitReachesTheLineUnderFairness : (∃ s, Reachable s ∧ s.h.init = true) ∧ Fair inTurn :=
  ⟨reachable_firstByte (c := Config.p) (b := 0x41) (n := 1) (by decide) (by decide), fair_inTurn⟩

/-- `ready` with one READ to issue, and `n` H edges. -/
def oneRead (n : Nat) : State :=
  withEvents (List.replicate n edgeH)
    { ready with host := { ready.host with todo := [.word (encode (waitInstr .read false 0 0))] } }

theorem witness_BlockedCommandTimesOutWithinTheBound :
    CtlInv (oneRead 4) ∧ (oneRead 4).h.seq = .idle ∧ (oneRead 4).h.init = true ∧ Stuck .read (oneRead 4) ∧
    1 ≤ effTimeout (oneRead 4).cfg .read false ∧ effTimeout (oneRead 4).cfg .read false < (oneRead 4).cfg.inf ∧
    (oneRead 4).host.todo = [.word (encode (waitInstr .read false 0 0))] ∧ (oneRead 4).host.awaiting = false ∧
    (oneRead 4).sched.events = .h true true true :: List.replicate 3 edgeH ∧
    (∀ e ∈ List.replicate 3 edgeH, IsHEdge e) ∧
    effTimeout (oneRead 4).cfg .read false * (oneRead 4).cfg.tickDiv + 1 ≤ (List.replicate 3 edgeH).length :=
  ⟨by decide, by decide, by decide, ⟨by decide, by decide, by decide⟩, by decide, by decide, rfl, rfl, rfl, all_edgeH 3,
    by decide⟩

/-- `txFull` with a WRITE pending for ever. -/
def endless : State := withEvents [edgeH] (pending .wait 2 0x65 0 0xFFFF_FFFF txFull)

theorem witness_InfiniteTimeoutNeverExpires :
    CtlInv endless ∧ endless.h.seq = .wait ∧ endless.h.op = waitOpCode .write ∧
    endless.h.timeLeft = 2 ^ endless.cfg.timeoutW - 1 ∧ endless.sched.events = List.replicate 1 edgeH ∧
    (∀ e ∈ List.replicate 1 edgeH, IsHEdge e) ∧ 1 ≤ (List.replicate 1 edgeH).length ∧
    condition .write endless = false ∧ endless.chg.txR.fresh = false ∧ ∀ g ∈ endless.h.txRsync, g = endless.l.txR.gray :=
  ⟨by decide, by decide, by decide, by decide, rfl, all_edgeH 1, by decide, by decide, by decide, by decide⟩

/-- `rxAB` with one READU to issue. -/
def oneReadu : State :=
  withEvents (List.replicate 4 edgeH)
    { rxAB with host := { rxAB.host with todo := [.word (encode (waitInstr .readu false 0x0D 32))] } }

theorem witness_ReaduCopiesAndDequeuesOneFrame :
    CtlInv oneReadu ∧ RxInv oneReadu ∧ oneReadu.h.seq = .idle ∧ oneReadu.h.init = true ∧ oneReadu.h.rspValid = false ∧
    oneReadu.host.todo = [.word (encode (waitInstr .readu false 0x0D 32))] ∧ oneReadu.host.awaiting = false ∧
    oneReadu.sched.events = .h true true true :: List.replicate 3 edgeH ∧ (∀ e ∈ List.replicate 3 edgeH, IsHEdge e) ∧
    (List.replicate 3 edgeH).length = [0x41#8, 0x42#8].length + 1 ∧ [0x41#8, 0x42#8].length + 1 ≤ oneReadu.rxCntH ∧
    (rxQueue oneReadu).take 3 = [0x41#8, 0x42#8].map dataEntry ++ [endMarker] :=
  ⟨by decide, by decide, by decide, by decide, by decide, by decide, by decide, rfl, all_edgeH 3, by decide, by decide,
    by decide⟩

/-- `ready` with bytes at the UART. -/
def lineIn (n : Nat) (bs : List Byte) : State :=
  withEvents (List.replicate n edgeL) { ready with line := ⟨bs, []⟩ }

/-- Three bytes, the most that fit before ASM_CAP = 4. -/
theorem witness_TerminatedLineIsPublishedAsOneFrame :
    CtlInv (lineIn 9 [1, 2, 3, 0x0D]) ∧ FrameInv (lineIn 9 [1, 2, 3, 0x0D]) ∧ RxInv (lineIn 9 [1, 2, 3, 0x0D]) ∧
    (lineIn 9 [1, 2, 3, 0x0D]).h.init = true ∧ (lineIn 9 [1, 2, 3, 0x0D]).chg.init.fresh = false ∧
    (∀ g ∈ (lineIn 9 [1, 2, 3, 0x0D]).l.initSync, g = true) ∧ (lineIn 9 [1, 2, 3, 0x0D]).l.fState = .empty ∧
    [1#8, 2#8, 3#8].length < ready.cfg.asmCap ∧ ready.cfg.term ∉ [1#8, 2#8, 3#8] ∧
    (lineIn 9 [1, 2, 3, 0x0D]).line.inp = [1#8, 2#8, 3#8] ++ ready.cfg.term :: [] ∧
    [1#8, 2#8, 3#8].length + 1 ≤ (lineIn 9 [1, 2, 3, 0x0D]).rxFreeL ∧
    (lineIn 9 [1, 2, 3, 0x0D]).sched.events = List.replicate 9 edgeL ∧ (∀ e ∈ List.replicate 9 edgeL, IsLEdge e) ∧
    (List.replicate 9 edgeL).length = 2 * [1#8, 2#8, 3#8].length + 3 :=
  ⟨by decide, by decide, by decide, by decide, by decide, by decide, by decide, by decide, by decide, by decide,
    by decide, rfl, all_edgeL 9, by decide⟩

theorem witness_OverflowIsPublishedAtFullCapacity :
    CtlInv (lineIn 10 [1, 2, 3, 4, 5]) ∧ FrameInv (lineIn 10 [1, 2, 3, 4, 5]) ∧ RxInv (lineIn 10 [1, 2, 3, 4, 5]) ∧
    (lineIn 10 [1, 2, 3, 4, 5]).h.init = true ∧ (lineIn 10 [1, 2, 3, 4, 5]).chg.init.fresh = false ∧
    (∀ g ∈ (lineIn 10 [1, 2, 3, 4, 5]).l.initSync, g = true) ∧ (lineIn 10 [1, 2, 3, 4, 5]).l.fState = .empty ∧
    [1#8, 2#8, 3#8, 4#8].length = ready.cfg.asmCap ∧ ready.cfg.term ∉ [1#8, 2#8, 3#8, 4#8] ∧
    (lineIn 10 [1, 2, 3, 4, 5]).line.inp = [1#8, 2#8, 3#8, 4#8] ++ [5#8] ∧
    [1#8, 2#8, 3#8, 4#8].length + 1 ≤ (lineIn 10 [1, 2, 3, 4, 5]).rxFreeL ∧
    (lineIn 10 [1, 2, 3, 4, 5]).sched.events = List.replicate 10 edgeL ∧
    (∀ e ∈ List.replicate 10 edgeL, IsLEdge e) ∧
    (List.replicate 10 edgeL).length = 2 * [1#8, 2#8, 3#8, 4#8].length + 2 :=
  ⟨by decide, by decide, by decide, by decide, by decide, by decide, by decide, by decide, by decide, by decide,
    by decide, rfl, all_edgeL 10, by decide⟩

/-- `ready` with tasks and `n` H edges. -/
def withTasks (n : Nat) (ts : List HostTask) : State :=
  withEvents (List.replicate n edgeH) { ready with host := { ready.host with todo := ts } }

/-- As many bytes as TX holds. -/
theorem witness_WritenEnqueuesItsRun :
    CtlInv (withTasks 5 (pseudoWriten true [1, 2, 3, 4])) ∧ TxInv (withTasks 5 (pseudoWriten true [1, 2, 3, 4])) ∧
    (withTasks 5 (pseudoWriten true [1, 2, 3, 4])).h.seq = .idle ∧
    (withTasks 5 (pseudoWriten true [1, 2, 3, 4])).h.init = true ∧
    (withTasks 5 (pseudoWriten true [1, 2, 3, 4])).h.rspValid = false ∧
    (withTasks 5 (pseudoWriten true [1, 2, 3, 4])).host.todo = pseudoWriten true [1, 2, 3, 4] ∧
    (withTasks 5 (pseudoWriten true [1, 2, 3, 4])).host.awaiting = false ∧
    (withTasks 5 (pseudoWriten true [1, 2, 3, 4])).txCntH + [1#8, 2#8, 3#8, 4#8].length ≤ 2 ^ ready.cfg.txAw ∧
    (withTasks 5 (pseudoWriten true [1, 2, 3, 4])).sched.events = List.replicate 5 edgeH ∧
    (∀ e ∈ List.replicate 5 edgeH, ∃ a b, e = .h true a b) ∧
    (List.replicate 5 edgeH).length = [1#8, 2#8, 3#8, 4#8].length + 1 :=
  ⟨by decide, by decide, by decide, by decide, by decide, by decide, by decide, by decide, rfl,
    fun _ he => ⟨true, true, List.eq_of_mem_replicate he⟩, by decide⟩

theorem witness_DrainOfAnEmptyQueueIssuesOneAvail :
    (withTasks 2 pseudoDrain).cfg.legal = true ∧ (withTasks 2 pseudoDrain).h.seq = .idle ∧
    (withTasks 2 pseudoDrain).h.init = true ∧ (withTasks 2 pseudoDrain).h.rspValid = false ∧
    (withTasks 2 pseudoDrain).rxEmptyH = true ∧ (withTasks 2 pseudoDrain).host.todo = pseudoDrain ∧
    (withTasks 2 pseudoDrain).host.awaiting = false ∧
    (withTasks 2 pseudoDrain).sched.events = .h true true true :: .h true true true :: [] := by decide

end Sys2Proof.Tests
end

section
/-! PROOFS. Gray code: `b2g` and `g2b` are inverse, and neighbours differ in one bit (spec/00_scope.md R19). -/

namespace Sys2Proof.Machine

theorem b2g_eq (b : Nat) : b2g b = b ^^^ (b / 2) := by rw [b2g, Nat.shiftRight_one]

@[simp] theorem b2g_zero : b2g 0 = 0 := rfl

theorem b2g_lt {w b : Nat} (h : b < 2 ^ w) : b2g b < 2 ^ w := by
  rw [b2g_eq]
  exact Nat.xor_lt_two_pow h (Nat.lt_of_le_of_lt (Nat.div_le_self b 2) h)

/-- The code without its lowest bit is the code of the number without its lowest bit. -/
theorem b2g_div_two (b : Nat) : b2g b / 2 = b2g (b / 2) := by rw [b2g_eq, b2g_eq, Nat.xor_div_two]

/-- The lowest bit of the code. -/
theorem b2g_mod_two (b : Nat) : b2g b % 2 = (b + b / 2) % 2 := by rw [b2g_eq, Nat.xor_mod_two_eq]

theorem b2g_testBit (b i : Nat) : (b2g b).testBit i = (b.testBit i ^^ b.testBit (i + 1)) := by
  rw [b2g_eq, Nat.testBit_xor, Nat.testBit_div_two]

/-- `g2b` without its lowest bit (R19's recurrence). -/
theorem g2b_succ_div_two (w g : Nat) : g2b (w + 1) g / 2 = g2b w (g / 2) := by
  simp only [g2b, Nat.shiftRight_one]
  omega

/-- The lowest bit of `g2b` (R19's recurrence). -/
theorem g2b_succ_mod_two (w g : Nat) : g2b (w + 1) g % 2 = (g2b w (g / 2) + g) % 2 := by
  simp only [g2b, Nat.shiftRight_one, Nat.xor_mod_two_eq]
  omega

@[simp] theorem g2b_zero (w : Nat) : g2b w 0 = 0 := by
  induction w with
  | zero => rfl
  | succ w ih => simp [g2b, ih]

theorem g2b_b2g {w b : Nat} (h : b < 2 ^ w) : g2b w (b2g b) = b := by
  induction w generalizing b with
  | zero => simp only [g2b]; omega
  | succ w ih =>
    have hi : g2b w (b2g b / 2) = b / 2 := by rw [b2g_div_two]; exact ih (by omega)
    apply Nat.ext_div_mod (n := 2)
    · rw [g2b_succ_div_two, hi]
    · rw [g2b_succ_mod_two, hi, Nat.add_mod, b2g_mod_two]
      omega

theorem b2g_g2b {w g : Nat} (h : g < 2 ^ w) : b2g (g2b w g) = g := by
  induction w generalizing g with
  | zero => simp only [g2b, b2g_zero]; omega
  | succ w ih =>
    apply Nat.ext_div_mod (n := 2)
    · rw [b2g_div_two, g2b_succ_div_two]
      exact ih (by omega)
    · have hm := g2b_succ_mod_two w g
      rw [b2g_mod_two, g2b_succ_div_two]
      omega

/-- R19's recurrence, bit by bit. -/
theorem g2b_testBit {w g : Nat} (h : g < 2 ^ w) (i : Nat) :
    (g2b w g).testBit i = ((g2b w g).testBit (i + 1) ^^ g.testBit i) := by
  conv_rhs => rw [← b2g_g2b h, g2b_b2g (g2b_lt w g), b2g_testBit]
  cases (g2b w g).testBit i <;> cases (g2b w g).testBit (i + 1) <;> rfl

/-- How two codes differ, but for the lowest bit. -/
theorem b2g_xor_div_two (a b : Nat) : (b2g a ^^^ b2g b) / 2 = b2g (a / 2) ^^^ b2g (b / 2) := by
  rw [Nat.xor_div_two, b2g_div_two, b2g_div_two]

/-- How two codes differ in the lowest bit. -/
theorem b2g_xor_mod_two (a b : Nat) : (b2g a ^^^ b2g b) % 2 = (a + a / 2 + (b + b / 2)) % 2 := by
  rw [Nat.xor_mod_two_eq, Nat.add_mod, b2g_mod_two, b2g_mod_two, ← Nat.add_mod]

/-- The codes of b and b + 1 mod 2^w differ in one bit: the lowest for an even b, else the one in which the codes of the
halves differ. -/
theorem b2g_neighbours {w b : Nat} (hw : 1 ≤ w) (h : b < 2 ^ w) :
    ∃ k, k < w ∧ b2g b ^^^ b2g ((b + 1) % 2 ^ w) = 2 ^ k := by
  induction w, hw using Nat.le_induction generalizing b with
  | base =>
    have : b = 0 ∨ b = 1 := by omega
    rcases this with rfl | rfl <;> exact ⟨0, by decide, by decide⟩
  | succ w hw ih =>
    have hpow : 2 ^ (w + 1) = 2 * 2 ^ w := by rw [Nat.pow_succ, Nat.mul_comm]
    have hlow : (b + 1) % 2 ^ (w + 1) % 2 = (b + 1) % 2 := by rw [hpow, Nat.mod_mul_right_mod]
    have hhigh : (b + 1) % 2 ^ (w + 1) / 2 = (b + 1) / 2 % 2 ^ w := by rw [hpow, Nat.mod_mul_right_div_self]
    rcases Nat.mod_two_eq_zero_or_one b with hb | hb
    · have hhalf : (b + 1) % 2 ^ (w + 1) / 2 = b / 2 := by
        rw [hhigh, show (b + 1) / 2 = b / 2 by omega, Nat.mod_eq_of_lt (by omega)]
      refine ⟨0, by omega, Nat.ext_div_mod (n := 2) ?_ ?_⟩
      · rw [b2g_xor_div_two, hhalf, Nat.xor_self]
        rfl
      · rw [b2g_xor_mod_two, hhalf]
        omega
    · have hhalf : (b + 1) % 2 ^ (w + 1) / 2 = (b / 2 + 1) % 2 ^ w := by
        rw [hhigh, show (b + 1) / 2 = b / 2 + 1 by omega]
      have hpar : (b / 2 + 1) % 2 ^ w % 2 = (b / 2 + 1) % 2 :=
        Nat.mod_mod_of_dvd _ (dvd_pow_self 2 (by omega))
      obtain ⟨k, hk, hbit⟩ := ih (b := b / 2) (by omega)
      refine ⟨k + 1, by omega, Nat.ext_div_mod (n := 2) ?_ ?_⟩
      · rw [b2g_xor_div_two, hhalf, hbit]
        omega
      · rw [b2g_xor_mod_two, hhalf]
        omega

end Sys2Proof.Machine

namespace Sys2Proof.Proofs

open Sys2Proof Sys2Proof.Machine

/-- Settles O34, by induction on the width: the lowest bit and the other bits of a code are taken apart. -/
theorem grayCodeIsAOneBitChangeBijection : Obligations.GrayCodeIsAOneBitChangeBijection := by
  unfold Obligations.GrayCodeIsAOneBitChangeBijection
  exact fun w b h => ⟨b2g_eq b, b2g_lt h, g2b_lt w b, g2b_b2g h, b2g_g2b h, fun i _ => g2b_testBit h i,
    fun hw => b2g_neighbours hw h⟩

end Sys2Proof.Proofs
end

section
/-! PROOFS. What an H edge can do to the queues, said once: the sequencer keeps them, pushes to TX, or pops RX, and
beside that touches control registers alone (spec/40_host_commands.md R170, R174, R175, R199). From it, the frame of
every command and of an H edge. -/

namespace Sys2Proof.Machine

/-- `t` differs from `s` at most in the control registers of H and in the bookkeeping of `h_init`, which `h_init <- 1`
alone changes; `rsp_word` changes to a packed response only (R35, R36, R93, R140). -/
structure ControlOnly (s t : State) : Prop where
  cfg : t.cfg = s.cfg := by rfl
  l : t.l = s.l := by rfl
  mem : t.mem = s.mem := by rfl
  line : t.line = s.line := by rfl
  host : t.host = s.host := by rfl
  sched : t.sched = s.sched := by rfl
  tickCnt : t.h.tickCnt = s.h.tickCnt := by rfl
  txW : t.h.txW = s.h.txW := by rfl
  txRsync : t.h.txRsync = s.h.txRsync := by rfl
  rxR : t.h.rxR = s.h.rxR := by rfl
  rxWsync : t.h.rxWsync = s.h.rxWsync := by rfl
  chgTxW : t.chg.txW = s.chg.txW := by rfl
  chgTxR : t.chg.txR = s.chg.txR := by rfl
  chgRxW : t.chg.rxW = s.chg.rxW := by rfl
  chgRxR : t.chg.rxR = s.chg.rxR := by rfl
  init : (t.h.init = s.h.init ∧ t.chg.init = s.chg.init) ∨ (t.h.init = true ∧ t.chg.init = ⟨false, true⟩) := by
    exact .inl ⟨rfl, rfl⟩
  answer : t.h.rspWord = s.h.rspWord ∨ ∃ st k c d n, t.h.rspWord = rspPack st k c d n := by exact .inl rfl

theorem ControlOnly.respond (st : St) (k : Kind) (c : Cause) (d : Byte) (n : Half) (s : State) :
    ControlOnly s (s.respond st k c d n) := { answer := .inr ⟨st, k, c, d, n, rfl⟩ }

theorem ControlOnly.finish (st : St) (k : Kind) (c : Cause) (d : Byte) (n : Half) (q : SeqState) (s : State) :
    ControlOnly s ((s.respond st k c d n).setSeq q) := { answer := .inr ⟨st, k, c, d, n, rfl⟩ }

theorem ControlOnly.refl (s : State) : ControlOnly s s := {}

theorem ControlOnly.latch (op : WaitOp) (b : Byte) (cap : Half) (s : State) : ControlOnly s (s.latch op b cap) := {}

theorem ControlOnly.setInit (s : State) : ControlOnly s s.setInit := by
  unfold State.setInit
  split
  · exact .refl s
  · exact { init := .inr ⟨rfl, rfl⟩ }

theorem ControlOnly.trans {s u t : State} (hu : ControlOnly s u) (ht : ControlOnly u t) : ControlOnly s t where
  cfg := ht.cfg.trans hu.cfg
  l := ht.l.trans hu.l
  mem := ht.mem.trans hu.mem
  line := ht.line.trans hu.line
  host := ht.host.trans hu.host
  sched := ht.sched.trans hu.sched
  tickCnt := ht.tickCnt.trans hu.tickCnt
  txW := ht.txW.trans hu.txW
  txRsync := ht.txRsync.trans hu.txRsync
  rxR := ht.rxR.trans hu.rxR
  rxWsync := ht.rxWsync.trans hu.rxWsync
  chgTxW := ht.chgTxW.trans hu.chgTxW
  chgTxR := ht.chgTxR.trans hu.chgTxR
  chgRxW := ht.chgRxW.trans hu.chgRxW
  chgRxR := ht.chgRxR.trans hu.chgRxR
  init := by
    rcases ht.init with ⟨hi, hc⟩ | h
    · rw [hi, hc]
      exact hu.init
    · exact .inr h
  answer := by
    rcases ht.answer with h | h
    · rw [h]
      exact hu.answer
    · exact .inr h

/-- Copying, stopping at, or discarding a byte of a frame touches control registers alone (R197). -/
theorem ControlOnly.copyByte (ops : Operands) (d : Byte) (s : State) : ControlOnly s (copyByte ops d s) := by
  obtain ⟨-, h⟩ | ⟨-, -, -, h⟩ | ⟨-, -, -, h⟩ := copyByte_cases ops d s
  · rw [h]
    exact .refl s
  · rw [h]
    exact {}
  · rw [h]
    exact { answer := .inr ⟨_, _, _, _, _, rfl⟩ }

/-- What the sequencer can do to the queues from `s`: keep them, push one byte to TX with room seen and `h_init` = 1 (in
IDLE; a pending command has seen `h_init` = 1 before), or pop the head of RX with an entry seen. A command enters or
stays in UNTIL at a data entry alone (R174, R190, R197, R199). -/
inductive QueueMove (s t : State) : Prop where
  | keep (rest : ControlOnly s t) (drain : t.h.seq = .untilEnd → s.h.seq = .untilEnd)
  | push (b : Byte) (init : s.h.seq = .idle → s.h.init = true) (room : s.txFullH = false)
      (rest : ControlOnly (s.pushTx b) t) (drain : t.h.seq ≠ .untilEnd)
  | pop (seen : s.rxEmptyH = false) (rest : ControlOnly s.popRx t)
      (drain : t.h.seq = .untilEnd → Entry.mark s.rxHeadH = false)

theorem QueueMove.refl (s : State) : QueueMove s s := .keep (.refl s) id

theorem QueueMove.respond (st : St) (k : Kind) (c : Cause) (d : Byte) (n : Half) (s : State) :
    QueueMove s (s.respond st k c d n) := .keep (.respond st k c d n s) id

/-- A move from the state with the operands latched is one from the state before (R174). -/
theorem QueueMove.of_latch {op : WaitOp} {b : Byte} {cap : Half} {s t : State} (h : QueueMove (s.latch op b cap) t) :
    QueueMove s t := by
  cases h with
  | keep rest drain => exact .keep ((ControlOnly.latch op b cap s).trans rest) drain
  | push b' init room rest drain =>
    have hl : ControlOnly (s.pushTx b') ((s.latch op b cap).pushTx b') := {}
    exact .push b' init room (hl.trans rest) drain
  | pop seen rest drain =>
    have hl : ControlOnly s.popRx (s.latch op b cap).popRx := {}
    exact .pop seen (hl.trans rest) drain

/-- READU's processing of the head entry pops it (R197). -/
theorem processEntry_move (ops : Operands) {s : State} (he : s.rxEmptyH = false) :
    QueueMove s (processEntry ops s) := by
  cases hm : Entry.mark s.rxHeadH with
  | true =>
    rw [processEntry_mark ops hm]
    exact .pop he (.finish _ _ _ _ _ _ _) nofun
  | false =>
    rw [processEntry_data ops hm]
    have hq : ControlOnly (copyByte ops (Entry.data s.rxHeadH) s.popRx)
        ((copyByte ops (Entry.data s.rxHeadH) s.popRx).setSeq .untilEnd) := {}
    exact .pop he ((ControlOnly.copyByte ops _ s.popRx).trans hq) fun _ => hm

/-- READ's attempt pops the head entry (R190). -/
theorem actRead_move (timeout : Nat) {s : State} (he : s.rxEmptyH = false) : QueueMove s (actRead timeout s) := by
  cases hm : Entry.mark s.rxHeadH with
  | true =>
    rw [actRead_mark timeout hm]
    exact .pop he {} nofun
  | false =>
    rw [actRead_data timeout hm]
    exact .pop he (.finish _ _ _ _ _ _ _) nofun

/-- A successful attempt (R174): WRITE pushes its byte, READ and READU pop the head entry. -/
theorem act_move {op : WaitOp} (ops : Operands) (timeout : Nat) {s : State} (hc : condition op s = true)
    (hi : s.h.seq = .idle → s.h.init = true) : QueueMove s (act op ops timeout s) := by
  cases op with
  | write => exact .push ops.b hi (by simpa [condition] using hc) (.finish _ _ _ _ _ _ _) nofun
  | read => exact actRead_move timeout (by simpa [condition] using hc)
  | readu => exact processEntry_move ops (by simpa [condition] using hc)

/-- The acceptance of a waiting command (R174). -/
theorem acceptWaiting_move (op : WaitOp) (nb : Bool) (b : Byte) (cap : Half) (s : State) :
    QueueMove s (acceptWaiting op nb b cap s) := by
  cases hi : s.h.init with
  | false =>
    rw [acceptWaiting_uninit op nb b cap hi]
    exact .respond _ _ _ _ _ s
  | true =>
    cases hc : condition op s with
    | true =>
      rw [acceptWaiting_ready nb b cap hi hc]
      exact (act_move (s := s.latch op b cap) _ _ (by simpa using hc) fun _ => hi).of_latch
    | false =>
      by_cases ht : effTimeout s.cfg op nb = 0
      · rw [acceptWaiting_noTime b cap hi hc ht]
        exact (QueueMove.respond _ _ _ _ _ _).of_latch
      · rw [acceptWaiting_wait b cap hi hc ht]
        exact .keep {} nofun

/-- The WAIT step (R175). -/
theorem waitFor_move (op : WaitOp) {s : State} (hq : s.h.seq = .wait) : QueueMove s (waitFor op s) := by
  obtain ⟨hc, h⟩ | ⟨-, -, h⟩ | ⟨-, -, -, -, h⟩ | ⟨-, -, -, h⟩ := waitFor_cases op s
  · rw [h]
    exact act_move _ _ hc fun hidle => by simp [hq] at hidle
  · rw [h]
    exact .keep (.finish _ _ _ _ _ _ _) nofun
  · rw [h]
    exact .keep {} id
  · rw [h]
    exact .refl s

/-- The UNTIL step (R199). -/
theorem untilStep_cases (s : State) :
    (s.rxEmptyH = true ∧ untilStep s = s) ∨ (s.rxEmptyH = false ∧ untilStep s = processEntry s.latchedOps s) := by
  cases h : s.rxEmptyH <;> simp [untilStep, h]

theorem untilStep_move (s : State) : QueueMove s (untilStep s) := by
  obtain ⟨-, h⟩ | ⟨he, h⟩ := untilStep_cases s
  · rw [h]
    exact .refl s
  · rw [h]
    exact processEntry_move _ he

/-- Every command goes on, and does one of the moves (R174). -/
theorem exec_move (i : Instr) (s : State) : ∃ t, exec i s = .next t ∧ QueueMove s t := by
  obtain ⟨-, h⟩ | ⟨-, st, c, h⟩ | ⟨op, nb, b, cap, h, -⟩ | ⟨c, -, h⟩ := exec_cases i s
  · exact ⟨_, h, .keep ((ControlOnly.setInit s).trans (.respond _ _ _ _ _ _)) fun hq => by simpa using hq⟩
  · exact ⟨_, h, .respond _ _ _ _ _ s⟩
  · exact ⟨_, h, acceptWaiting_move op nb b cap s⟩
  · exact ⟨_, h, .respond _ _ _ _ _ s⟩

theorem queueMove_of_exec {i : Instr} {s t : State} (h : exec i s = .next t) : QueueMove s t := by
  obtain ⟨u, hu, hm⟩ := exec_move i s
  rw [hu] at h
  cases h
  exact hm

/-- The state as the sequencer finds it at an H edge: `rsp_valid` cleared, HostEnv as its turn leaves it (R140, R172).
-/
def State.atPort (e : HostEnv) (s : State) : State :=
  { s with h := { s.h with rspValid := false }, host := e }

/-- An H edge that goes on is the sequencer's action, which is one queue move, then the shifts and the prescaler
(R170). -/
theorem hStep_move {o a b : Bool} {s t : State} (h : hStep o a b s = .next t) :
    ∃ e u, sequencer (s.hostTurn o).clearRsp = .next u ∧ QueueMove (s.atPort e) u ∧ t = u.finishH a b := by
  obtain ⟨u, hu, rfl⟩ := hStep_next.1 h
  obtain ⟨-, -, hx⟩ | ⟨-, -, rfl⟩ | ⟨hq, op, -, rfl⟩ | ⟨-, rfl⟩ := sequencer_cases hu
  · exact ⟨_, u, hu, queueMove_of_exec hx, rfl⟩
  · exact ⟨_, _, hu, .refl _, rfl⟩
  · exact ⟨_, _, hu, waitFor_move op hq, rfl⟩
  · exact ⟨_, _, hu, untilStep_move _, rfl⟩

/-- What no queue move changes. -/
theorem QueueMove.frame {s t : State} (h : QueueMove s t) :
    t.cfg = s.cfg ∧ t.l = s.l ∧ t.line = s.line ∧ t.host = s.host ∧ t.sched = s.sched ∧
    t.mem.rx = s.mem.rx ∧ t.mem.asm = s.mem.asm ∧ t.mem.epoch = s.mem.epoch ∧
    t.h.tickCnt = s.h.tickCnt ∧ t.h.txRsync = s.h.txRsync ∧ t.h.rxWsync = s.h.rxWsync ∧
    t.chg.txR = s.chg.txR ∧ t.chg.rxW = s.chg.rxW := by
  have hv : ∃ v, ControlOnly v t ∧ v = { s with
      mem := { s.mem with tx := v.mem.tx }
      h := { s.h with txW := v.h.txW, rxR := v.h.rxR }
      chg := { s.chg with txW := v.chg.txW, rxR := v.chg.rxR } } := by
    cases h with
    | keep r _ => exact ⟨s, r, rfl⟩
    | push b _ _ r _ => exact ⟨s.pushTx b, r, rfl⟩
    | pop _ r _ => exact ⟨s.popRx, r, rfl⟩
  obtain ⟨v, r, hv⟩ := hv
  rw [hv] at r
  rw [r.mem]
  exact ⟨r.cfg, r.l, r.line, r.host, r.sched, rfl, rfl, rfl, r.tickCnt, r.txRsync, r.rxWsync, r.chgTxR, r.chgRxW⟩

/-- What no H edge changes (R15, R170). -/
theorem hStep_frame {o a b : Bool} {s t : State} (h : hStep o a b s = .next t) :
    t.cfg = s.cfg ∧ t.l = s.l ∧ t.line = s.line ∧ t.sched = s.sched ∧ t.mem.rx = s.mem.rx ∧ t.mem.asm = s.mem.asm ∧
    t.mem.epoch = s.mem.epoch ∧ t.h.tickCnt = (s.h.tickCnt + 1) % s.cfg.tickDiv := by
  obtain ⟨e, u, -, hm, rfl⟩ := hStep_move h
  obtain ⟨hcfg, hl, hline, -, hsched, hrx, hasm, hep, htick, -⟩ := hm.frame
  refine ⟨hcfg, hl, hline, hsched, hrx, hasm, hep, ?_⟩
  rw [finishH_h, htick, hcfg]
  rfl

end Sys2Proof.Machine

namespace Sys2Proof.Proofs

open Sys2Proof Sys2Proof.Machine

/-- Settles O16: a command is one move of the queues, and no move touches any of this. -/
theorem commandsKeepEverythingElse : Obligations.CommandsKeepEverythingElse := by
  unfold Obligations.CommandsKeepEverythingElse
  intro i s t h
  obtain ⟨hcfg, hl, hline, hhost, hsched, hrx, hasm, -, htick, htx, hrxw, hctx, hcrx⟩ := (queueMove_of_exec h).frame
  exact ⟨hcfg, hl, hline, hhost, hsched, fun k => by rw [hrx], fun k => by rw [hasm], htick, htx, hrxw, hctx, hcrx⟩

end Sys2Proof.Proofs
end

section
/-! PROOFS. What an L edge can do, said once: the transmit step, then one move of the framing step, then the shifts
(spec/41_line_engines.md R225 to R240). From it, the frame of an L edge, and what a step keeps. -/

namespace Sys2Proof.Machine

/-- The state after a byte is taken from the UART into the assembly buffer, `l` being the framing registers (R227). -/
def State.takeByte (b : Byte) (rest : List Byte) (l : LRegs) (s : State) : State :=
  { s with
    l := l
    mem := { s.mem with asm := s.mem.asm.write s.l.fCursor b }
    line := { s.line with inp := rest } }

/-- The moves of a framing step that goes on (R224, R227, R236, R237): nothing; a byte that ends the frame, fills the
buffer, or joins it; the start or the drop of a publish; a published data entry or END marker. -/
inductive FramingMove (s : State) : State → Prop where
  | none : FramingMove s s
  | term (b : Byte) (rest : List Byte) (fs : s.l.fState = .empty ∨ s.l.fState = .accum)
      (room : s.l.fCursor < s.cfg.asmCap) (hb : b = s.cfg.term) :
      FramingMove s (s.takeByte b rest { s.l with fLen := s.l.fCursor, fCursor := s.l.fCursor + 1, fState := .termd })
  | full (b : Byte) (rest : List Byte) (fs : s.l.fState = .empty ∨ s.l.fState = .accum)
      (room : s.l.fCursor + 1 = s.cfg.asmCap) (hb : b ≠ s.cfg.term) :
      FramingMove s (s.takeByte b rest { s.l with fLen := s.cfg.asmCap, fCursor := s.cfg.asmCap, fState := .ovf })
  | byte (b : Byte) (rest : List Byte) (fs : s.l.fState = .empty ∨ s.l.fState = .accum)
      (room : s.l.fCursor + 1 < s.cfg.asmCap) (hb : b ≠ s.cfg.term) :
      FramingMove s (s.takeByte b rest { s.l with fCursor := s.l.fCursor + 1, fState := .accum })
  | start (fs : s.l.fState = .termd ∨ s.l.fState = .ovf) (pub : s.l.fPub = false) (room : s.l.fLen + 1 ≤ s.rxFreeL) :
      FramingMove s { s with l := { s.l with fPub := true, fPidx := 0 } }
  | drop (fs : s.l.fState = .termd ∨ s.l.fState = .ovf) (pub : s.l.fPub = false) :
      FramingMove s { s with l := { s.l with fCursor := 0, fState := .empty } }
  | entry (fs : s.l.fState = .termd ∨ s.l.fState = .ovf) (pub : s.l.fPub = true) (more : s.l.fPidx < s.l.fLen)
      (inside : s.l.fPidx < s.cfg.asmCap) :
      FramingMove s { s.pushRx (dataEntry (s.mem.asmAt s.l.fPidx)) with
        l := { s.l with rxW := s.l.rxW.inc s.cfg.rxPw, fPidx := s.l.fPidx + 1 } }
  | marker (fs : s.l.fState = .termd ∨ s.l.fState = .ovf) (pub : s.l.fPub = true) (done : s.l.fLen ≤ s.l.fPidx) :
      FramingMove s { s.pushRx endMarker with
        l := { s.l with rxW := s.l.rxW.inc s.cfg.rxPw, fPub := false, fPidx := 0, fCursor := 0, fState := .empty } }

/-- The accumulate step is one of the three moves that take a byte (R227, R229). -/
theorem accumulate_move {b : Byte} {rest : List Byte} {s t : State} (fs : s.l.fState = .empty ∨ s.l.fState = .accum)
    (h : s.accumulate b rest = .next t) : FramingMove s t := by
  obtain ⟨room, hmem, hline, hcfg, hh, hchg, hhost, hsched, hl⟩ := accumulate_cases h
  have ht : t = s.takeByte b rest t.l := by
    rw [State.takeByte, ← hmem, ← hline, ← hcfg, ← hh, ← hchg, ← hhost, ← hsched]
  have hcur : (s.l.fCursor + 1) % 2 ^ s.cfg.cw = s.l.fCursor + 1 := mod_cw s.cfg room
  rw [hcur] at hl
  rw [ht]
  obtain ⟨hb, hl⟩ | ⟨hb, he, hl⟩ | ⟨hb, he, hl⟩ := hl
  · rw [hl]
    exact .term b rest fs room hb
  · rw [hl]
    exact .full b rest fs he hb
  · rw [hl]
    exact .byte b rest fs (by omega) hb

/-- A framing step that goes on is one of the moves. -/
theorem framing_move {s t : State} (h : s.framing = .next t) : FramingMove s t := by
  obtain ⟨-, -, -, rfl⟩ | ⟨-, fs, b, rest, -, ha⟩ | ⟨-, fs, pub, hs⟩ | ⟨-, fs, pub, rfl⟩ | ⟨-, rfl⟩ := framing_cases h
  · exact .none
  · exact accumulate_move fs ha
  · obtain ⟨more, inside, rfl⟩ | ⟨done, rfl⟩ := stream_cases hs
    · rw [mod_cw s.cfg inside]
      exact .entry fs pub more inside
    · exact .marker fs pub done
  · obtain ⟨room, hr⟩ | ⟨-, -, hr⟩ | ⟨-, -, hr⟩ := reserve_cases s
    · rw [hr]
      exact .start fs pub room
    · rw [hr]
      exact .drop fs pub
    · rw [hr]
      exact .none
  · exact .none

/-- What no framing step changes. -/
theorem FramingMove.frame {s t : State} (h : FramingMove s t) :
    t.cfg = s.cfg ∧ t.h = s.h ∧ t.host = s.host ∧ t.sched = s.sched ∧ t.mem.tx = s.mem.tx ∧ t.mem.epoch = s.mem.epoch ∧
    t.l.txR = s.l.txR ∧ t.l.txWsync = s.l.txWsync ∧ t.l.rxRsync = s.l.rxRsync ∧ t.l.initSync = s.l.initSync ∧
    t.chg.txW = s.chg.txW ∧ t.chg.txR = s.chg.txR ∧ t.chg.rxR = s.chg.rxR ∧ t.chg.init = s.chg.init := by
  cases h <;> exact ⟨rfl, rfl, rfl, rfl, rfl, rfl, rfl, rfl, rfl, rfl, rfl, rfl, rfl, rfl⟩

/-- A transmit step changes the read side of TX and `line_out` alone (R222, R240). -/
theorem transmit_frame (r : Bool) (s : State) : s.transmit r = { s with
    l := { s.l with txR := (s.transmit r).l.txR }
    chg := { s.chg with txR := (s.transmit r).chg.txR }
    line := { s.line with out := (s.transmit r).line.out } } := by
  obtain ⟨-, -, -, h⟩ | ⟨-, h⟩ := transmit_cases r s
  · rw [h]
    rfl
  · rw [h]

/-- An L edge that goes on is the transmit step, a framing move, then the shifts (R225). -/
theorem lStep_move {r a b c : Bool} {s t : State} (h : lStep r a b c s = .next t) :
    ∃ u, FramingMove (s.transmit r) u ∧ t = u.syncL a b c := by
  obtain ⟨u, hu, rfl⟩ := lStep_next.1 h
  exact ⟨u, framing_move hu, rfl⟩

/-- What no L edge changes (R15, R225). -/
theorem lStep_frame {r a b c : Bool} {s t : State} (h : lStep r a b c s = .next t) :
    t.cfg = s.cfg ∧ t.h = s.h ∧ t.host = s.host ∧ t.sched = s.sched ∧ t.mem.tx = s.mem.tx ∧
    t.mem.epoch = s.mem.epoch := by
  obtain ⟨u, hm, rfl⟩ := lStep_move h
  obtain ⟨hcfg, hh, hhost, hsched, htx, hep, -⟩ := hm.frame
  rw [transmit_frame] at hcfg hh hhost hsched htx hep
  exact ⟨hcfg, hh, hhost, hsched, htx, hep⟩

/-! ### Steps and stops -/

/-- `takeEvent` changes the schedule alone. -/
theorem takeEvent_eq (s : State) : s.takeEvent = { s with sched := s.takeEvent.sched } := by
  unfold State.takeEvent
  split <;> rfl

/-- A step that goes on, with the schedule named: an H edge, an L edge, a change of the environment, or a reset. -/
theorem step_move {s t : State} (h : step s = .next t) : s.cfg.legal = true ∧ ∃ q : Schedule,
    (∃ o a b, hStep o a b { s with sched := q } = .next t) ∨
    (∃ r a b c, lStep r a b c { s with sched := q } = .next t) ∨
    (∃ line host, t = { s with line := line, host := host, sched := q }) ∨
    t = State.applyReset { s with sched := q } := by
  obtain ⟨hl, hx⟩ := step_cases h
  refine ⟨hl, s.takeEvent.sched, ?_⟩
  rw [← takeEvent_eq]
  obtain ⟨o, a, b, -, hx⟩ | ⟨r, a, b, c, -, hx⟩ | ⟨ts, -, rfl⟩ | ⟨bs, -, rfl⟩ | ⟨-, hx⟩ := hx
  · exact .inl ⟨o, a, b, hx⟩
  · exact .inr (.inl ⟨r, a, b, c, hx⟩)
  · rw [takeEvent_eq]
    exact .inr (.inr (.inl ⟨_, _, rfl⟩))
  · rw [takeEvent_eq]
    exact .inr (.inr (.inl ⟨_, _, rfl⟩))
  · exact .inr (.inr (.inr hx))

/-- The sequencer goes on, but in WAIT with an `h_op` of no waiting command (R172, log 8). -/
theorem sequencer_outcome (s : State) :
    (∃ t, sequencer s = .next t) ∨
    (sequencer s = .fault .pendingOpcode ∧ s.h.seq = .wait ∧ waitOpOf s.h.op = none) := by
  unfold sequencer
  cases s.h.seq with
  | idle =>
    cases s.host.cmdValid with
    | false => exact .inl ⟨s, rfl⟩
    | true =>
      obtain ⟨t, ht, -⟩ := exec_move (decode s.host.cmdWord) s.hostAccepted
      exact .inl ⟨t, ht⟩
  | wait =>
    cases ho : waitOpOf s.h.op with
    | some op => exact .inl ⟨_, waitStep_next.2 ⟨op, ho, rfl⟩⟩
    | none => exact .inr ⟨by simp [waitStep, ho], rfl, rfl⟩
  | untilEnd => exact .inl ⟨_, rfl⟩

/-- The accumulate step goes on inside the buffer (R227, log 9). -/
theorem accumulate_outcome (b : Byte) (rest : List Byte) (s : State) :
    (∃ t, s.accumulate b rest = .next t) ∨
    (s.accumulate b rest = .fault .outsideAsmBuf ∧ s.cfg.asmCap ≤ s.l.fCursor) := by
  unfold State.accumulate
  split
  next h => exact .inr ⟨rfl, h⟩
  next =>
    refine .inl ?_
    dsimp only
    split
    · exact ⟨_, rfl⟩
    · split <;> exact ⟨_, rfl⟩

/-- The stream phase goes on inside the buffer (R237, log 9). -/
theorem stream_outcome (s : State) :
    (∃ t, s.stream = .next t) ∨
    (s.stream = .fault .outsideAsmBuf ∧ s.l.fPidx < s.l.fLen ∧ s.cfg.asmCap ≤ s.l.fPidx) := by
  unfold State.stream
  split
  next hm =>
    split
    next h => exact .inr ⟨rfl, hm, h⟩
    next => exact .inl ⟨_, rfl⟩
  next => exact .inl ⟨_, rfl⟩

/-- The framing step goes on, but where it would index `asm_buf` past its end (log 9). -/
theorem framing_outcome (s : State) :
    (∃ t, s.framing = .next t) ∨
    (s.framing = .fault .outsideAsmBuf ∧
      (((s.l.fState = .empty ∨ s.l.fState = .accum) ∧ s.cfg.asmCap ≤ s.l.fCursor) ∨
        ((s.l.fState = .termd ∨ s.l.fState = .ovf) ∧ s.l.fPidx < s.l.fLen ∧ s.cfg.asmCap ≤ s.l.fPidx))) := by
  unfold State.framing
  split
  next hr =>
    have hr : s.lInit = true ∧ (s.l.fState = .empty ∨ s.l.fState = .accum) := by simpa [State.uartRxReady] using hr
    split
    · exact .inl ⟨s, rfl⟩
    · exact (accumulate_outcome _ _ s).imp_right fun ⟨hf, hc⟩ => ⟨hf, .inl ⟨hr.2, hc⟩⟩
  next hr =>
    split
    next hl =>
      have hf : s.l.fState = .termd ∨ s.l.fState = .ovf := by cases hs : s.l.fState <;> simp_all [State.uartRxReady]
      split
      · exact (stream_outcome s).imp_right fun ⟨hs, hc⟩ => ⟨hs, .inr ⟨hf, hc⟩⟩
      · exact .inl ⟨_, rfl⟩
    · exact .inl ⟨s, rfl⟩

theorem hStep_ne_refused (o a b : Bool) (s : State) (r : Refusal) : hStep o a b s ≠ .refused r := by
  intro h
  obtain ⟨t, ht⟩ | ⟨ht, -⟩ := sequencer_outcome (s.hostTurn o).clearRsp <;> simp [hStep, ht, mapNext] at h

theorem lStep_ne_refused (r a b c : Bool) (s : State) (q : Refusal) : lStep r a b c s ≠ .refused q := by
  intro h
  obtain ⟨t, ht⟩ | ⟨ht, -⟩ := framing_outcome (s.transmit r) <;> simp [lStep, ht, mapNext] at h

theorem step_illegal {s : State} (h : s.cfg.legal = false) : step s = .refused .illegalConfiguration := by
  simp [step, stepRun, h]

theorem step_legal {s : State} (h : s.cfg.legal = true) : step s = runEvent s.nextEvent s.takeEvent := by
  simp [step, stepRun, h]

/-- The only events refused are the resets of one domain (R291). -/
theorem runEvent_refused {e : Event} {s : State} {r : Refusal} (h : runEvent e s = .refused r) :
    r = .singleDomainReset ∧ (e = .resetHOnly ∨ e = .resetLOnly) := by
  cases e with
  | h o a b => exact absurd h (hStep_ne_refused o a b s r)
  | l t a b c => exact absurd h (lStep_ne_refused t a b c s r)
  | plan ts => cases h
  | rx bs => cases h
  | reset => cases h
  | resetHOnly => cases h; exact ⟨rfl, .inl rfl⟩
  | resetLOnly => cases h; exact ⟨rfl, .inr rfl⟩

/-- No step changes a parameter (R10). -/
theorem step_cfg {s t : State} (h : step s = .next t) : t.cfg = s.cfg := by
  obtain ⟨-, q, ⟨o, a, b, hx⟩ | ⟨r, a, b, c, hx⟩ | ⟨line, host, rfl⟩ | rfl⟩ := step_move h
  · exact (hStep_frame hx).1
  · exact (lStep_frame hx).1
  · rfl
  · rfl

end Sys2Proof.Machine

namespace Sys2Proof.Proofs

open Sys2Proof Sys2Proof.Machine

/-- Settles O22, by the frames of an H edge and of an L edge. -/
theorem eachDomainStepsAlone : Obligations.EachDomainStepsAlone := by
  unfold Obligations.EachDomainStepsAlone
  refine ⟨fun s t o a b h => ?_, fun s t r a b c h => ?_, fun s tasks => ?_⟩
  · obtain ⟨hcfg, hl, hline, -, hrx, hasm, -, htick⟩ := hStep_frame h
    exact ⟨hl, hline, hcfg, fun k => by rw [hrx], fun k => by rw [hasm], htick⟩
  · obtain ⟨hcfg, hh, hhost, -, htx, -⟩ := lStep_frame h
    exact ⟨hh, hhost, hcfg, fun k => by rw [htx]⟩
  · exact ⟨s.replan tasks, rfl, rfl, rfl, rfl, rfl, rfl, rfl, rfl, rfl, rfl, fun ha => by simp [HostEnv.replan, ha]⟩

/-- Settles O27: the sequencer and the framing step go on or fault, so no edge is refused. -/
theorem illegalConfigurationsAndSingleResetsAreRefused :
    Obligations.IllegalConfigurationsAndSingleResetsAreRefused := by
  unfold Obligations.IllegalConfigurationsAndSingleResetsAreRefused
  refine fun s => ⟨fun h => ?_, fun hl he => ?_, fun hl r hr => ?_⟩
  · exact step_illegal (Bool.eq_false_iff.2 fun hl => h ((legal_iff s.cfg).1 hl))
  · rw [step_legal hl]
    rcases he with he | he <;> rw [he] <;> rfl
  · rw [step_legal hl] at hr
    exact runEvent_refused hr

/-- Settles O28, from what each event keeps. -/
theorem parametersNeverChange : Obligations.ParametersNeverChange := by
  unfold Obligations.ParametersNeverChange
  exact fun _ _ h => step_cfg h

end Sys2Proof.Proofs
end

section
/-! PROOFS. The invariants of the control registers, kept by both edges: the sequencer's, the response word's, those of
initialisation and of the framing buffer (spec/10_state.md R34 to R42; spec/30_encoding.md R141 to R143). -/

namespace Sys2Proof.Machine

/-! ### The sequencer -/

/-- The part of `CtlInv` that speaks of the pending command (R35, R36, R211). -/
abbrev PendingInv (s : State) : Prop :=
  s.h.timeLeft ≤ s.cfg.inf ∧ (s.h.seq ≠ .idle → s.h.init = true) ∧
    (s.h.seq = .wait → (waitOpOf s.h.op).isSome = true ∧ s.h.copied = 0 ∧ s.h.stop = false) ∧
    (s.h.seq = .untilEnd → s.h.op = waitOpCode .readu ∧ s.h.copied.toNat ≤ copyLimit s.cfg s.h.cap)

theorem pendingInv_of_idle {s : State} (hq : s.h.seq = .idle) (ht : s.h.timeLeft ≤ s.cfg.inf) : PendingInv s :=
  ⟨ht, fun h => absurd hq h, by simp [hq], by simp [hq]⟩

theorem effTimeout_le_inf {c : Config} (hl : c.legal = true) (op : WaitOp) (nb : Bool) :
    effTimeout c op nb ≤ c.inf := by
  obtain ⟨-, -, -, -, -, -, -, hw, hr, -⟩ := (legal_iff c).1 hl
  cases nb with
  | true => exact Nat.zero_le _
  | false => cases op <;> assumption

theorem copyLimit_le (c : Config) (cap : Half) : copyLimit c cap ≤ cap.toNat := Nat.min_le_left _ _

/-- A copied byte is counted without wrapping, since fewer than the limit were copied (R195, R211). -/
theorem copied_succ_le {c : Config} {n cap : Half} (h : n.toNat < copyLimit c cap) :
    (n + 1).toNat ≤ copyLimit c cap := by
  have hl := copyLimit_le c cap
  have := cap.isLt
  rw [BitVec.toNat_add, Nat.mod_eq_of_lt (by simp; omega)]
  simpa using h

/-- Processing an entry of the frame of a pending READU (R197). -/
theorem pendingInv_processEntry {s : State} (ht : s.h.timeLeft ≤ s.cfg.inf) (hi : s.h.init = true)
    (ho : s.h.op = waitOpCode .readu) (hc : s.h.copied.toNat ≤ copyLimit s.cfg s.h.cap) :
    PendingInv (processEntry s.latchedOps s) := by
  cases hm : Entry.mark s.rxHeadH with
  | true =>
    rw [processEntry_mark _ hm]
    exact pendingInv_of_idle rfl ht
  | false =>
    rw [processEntry_data _ hm]
    obtain ⟨-, h⟩ | ⟨-, -, -, h⟩ | ⟨-, hlt, -, h⟩ := copyByte_cases s.latchedOps (Entry.data s.rxHeadH) s.popRx <;>
      rw [h]
    · exact ⟨ht, fun _ => hi, nofun, fun _ => ⟨ho, hc⟩⟩
    · exact ⟨ht, fun _ => hi, nofun, fun _ => ⟨ho, hc⟩⟩
    · exact ⟨ht, fun _ => hi, nofun, fun _ => ⟨ho, copied_succ_le hlt⟩⟩

/-- A successful attempt of the command that `h_op` holds (R174). -/
theorem pendingInv_act {op : WaitOp} {timeout : Nat} {s : State} (hT : timeout ≤ s.cfg.inf)
    (ht : s.h.timeLeft ≤ s.cfg.inf) (hi : s.h.init = true) (ho : s.h.op = waitOpCode op) (hc : s.h.copied = 0)
    (hs : s.h.stop = false) : PendingInv (act op s.latchedOps timeout s) := by
  cases op with
  | write => exact pendingInv_of_idle rfl ht
  | read =>
    show PendingInv (actRead timeout s)
    cases hm : Entry.mark s.rxHeadH with
    | true =>
      rw [actRead_mark timeout hm]
      exact ⟨hT, fun _ => hi, fun _ => ⟨by simp [ho], hc, hs⟩, nofun⟩
    | false =>
      rw [actRead_data timeout hm]
      exact pendingInv_of_idle rfl ht
  | readu => exact pendingInv_processEntry ht hi ho (by simp [hc])

/-- The acceptance of a waiting command in IDLE (R174). -/
theorem pendingInv_acceptWaiting (op : WaitOp) (nb : Bool) (b : Byte) (cap : Half) {s : State}
    (hl : s.cfg.legal = true) (hq : s.h.seq = .idle) (ht : s.h.timeLeft ≤ s.cfg.inf) :
    PendingInv (acceptWaiting op nb b cap s) := by
  have hT := effTimeout_le_inf hl op nb
  cases hi : s.h.init with
  | false =>
    rw [acceptWaiting_uninit op nb b cap hi]
    exact pendingInv_of_idle hq ht
  | true =>
    cases hc : condition op s with
    | true =>
      rw [acceptWaiting_ready nb b cap hi hc]
      exact pendingInv_act (s := s.latch op b cap) hT ht hi rfl rfl rfl
    | false =>
      by_cases h0 : effTimeout s.cfg op nb = 0
      · rw [acceptWaiting_noTime b cap hi hc h0]
        exact pendingInv_of_idle hq ht
      · rw [acceptWaiting_wait b cap hi hc h0]
        exact ⟨hT, fun _ => hi, fun _ => ⟨by simp, rfl, rfl⟩, nofun⟩

/-- Any command accepted in IDLE. -/
theorem pendingInv_exec {i : Instr} {s t : State} (hl : s.cfg.legal = true) (hq : s.h.seq = .idle)
    (ht : s.h.timeLeft ≤ s.cfg.inf) (h : exec i s = .next t) : PendingInv t := by
  obtain ⟨-, hx⟩ | ⟨-, st, c, hx⟩ | ⟨op, nb, b, cap, hx, -⟩ | ⟨c, -, hx⟩ := exec_cases i s <;> rw [hx] at h <;> cases h
  · exact pendingInv_of_idle (by simpa using hq) (by simpa using ht)
  · exact pendingInv_of_idle hq ht
  · exact pendingInv_acceptWaiting op nb b cap hl hq ht
  · exact pendingInv_of_idle hq ht

/-- The WAIT step (R175). -/
theorem pendingInv_waitFor {op : WaitOp} {s : State} (hq : s.h.seq = .wait) (ho : waitOpOf s.h.op = some op)
    (hp : PendingInv s) : PendingInv (waitFor op s) := by
  obtain ⟨ht, hi, hw, -⟩ := hp
  obtain ⟨hop, hc, hs⟩ := hw hq
  have hi := hi (by simp [hq])
  obtain ⟨-, h⟩ | ⟨-, -, h⟩ | ⟨-, -, -, -, h⟩ | ⟨-, -, -, h⟩ := waitFor_cases op s <;> rw [h]
  · exact pendingInv_act ht ht hi (waitOpOf_some ho) hc hs
  · exact pendingInv_of_idle rfl ht
  · exact ⟨Nat.le_trans (Nat.sub_le _ _) ht, fun _ => hi, fun _ => ⟨hop, hc, hs⟩, by simp [hq]⟩
  · exact ⟨ht, fun _ => hi, fun _ => ⟨hop, hc, hs⟩, by simp [hq]⟩

/-- The UNTIL step (R199). -/
theorem pendingInv_untilStep {s : State} (hq : s.h.seq = .untilEnd) (hp : PendingInv s) : PendingInv (untilStep s) := by
  obtain ⟨-, h⟩ | ⟨-, h⟩ := untilStep_cases s <;> rw [h]
  · exact hp
  · obtain ⟨ht, hi, -, hu⟩ := hp
    exact pendingInv_processEntry ht (hi (by simp [hq])) (hu hq).1 (hu hq).2

theorem pendingInv_sequencer {s t : State} (hl : s.cfg.legal = true) (hp : PendingInv s) (h : sequencer s = .next t) :
    PendingInv t := by
  obtain ⟨hq, -, hx⟩ | ⟨-, -, rfl⟩ | ⟨hq, op, ho, rfl⟩ | ⟨hq, rfl⟩ := sequencer_cases h
  · exact pendingInv_exec (s := s.hostAccepted) hl hq hp.1 hx
  · exact hp
  · exact pendingInv_waitFor hq ho hp
  · exact pendingInv_untilStep hq hp

/-- The end of an H step keeps the ranges and the chain lengths, whatever queue move came before it (R170). -/
theorem ctlInv_finishH {a b : Bool} {s u : State} (h : CtlInv s) (hm : QueueMove s u) (hp : PendingInv u) :
    CtlInv (u.finishH a b) := by
  obtain ⟨hl, -, -, -, -, -, l1, l2, l3, l4, l5⟩ := h
  obtain ⟨hcfg, hul, -, -, -, -, -, -, -, h1, h2, -⟩ := hm.frame
  obtain ⟨ht, hi, hw, hu⟩ := hp
  obtain ⟨-, -, -, -, -, -, -, -, -, hdiv⟩ := (legal_iff s.cfg).1 hl
  refine ⟨?_, ?_, ht, hi, hw, hu, ?_, ?_, ?_, ?_, ?_⟩
  · simpa [hcfg] using hl
  · exact Nat.mod_lt _ (by rw [syncH_cfg, hcfg]; exact hdiv)
  · simpa [hcfg, h1] using l1
  · simpa [hcfg, h2] using l2
  · simpa [hcfg, hul] using l3
  · simpa [hcfg, hul] using l4
  · simpa [hcfg, hul] using l5

theorem ctlInv_hStep {o a b : Bool} {s t : State} (h : CtlInv s) (hs : hStep o a b s = .next t) : CtlInv t := by
  obtain ⟨e, u, hu, hm, rfl⟩ := hStep_move hs
  have hc : CtlInv (s.atPort e) := h
  obtain ⟨hl, -, ht, hi, hw, hd, -⟩ := h
  have hp : PendingInv (s.hostTurn o).clearRsp := ⟨ht, hi, hw, hd⟩
  exact ctlInv_finishH hc hm (pendingInv_sequencer (s := (s.hostTurn o).clearRsp) hl hp hu)

/-- The L edge only shifts its chains, which keep their lengths (R89). -/
theorem ctlInv_lStep {r a b c : Bool} {s t : State} (h : CtlInv s) (hs : lStep r a b c s = .next t) : CtlInv t := by
  obtain ⟨u, hm, rfl⟩ := lStep_move hs
  obtain ⟨hcfg, hh, -, -, -, -, -, h1, h2, h3, -⟩ := hm.frame
  rw [transmit_frame] at hcfg hh h1 h2 h3
  simpa [CtlInv, hcfg, hh, h1, h2, h3] using h

/-! ### The response word -/

theorem rspSt_rspPack (st : St) (k : Kind) (c : Cause) (d : Byte) (n : Half) :
    rspSt (rspPack st k c d n) = stCode st := by
  unfold rspSt rspPack
  ext i hi
  simp only [BitVec.getElem_extractLsb', BitVec.getLsbD_append]
  interval_cases i <;> simp

theorem rspKind_rspPack (st : St) (k : Kind) (c : Cause) (d : Byte) (n : Half) :
    rspKind (rspPack st k c d n) = kindCode k := by
  unfold rspKind rspPack
  ext i hi
  simp only [BitVec.getElem_extractLsb', BitVec.getLsbD_append]
  interval_cases i <;> simp

theorem rspCause_rspPack (st : St) (k : Kind) (c : Cause) (d : Byte) (n : Half) :
    rspCause (rspPack st k c d n) = causeCode c := by
  unfold rspCause rspPack
  ext i hi
  simp only [BitVec.getElem_extractLsb', BitVec.getLsbD_append]
  interval_cases i <;> simp

/-- A packed response uses no reserved code (R141 to R143). -/
theorem rspInv_of_rspPack {s : State} {st : St} {k : Kind} {c : Cause} {d : Byte} {n : Half}
    (h : s.h.rspWord = rspPack st k c d n) : RspInv s := by
  unfold RspInv
  rw [h, rspSt_rspPack, rspKind_rspPack, rspCause_rspPack]
  exact ⟨by cases st <;> decide, by cases k <;> decide, by cases c <;> decide⟩

/-- A queue move leaves the response word or packs a new one. -/
theorem QueueMove.answer {s t : State} (h : QueueMove s t) :
    t.h.rspWord = s.h.rspWord ∨ ∃ st k c d n, t.h.rspWord = rspPack st k c d n := by
  cases h with
  | keep r _ => exact r.answer
  | push _ _ _ r _ => exact r.answer
  | pop _ r _ => exact r.answer

theorem rspInv_finishH {a b : Bool} {s u : State} (h : RspInv s) (hm : QueueMove s u) : RspInv (u.finishH a b) := by
  obtain hw | ⟨st, k, c, d, n, hw⟩ := hm.answer
  · simpa [RspInv, hw] using h
  · exact rspInv_of_rspPack (s := u.finishH a b) hw

theorem rspInv_hStep {o a b : Bool} {s t : State} (h : RspInv s) (hs : hStep o a b s = .next t) : RspInv t := by
  obtain ⟨e, u, -, hm, rfl⟩ := hStep_move hs
  exact rspInv_finishH (s := s.atPort e) h hm

theorem rspInv_lStep {r a b c : Bool} {s t : State} (h : RspInv s) (hs : lStep r a b c s = .next t) : RspInv t := by
  rw [RspInv, (lStep_frame hs).2.1]
  exact h

/-! ### Initialisation -/

/-- A move that only touches control registers sets `h_init` or leaves it (R180). -/
theorem initInv_of_controlOnly {s t : State} (h : InitInv s) (r : ControlOnly s t) : InitInv t := by
  obtain ⟨hp, hf, hb, hq⟩ := h
  rcases r.init with ⟨hi, hc⟩ | ⟨hi, hc⟩
  · rw [InitInv, hi, hc, r.l, r.txW]
    exact ⟨hp, hf, hb, hq⟩
  · rw [InitInv, hi, hc]
    exact ⟨rfl, fun _ => rfl, fun _ _ _ => rfl, nofun⟩

/-- A byte is pushed with `h_init` = 1 alone, so TX stays empty before INIT (R224). -/
theorem initInv_move {s t : State} (hp : s.h.seq ≠ .idle → s.h.init = true) (h : InitInv s) (hm : QueueMove s t) :
    InitInv t := by
  cases hm with
  | keep r _ => exact initInv_of_controlOnly h r
  | push b hi _ r _ =>
    have hi : s.h.init = true := by
      by_cases hq : s.h.seq = .idle
      · exact hi hq
      · exact hp hq
    obtain ⟨h1, h2, h3, -⟩ := h
    exact initInv_of_controlOnly (s := s.pushTx b) ⟨h1, h2, h3, fun h0 => by simp [hi] at h0⟩ r
  | pop _ r _ => exact initInv_of_controlOnly (s := s.popRx) h r

theorem initInv_hStep {o a b : Bool} {s t : State} (hc : CtlInv s) (h : InitInv s) (hs : hStep o a b s = .next t) :
    InitInv t := by
  obtain ⟨e, u, -, hm, rfl⟩ := hStep_move hs
  obtain ⟨-, -, -, hp, -⟩ := hc
  have hu : InitInv u := initInv_move (s := s.atPort e) hp h hm
  exact hu

/-- `l_init` is a stage of its chain, so with it `h_init` is 1 (R38, R181). -/
theorem init_of_lInit {s : State} (h : InitInv s) (hl : s.lInit = true) : s.h.init = true := by
  obtain ⟨-, -, hb, -⟩ := h
  refine hb true ?_ rfl
  rw [State.lInit, List.getLastD_eq_getLast?] at hl
  cases hg : s.l.initSync.getLast? with
  | none => simp [hg] at hl
  | some x =>
    have hx : x = true := by simpa [hg] using hl
    exact hx ▸ List.mem_of_getLast? hg

/-- A byte is sent with `l_init` = 1 alone (R224). -/
theorem initInv_transmit (r : Bool) {s : State} (h : InitInv s) : InitInv (s.transmit r) := by
  obtain ⟨hl, -, -, ht⟩ | ⟨-, ht⟩ := transmit_cases r s <;> rw [ht]
  · have hi := init_of_lInit h hl
    obtain ⟨h1, h2, h3, -⟩ := h
    exact ⟨h1, h2, h3, fun h0 => by simp [hi] at h0⟩
  · exact h

theorem initInv_syncL {a b c : Bool} {s : State} (h : InitInv s) : InitInv (s.syncL a b c) := by
  obtain ⟨hp, -, hb, hq⟩ := h
  refine ⟨hp, nofun, fun x hx hx1 => ?_, hq⟩
  rcases mem_shiftIn hx with rfl | hx
  · rcases sample_cases c s.h.init s.chg.init with hv | ⟨-, hv⟩
    · exact hv ▸ hx1
    · rw [hv, hp] at hx1
      cases hx1
  · exact hb x hx hx1

theorem initInv_lStep {r a b c : Bool} {s t : State} (h : InitInv s) (hs : lStep r a b c s = .next t) : InitInv t := by
  obtain ⟨u, hm, rfl⟩ := lStep_move hs
  obtain ⟨-, hh, -, -, -, -, htxR, -, -, hsync, -, -, -, hchg⟩ := hm.frame
  have hu : InitInv u := by
    rw [InitInv, hh, htxR, hsync, hchg]
    exact initInv_transmit r h
  exact initInv_syncL hu

/-! ### The framing buffer -/

theorem frameInv_move {s t : State} (h : FrameInv s) (hm : QueueMove s t) : FrameInv t := by
  obtain ⟨hcfg, hl, -⟩ := hm.frame
  rw [FrameInv, hcfg, hl]
  exact h

theorem frameInv_hStep {o a b : Bool} {s t : State} (h : FrameInv s) (hs : hStep o a b s = .next t) : FrameInv t := by
  obtain ⟨e, u, -, hm, rfl⟩ := hStep_move hs
  have hu : FrameInv u := frameInv_move (s := s.atPort e) h hm
  exact hu

/-- While the buffer takes bytes no publish runs (R42). -/
theorem fPub_false_of_open {s : State} (h : FrameInv s) (fs : s.l.fState = .empty ∨ s.l.fState = .accum) :
    s.l.fPub = false := by
  obtain ⟨-, hE, hA, -⟩ := h
  exact fs.elim (fun h => (hE h).2.1) fun h => (hA h).2.2

/-- R42's relations survive each framing move. -/
theorem frameInv_framing {s t : State} (h : FrameInv s) (hm : FramingMove s t) :
    FrameInv t := by
  have hpub := fPub_false_of_open h
  obtain ⟨h0, hE, hA, hT, hO, hP⟩ := h
  have hclosed : s.l.fState = .termd ∨ s.l.fState = .ovf → s.l.fState ≠ .empty ∧ s.l.fState ≠ .accum := by
    rintro (fs | fs) <;> simp [fs]
  cases hm with
  | none => exact ⟨h0, hE, hA, hT, hO, hP⟩
  | term b rest fs room hb =>
    have hidx : s.l.fPidx ≤ s.l.fCursor := by simp [h0 (hpub fs)]
    exact ⟨h0, nofun, nofun, fun _ => ⟨Nat.le_sub_one_of_lt room, rfl⟩, nofun, fun _ => hidx⟩
  | full b rest fs room hb =>
    have hidx : s.l.fPidx ≤ s.cfg.asmCap := by simp [h0 (hpub fs)]
    exact ⟨h0, nofun, nofun, nofun, fun _ => ⟨rfl, rfl⟩, fun _ => hidx⟩
  | byte b rest fs room hb =>
    exact ⟨h0, nofun, fun _ => ⟨Nat.succ_pos _, Nat.le_sub_one_of_lt room, hpub fs⟩, nofun, nofun,
      by simp [State.takeByte]⟩
  | start fs pub room =>
    exact ⟨nofun, fun h => absurd h (hclosed fs).1, fun h => absurd h (hclosed fs).2, hT, hO, fun _ => Nat.zero_le _⟩
  | drop fs pub => exact ⟨h0, fun _ => ⟨rfl, pub, h0 pub⟩, nofun, nofun, nofun, by simp⟩
  | entry fs pub more inside =>
    exact ⟨fun h => absurd h (ne_false_of_eq_true pub), fun h => absurd h (hclosed fs).1,
      fun h => absurd h (hclosed fs).2, hT, hO, fun _ => more⟩
  | marker fs pub done => exact ⟨fun _ => rfl, fun _ => ⟨rfl, rfl, rfl⟩, nofun, nofun, nofun, by simp⟩

theorem frameInv_lStep {r a b c : Bool} {s t : State} (h : FrameInv s) (hs : lStep r a b c s = .next t) :
    FrameInv t := by
  obtain ⟨u, hm, rfl⟩ := lStep_move hs
  have hv : FrameInv (s.transmit r) := by
    rw [transmit_frame]
    exact h
  have hu : FrameInv u := frameInv_framing hv hm
  exact hu

end Sys2Proof.Machine
end

section
/-! PROOFS. The pointers of a FIFO and the chains that carry them: `FifoInv` survives a push with room seen, a pop
with an entry seen, and the shift of either chain, so TX and RX keep it at both edges (spec/20_memory.md R86 to R94,
R110, R111; spec/41_line_engines.md R238). -/

namespace Sys2Proof.Machine

/-! ### Counters modulo a power of two -/

theorem subMod_self {w a : Nat} (ha : a < 2 ^ w) : subMod w a a = 0 := by simp [subMod_eq ha ha]

theorem eq_of_subMod_eq_zero {w a b : Nat} (ha : a < 2 ^ w) (hb : b < 2 ^ w) (h : subMod w a b = 0) : a = b := by
  rw [subMod_eq ha hb] at h
  split at h <;> omega

/-- The next value of a counter, without the modulus. -/
theorem succ_mod_cases {a n : Nat} (ha : a < n) :
    (a + 1 < n ∧ (a + 1) % n = a + 1) ∨ (a + 1 = n ∧ (a + 1) % n = 0) := by
  rcases Nat.lt_or_eq_of_le ha with h | h
  · exact .inl ⟨h, Nat.mod_eq_of_lt h⟩
  · exact .inr ⟨h, by rw [← h]; exact Nat.mod_self _⟩

/-- Advancing the pointer ahead adds one to the distance, unless it wraps. -/
theorem subMod_succ_left {w a b : Nat} (ha : a < 2 ^ w) (hb : b < 2 ^ w) (h : subMod w a b + 1 < 2 ^ w) :
    subMod w ((a + 1) % 2 ^ w) b = subMod w a b + 1 := by
  rw [subMod_eq ha hb] at h ⊢
  rw [subMod_eq (Nat.mod_lt _ (Nat.two_pow_pos w)) hb]
  obtain ⟨h1, h2⟩ | ⟨h1, h2⟩ := succ_mod_cases ha <;> rw [h2] <;> split at h <;> split <;> omega

/-- Advancing the pointer behind takes one from a distance that is not 0. -/
theorem subMod_succ_right {w a b : Nat} (ha : a < 2 ^ w) (hb : b < 2 ^ w) (h : 0 < subMod w a b) :
    subMod w a ((b + 1) % 2 ^ w) = subMod w a b - 1 := by
  rw [subMod_eq ha hb] at h ⊢
  rw [subMod_eq ha (Nat.mod_lt _ (Nat.two_pow_pos w))]
  obtain ⟨h1, h2⟩ | ⟨h1, h2⟩ := succ_mod_cases hb <;> rw [h2] <;> split at h <;> split <;> omega

/-- The pointer behind, advanced by the distance, is the pointer ahead. -/
theorem add_subMod {w a b : Nat} (ha : a < 2 ^ w) (hb : b < 2 ^ w) : (b + subMod w a b) % 2 ^ w = a := by
  rw [subMod_eq ha hb]
  split
  next h => rw [Nat.add_sub_cancel' h, Nat.mod_eq_of_lt ha]
  next h => rw [Nat.add_sub_cancel' (by omega), Nat.add_mod_right, Nat.mod_eq_of_lt ha]

/-- The distance to a pointer by its Gray copy (R86). -/
theorem behind_gray {pw w : Nat} {r : GrayCounter} (hr : r.bin < 2 ^ pw) (hg : r.gray = b2g r.bin) :
    behind pw w r.gray = subMod pw w r.bin := by rw [behind, hg, g2b_b2g hr]

theorem ahead_gray {pw r : Nat} {w : GrayCounter} (hw : w.bin < 2 ^ pw) (hg : w.gray = b2g w.bin) :
    ahead pw r w.gray = subMod pw w.bin r := by rw [ahead, hg, g2b_b2g hw]

/-! ### Chains -/

theorem synced_mem {chain : List Nat} (h : chain ≠ []) : synced chain ∈ chain := by
  rw [synced, List.getLastD_eq_getLast?, List.getLast?_eq_some_getLast h]
  exact List.getLast_mem h

/-- In a chain ordered by `R`, the synchronised value is the last (R90). -/
theorem rel_synced {R : Nat → Nat → Prop} [Std.Refl R] {f : Nat → Nat} {pre chain : List Nat} (hne : chain ≠ [])
    (h : ((pre ++ chain).map f).Pairwise R) {g : Nat} (hg : g ∈ pre ++ chain) : R (f g) (f (synced chain)) := by
  have hl := h.rel_getLast (List.mem_map_of_mem hg)
  rw [List.getLast_map, List.getLast_append_of_ne_nil _ hne] at hl
  rwa [synced, List.getLastD_eq_getLast?, List.getLast?_eq_some_getLast hne]

/-- A shift keeps a chain's order and what holds of its values, when both hold of the source's current value too:
stage 1 takes that, or the previous value of a fresh source, which is the only stale one (R89, R91, R92). -/
theorem chain_shift {R : Nat → Nat → Prop} {f : Nat → Nat} {P : Nat → Prop} {c : Change Nat} {chain : List Nat}
    {cur : Nat} (d : Bool) (hR : ((stale c ++ chain).map f).Pairwise R) (hP : ∀ g ∈ stale c ++ chain, P g)
    (hcurR : ∀ g ∈ chain, R (f cur) (f g)) (hcurP : P cur) :
    ((stale c.settle ++ shiftIn (sample d cur c) chain).map f).Pairwise R ∧
      ∀ g ∈ stale c.settle ++ shiftIn (sample d cur c) chain, P g := by
  have hsub : (shiftIn (sample d cur c) chain).Sublist (sample d cur c :: chain) := List.dropLast_sublist _
  have hlong : ((sample d cur c :: chain).map f).Pairwise R ∧ ∀ g ∈ sample d cur c :: chain, P g := by
    obtain ⟨-, hRc, -⟩ := List.pairwise_append.1 (by simpa using hR)
    rcases sample_cases d cur c with hs | ⟨hf, hs⟩ <;> rw [hs]
    · refine ⟨List.pairwise_cons.2 ⟨by simpa using hcurR, hRc⟩, fun g hg => ?_⟩
      rcases List.mem_cons.1 hg with rfl | hg
      · exact hcurP
      · exact hP g (List.mem_append_right _ hg)
    · have hst : stale c = [c.prev] := by simp [stale, hf]
      rw [hst] at hR hP
      exact ⟨hR, hP⟩
  have hst : stale c.settle = [] := by simp [stale]
  rw [hst]
  exact ⟨hlong.1.sublist (hsub.map f), fun g hg => hlong.2 g (hsub.subset hg)⟩

/-- What a shifted chain holds is below any bound of the chain, of the source, and of its previous value. -/
theorem lt_of_mem_shift {n cur : Nat} {c : Change Nat} {chain : List Nat} {d : Bool} (hcur : cur < n)
    (hprev : c.prev < n) (hchain : ∀ g ∈ chain, g < n) : ∀ g ∈ shiftIn (sample d cur c) chain, g < n := by
  intro g hg
  rcases mem_shiftIn hg with rfl | hg
  · rcases sample_cases d cur c with hs | ⟨-, hs⟩ <;> rw [hs] <;> assumption
  · exact hchain g hg

/-! ### One FIFO -/

section

variable {pw depth : Nat} {w r : GrayCounter} {wC rC : Change Nat} {rs ws : List Nat}

/-- The invariant's bound on all values on their way, side by side. -/
theorem fifo_bound_iff : (∀ g ∈ wC.prev :: rC.prev :: (rs ++ ws), g < 2 ^ pw) ↔
    wC.prev < 2 ^ pw ∧ rC.prev < 2 ^ pw ∧ (∀ g ∈ rs, g < 2 ^ pw) ∧ ∀ g ∈ ws, g < 2 ^ pw := by
  simp only [List.mem_cons, List.mem_append, or_imp, forall_and, forall_eq]

/-- The invariant holds of a FIFO right after reset (R86). -/
theorem fifoInv_reset (pw depth n : Nat) :
    FifoInv pw depth ⟨0, 0⟩ ⟨0, 0⟩ ⟨0, false⟩ ⟨0, false⟩ (List.replicate n 0) (List.replicate n 0) := by
  have hpos := Nat.two_pow_pos pw
  have hb : behind pw 0 0 = 0 := by simp [behind, subMod_self hpos]
  have ha : ahead pw 0 0 = 0 := by simp [ahead, subMod_self hpos]
  refine ⟨hpos, hpos, rfl, rfl, fifo_bound_iff.2 ⟨hpos, hpos, ?_, ?_⟩, ?_, ?_, ?_, ?_, ?_⟩ <;>
    simp +contextual [stale, List.mem_replicate, List.pairwise_replicate, hb, ha, subMod_self hpos]

/-- What the writer believes is in the FIFO is at least what is (R111). -/
theorem occ_le_behind_synced (h : FifoInv pw depth w r wC rC rs ws) (hne : rs ≠ []) :
    subMod pw w.bin r.bin ≤ behind pw w.bin (synced rs) ∧ behind pw w.bin (synced rs) ≤ depth := by
  obtain ⟨-, -, -, -, -, -, -, hrb, -, -⟩ := h
  exact hrb _ (List.mem_append_right _ (synced_mem hne))

/-- What the reader believes is in the FIFO is at most what is (R111). -/
theorem ahead_synced_le_occ (h : FifoInv pw depth w r wC rC rs ws) (hne : ws ≠ []) :
    ahead pw r.bin (synced ws) ≤ subMod pw w.bin r.bin := by
  obtain ⟨-, -, -, -, -, -, -, -, -, hwb⟩ := h
  exact hwb _ (List.mem_append_right _ (synced_mem hne))

/-- A reader that sees an entry counts at least one (R102, R103). -/
theorem ahead_synced_pos (h : FifoInv pw depth w r wC rC rs ws) (hne : ws ≠ []) (seen : r.gray ≠ synced ws) :
    0 < ahead pw r.bin (synced ws) := by
  obtain ⟨-, hr, -, hrg, hlt, -⟩ := h
  obtain ⟨-, -, -, hwl⟩ := fifo_bound_iff.1 hlt
  refine Nat.pos_of_ne_zero fun h0 => seen ?_
  rw [hrg, ← eq_of_subMod_eq_zero (g2b_lt pw _) hr h0, b2g_g2b (hwl _ (synced_mem hne))]

/-- A push with room seen keeps the invariant (R86, R94, R106, R110): every value of the read pointer on its way is
less than a whole depth back, so one more entry keeps it within the depth; the old write pointer becomes the stale
value. -/
theorem fifoInv_push (h : FifoInv pw depth w r wC rC rs ws) (hd : depth < 2 ^ pw) (hne : rs ≠ [])
    (room : behind pw w.bin (synced rs) < depth) : FifoInv pw depth (w.inc pw) r ⟨w.gray, true⟩ rC rs ws := by
  have hle : subMod pw w.bin r.bin < depth := Nat.lt_of_le_of_lt (occ_le_behind_synced h hne).1 room
  obtain ⟨hw, hr, hwg, hrg, hlt, -, hrs, hrb, hws, hwb⟩ := h
  obtain ⟨-, hrp, hrl, hwl⟩ := fifo_bound_iff.1 hlt
  have hbelow : ∀ g ∈ stale rC ++ rs, behind pw w.bin g < depth :=
    fun g hg => Nat.lt_of_le_of_lt (rel_synced hne hrs hg) room
  have hstep : ∀ g ∈ stale rC ++ rs, behind pw ((w.bin + 1) % 2 ^ pw) g = behind pw w.bin g + 1 :=
    fun g hg => subMod_succ_left hw (g2b_lt pw g) (Nat.lt_of_le_of_lt (hbelow g hg) hd)
  have hocc' : subMod pw ((w.bin + 1) % 2 ^ pw) r.bin = subMod pw w.bin r.bin + 1 :=
    subMod_succ_left hw hr (Nat.lt_of_le_of_lt hle hd)
  have hgray : ahead pw r.bin w.gray = subMod pw w.bin r.bin := ahead_gray hw hwg
  have hall : ∀ g ∈ ws, ahead pw r.bin g ≤ subMod pw w.bin r.bin := fun g hg => hwb g (List.mem_append_right _ hg)
  refine ⟨Nat.mod_lt _ (Nat.two_pow_pos pw), hr, rfl, hrg, fifo_bound_iff.2 ⟨hwg ▸ b2g_lt hw, hrp, hrl, hwl⟩, ?_, ?_,
    ?_, ?_, ?_⟩
  · simpa [GrayCounter.inc, hocc'] using hle
  · refine List.pairwise_map.2 ((List.pairwise_map.1 hrs).imp_of_mem fun {x y} hx hy hxy => ?_)
    simpa [GrayCounter.inc, hstep x hx, hstep y hy] using hxy
  · intro g hg
    have := hrb g hg
    simpa [GrayCounter.inc, hocc', hstep g hg] using ⟨this.1, hbelow g hg⟩
  · obtain ⟨-, htail, -⟩ := List.pairwise_append.1 (by simpa using hws)
    exact List.pairwise_cons.2 ⟨by simpa [hgray] using hall, htail⟩
  · intro g hg
    simp only [GrayCounter.inc, hocc']
    rcases List.mem_cons.1 hg with rfl | hg
    · exact Nat.le_succ_of_le (Nat.le_of_eq hgray)
    · exact Nat.le_succ_of_le (hall g hg)

/-- A pop with an entry seen keeps the invariant (R86, R94, R107, R110): every value of the write pointer on its way
is past the read pointer; the old read pointer becomes the stale value. -/
theorem fifoInv_pop (h : FifoInv pw depth w r wC rC rs ws) (hne : ws ≠ []) (seen : r.gray ≠ synced ws) :
    FifoInv pw depth w (r.inc pw) wC ⟨r.gray, true⟩ rs ws := by
  have hlast := ahead_synced_pos h hne seen
  have hone := Nat.lt_of_lt_of_le hlast (ahead_synced_le_occ h hne)
  obtain ⟨hw, hr, hwg, hrg, hlt, hocc, hrs, hrb, hws, hwb⟩ := h
  obtain ⟨hwp, -, hrl, hwl⟩ := fifo_bound_iff.1 hlt
  have hpos : ∀ g ∈ stale wC ++ ws, 0 < ahead pw r.bin g := fun g hg => Nat.lt_of_lt_of_le hlast (rel_synced hne hws hg)
  have hstep : ∀ g ∈ stale wC ++ ws, ahead pw ((r.bin + 1) % 2 ^ pw) g = ahead pw r.bin g - 1 :=
    fun g hg => subMod_succ_right (g2b_lt pw g) hr (hpos g hg)
  have hocc' : subMod pw w.bin ((r.bin + 1) % 2 ^ pw) = subMod pw w.bin r.bin - 1 := subMod_succ_right hw hr hone
  have hgray : behind pw w.bin r.gray = subMod pw w.bin r.bin := behind_gray hr hrg
  have hall : ∀ g ∈ rs, subMod pw w.bin r.bin ≤ behind pw w.bin g ∧ behind pw w.bin g ≤ depth :=
    fun g hg => hrb g (List.mem_append_right _ hg)
  refine ⟨hw, Nat.mod_lt _ (Nat.two_pow_pos pw), hwg, rfl, fifo_bound_iff.2 ⟨hwp, hrg ▸ b2g_lt hr, hrl, hwl⟩, ?_, ?_,
    ?_, ?_, ?_⟩
  · simp only [GrayCounter.inc, hocc']
    omega
  · obtain ⟨-, htail, -⟩ := List.pairwise_append.1 (by simpa using hrs)
    refine List.pairwise_cons.2 ⟨?_, htail⟩
    simpa [hgray] using fun g hg => (hall g hg).1
  · intro g hg
    have hg : subMod pw w.bin r.bin ≤ behind pw w.bin g ∧ behind pw w.bin g ≤ depth := by
      rcases List.mem_cons.1 hg with rfl | hg
      · exact ⟨Nat.le_of_eq hgray.symm, Nat.le_trans (Nat.le_of_eq hgray) hocc⟩
      · exact hall g hg
    simp only [GrayCounter.inc, hocc']
    omega
  · refine List.pairwise_map.2 ((List.pairwise_map.1 hws).imp_of_mem fun {x y} hx hy hxy => ?_)
    simp only [GrayCounter.inc, hstep x hx, hstep y hy]
    omega
  · intro g hg
    have := hwb g hg
    simp only [GrayCounter.inc, hocc', hstep g hg]
    omega

/-- The shift of the chain that carries the read pointer to the writer (R89, R92). -/
theorem fifoInv_shiftRead (d : Bool) (h : FifoInv pw depth w r wC rC rs ws) :
    FifoInv pw depth w r wC rC.settle (shiftIn (sample d r.gray rC) rs) ws := by
  obtain ⟨hw, hr, hwg, hrg, hlt, hocc, hrs, hrb, hws, hwb⟩ := h
  obtain ⟨hwp, hrp, hrl, hwl⟩ := fifo_bound_iff.1 hlt
  have hgray : behind pw w.bin r.gray = subMod pw w.bin r.bin := behind_gray hr hrg
  obtain ⟨hrs', hrb'⟩ := chain_shift (cur := r.gray) d hrs hrb
    (fun g hg => by rw [hgray]; exact (hrb g (List.mem_append_right _ hg)).1) ⟨Nat.le_of_eq hgray.symm, hgray ▸ hocc⟩
  exact ⟨hw, hr, hwg, hrg, fifo_bound_iff.2 ⟨hwp, hrp, lt_of_mem_shift (hrg ▸ b2g_lt hr) hrp hrl, hwl⟩, hocc, hrs',
    hrb', hws, hwb⟩

/-- The shift of the chain that carries the write pointer to the reader (R89, R92). -/
theorem fifoInv_shiftWrite (d : Bool) (h : FifoInv pw depth w r wC rC rs ws) :
    FifoInv pw depth w r wC.settle rC rs (shiftIn (sample d w.gray wC) ws) := by
  obtain ⟨hw, hr, hwg, hrg, hlt, hocc, hrs, hrb, hws, hwb⟩ := h
  obtain ⟨hwp, hrp, hrl, hwl⟩ := fifo_bound_iff.1 hlt
  have hgray : ahead pw r.bin w.gray = subMod pw w.bin r.bin := ahead_gray hw hwg
  obtain ⟨hws', hwb'⟩ := chain_shift (cur := w.gray) d hws hwb
    (fun g hg => by rw [hgray]; exact hwb g (List.mem_append_right _ hg)) (Nat.le_of_eq hgray)
  exact ⟨hw, hr, hwg, hrg, fifo_bound_iff.2 ⟨hwp, hrp, hrl, lt_of_mem_shift (hwg ▸ b2g_lt hw) hwp hwl⟩, hocc, hrs, hrb,
    hws', hwb'⟩

end

end Sys2Proof.Machine
end

section
/-! PROOFS. TX and RX keep `FifoInv` at both edges, and a running publish keeps its room (spec/20_memory.md R86 to R111;
spec/41_line_engines.md R238). -/

namespace Sys2Proof.Machine

/-- No chain is empty: SYNC_STAGES is at least 2 (R10, R89). -/
theorem chains_ne_nil {s : State} (h : CtlInv s) : s.h.txRsync ≠ [] ∧ s.h.rxWsync ≠ [] ∧ s.l.txWsync ≠ [] ∧
    s.l.rxRsync ≠ [] ∧ s.l.initSync ≠ [] := by
  obtain ⟨hl, -, -, -, -, -, l1, l2, l3, l4, l5⟩ := h
  obtain ⟨-, -, -, -, -, hs, -⟩ := (legal_iff s.cfg).1 hl
  refine ⟨?_, ?_, ?_, ?_, ?_⟩ <;> apply List.ne_nil_of_length_pos <;> omega

theorem txDepth_lt (c : Config) : c.txDepth < 2 ^ c.txPw := Nat.pow_lt_pow_right (by decide) (Nat.lt_succ_self _)

theorem rxDepth_lt (c : Config) : c.rxDepth < 2 ^ c.rxPw := Nat.pow_lt_pow_right (by decide) (Nat.lt_succ_self _)

/-! ### TX -/

/-- A TX that H does not see full has room (R101, R111). -/
theorem tx_room {s : State} (hc : CtlInv s) (h : TxInv s) (hf : s.txFullH = false) :
    behind s.cfg.txPw s.h.txW.bin (synced s.h.txRsync) < s.cfg.txDepth := by
  have hne : s.txCntH ≠ s.cfg.txDepth := by simpa [State.txFullH] using hf
  exact Nat.lt_of_le_of_ne (occ_le_behind_synced h (chains_ne_nil hc).1).2 hne

theorem txInv_of_controlOnly {s t : State} (h : TxInv s) (r : ControlOnly s t) : TxInv t := by
  rw [TxInv, r.cfg, r.l, r.txW, r.txRsync, r.chgTxW, r.chgTxR]
  exact h

theorem txInv_move {s t : State} (hc : CtlInv s) (h : TxInv s) (hm : QueueMove s t) : TxInv t := by
  cases hm with
  | keep r _ => exact txInv_of_controlOnly h r
  | push b _ room r _ =>
    have hp : TxInv (s.pushTx b) := fifoInv_push h (txDepth_lt s.cfg) (chains_ne_nil hc).1 (tx_room hc h room)
    exact txInv_of_controlOnly hp r
  | pop _ r _ => exact txInv_of_controlOnly (s := s.popRx) h r

theorem txInv_finishH {a b : Bool} {s : State} (h : TxInv s) : TxInv (s.finishH a b) := fifoInv_shiftRead a h

theorem txInv_hStep {o a b : Bool} {s t : State} (hc : CtlInv s) (h : TxInv s) (hs : hStep o a b s = .next t) :
    TxInv t := by
  obtain ⟨e, u, -, hm, rfl⟩ := hStep_move hs
  exact txInv_finishH (txInv_move (s := s.atPort e) hc h hm)

/-- A byte is sent when L sees one (R222). -/
theorem txInv_transmit (r : Bool) {s : State} (hc : CtlInv s) (h : TxInv s) : TxInv (s.transmit r) := by
  obtain ⟨-, he, -, ht⟩ | ⟨-, ht⟩ := transmit_cases r s <;> rw [ht]
  · exact fifoInv_pop h (chains_ne_nil hc).2.2.1 (by simpa [State.txEmptyL] using he)
  · exact h

theorem txInv_lStep {r a b c : Bool} {s t : State} (hc : CtlInv s) (h : TxInv s) (hs : lStep r a b c s = .next t) :
    TxInv t := by
  obtain ⟨u, hm, rfl⟩ := lStep_move hs
  obtain ⟨hcfg, hh, -, -, -, -, h1, h2, -, -, h3, h4, -⟩ := hm.frame
  have hu : TxInv u := by
    rw [TxInv, hcfg, hh, h1, h2, h3, h4]
    exact txInv_transmit r hc h
  exact fifoInv_shiftWrite a hu

/-! ### RX -/

theorem rxInv_of_controlOnly {s t : State} (h : RxInv s) (r : ControlOnly s t) : RxInv t := by
  rw [RxInv, State.rxFreeL, State.rxCntL, r.cfg, r.l, r.rxR, r.rxWsync, r.chgRxW, r.chgRxR]
  exact h

theorem rxInv_move {s t : State} (hc : CtlInv s) (h : RxInv s) (hm : QueueMove s t) : RxInv t := by
  cases hm with
  | keep r _ => exact rxInv_of_controlOnly h r
  | push b _ _ r _ => exact rxInv_of_controlOnly (s := s.pushTx b) h r
  | pop seen r _ =>
    have hp : RxInv s.popRx :=
      ⟨fifoInv_pop h.1 (chains_ne_nil hc).2.1 (by simpa [State.rxEmptyH] using seen), h.2⟩
    exact rxInv_of_controlOnly hp r

theorem rxInv_finishH {a b : Bool} {s : State} (h : RxInv s) : RxInv (s.finishH a b) :=
  ⟨fifoInv_shiftWrite b h.1, h.2⟩

theorem rxInv_hStep {o a b : Bool} {s t : State} (hc : CtlInv s) (h : RxInv s) (hs : hStep o a b s = .next t) :
    RxInv t := by
  obtain ⟨e, u, -, hm, rfl⟩ := hStep_move hs
  exact rxInv_finishH (rxInv_move (s := s.atPort e) hc h hm)

/-- A running publish has room for its next entry (R238). -/
theorem rx_room {s : State} (hf : FrameInv s) (h : RxInv s) (fs : s.l.fState = .termd ∨ s.l.fState = .ovf)
    (pub : s.l.fPub = true) : s.rxCntL < s.cfg.rxDepth := by
  obtain ⟨-, -, -, -, -, hidx⟩ := hf
  have := hidx fs
  have := h.2 pub
  rw [State.rxFreeL] at this
  omega

/-- A push to RX with room seen (R86, R106), `l` keeping all but the write pointer of RX's pointers. -/
theorem rxFifo_push {s : State} (hc : CtlInv s) (h : RxInv s) (room : s.rxCntL < s.cfg.rxDepth) :
    FifoInv s.cfg.rxPw s.cfg.rxDepth (s.l.rxW.inc s.cfg.rxPw) s.h.rxR ⟨s.l.rxW.gray, true⟩ s.chg.rxR s.l.rxRsync
      s.h.rxWsync :=
  fifoInv_push h.1 (rxDepth_lt s.cfg) (chains_ne_nil hc).2.2.2.1 room

/-- What L believes is in RX grows by the entry it pushes (R104). -/
theorem rxCntL_push {s : State} (h : RxInv s) (room : s.rxCntL < s.cfg.rxDepth) :
    subMod s.cfg.rxPw (s.l.rxW.inc s.cfg.rxPw).bin (g2b s.cfg.rxPw (synced s.l.rxRsync)) = s.rxCntL + 1 := by
  obtain ⟨⟨hw, -⟩, -⟩ := h
  have hlt := rxDepth_lt s.cfg
  exact subMod_succ_left hw (g2b_lt _ _) (Nat.lt_of_le_of_lt room hlt)

/-- Each framing move keeps RX's pointers in order, and the room of the publish it starts or goes on with (R236 to
R238). -/
theorem rxInv_framing {s t : State} (hc : CtlInv s) (hf : FrameInv s) (h : RxInv s) (hm : FramingMove s t) :
    RxInv t := by
  have hpub := fPub_false_of_open hf
  cases hm with
  | none => exact h
  | term b rest fs room hb => exact ⟨h.1, fun hp => absurd hp (ne_true_of_eq_false (hpub fs))⟩
  | full b rest fs room hb => exact ⟨h.1, fun hp => absurd hp (ne_true_of_eq_false (hpub fs))⟩
  | byte b rest fs room hb => exact ⟨h.1, fun hp => absurd hp (ne_true_of_eq_false (hpub fs))⟩
  | start fs pub room => exact ⟨h.1, fun _ => room⟩
  | drop fs pub => exact ⟨h.1, fun hp => absurd hp (ne_true_of_eq_false pub)⟩
  | entry fs pub more inside =>
    have room := rx_room hf h fs pub
    refine ⟨rxFifo_push hc h room, fun _ => ?_⟩
    have hold := h.2 pub
    have hcnt := rxCntL_push h room
    simp only [State.rxFreeL, State.rxCntL] at hold hcnt room ⊢
    simp only [pushRx_cfg]
    omega
  | marker fs pub done => exact ⟨rxFifo_push hc h (rx_room hf h fs pub), nofun⟩

/-- The shift of the read pointer's chain does not take room from L (R89, R238). -/
theorem behind_synced_shift_le {pw depth : Nat} {w r : GrayCounter} {wC rC : Change Nat} {rs ws : List Nat} (d : Bool)
    (h : FifoInv pw depth w r wC rC rs ws) (hne : rs ≠ []) :
    behind pw w.bin (synced (shiftIn (sample d r.gray rC) rs)) ≤ behind pw w.bin (synced rs) := by
  have hocc := (occ_le_behind_synced h hne).1
  obtain ⟨-, hr, -, hrg, -, -, hrs, -⟩ := h
  have hlast : ∀ g ∈ stale rC ++ rs, behind pw w.bin g ≤ behind pw w.bin (synced rs) :=
    fun g hg => rel_synced hne hrs hg
  have hne' : shiftIn (sample d r.gray rC) rs ≠ [] := by
    rw [← List.length_pos_iff_ne_nil, shiftIn_length]
    exact List.length_pos_iff_ne_nil.2 hne
  rcases mem_shiftIn (synced_mem hne') with hv | hv
  · rw [hv]
    rcases sample_cases d r.gray rC with hs | ⟨hfresh, hs⟩ <;> rw [hs]
    · rwa [behind_gray hr hrg]
    · exact hlast _ (List.mem_append_left _ (by simp [stale, hfresh]))
  · exact hlast _ (List.mem_append_right _ hv)

theorem rxInv_syncL {a b c : Bool} {s : State} (hne : s.l.rxRsync ≠ []) (h : RxInv s) : RxInv (s.syncL a b c) := by
  refine ⟨fifoInv_shiftRead b h.1, fun hp => ?_⟩
  have hroom := h.2 hp
  have hle : (s.syncL a b c).rxCntL ≤ s.rxCntL := behind_synced_shift_le b h.1 hne
  simp only [State.rxFreeL, syncL_cfg, syncL_l] at hroom ⊢
  omega

theorem rxInv_lStep {r a b c : Bool} {s t : State} (hc : CtlInv s) (hf : FrameInv s) (h : RxInv s)
    (hs : lStep r a b c s = .next t) : RxInv t := by
  obtain ⟨u, hm, rfl⟩ := lStep_move hs
  have hchain : u.l.rxRsync = s.l.rxRsync := by
    obtain ⟨-, -, -, -, -, -, -, -, hu, -⟩ := hm.frame
    rw [hu, transmit_frame]
  have hv : CtlInv (s.transmit r) ∧ FrameInv (s.transmit r) ∧ RxInv (s.transmit r) := by
    rw [transmit_frame]
    exact ⟨hc, hf, h⟩
  obtain ⟨hc', hf', h'⟩ := hv
  exact rxInv_syncL (hchain ▸ (chains_ne_nil hc).2.2.2.1) (rxInv_framing hc' hf' h' hm)

end Sys2Proof.Machine
end

section
/-! PROOFS. The contents of the queues as windows of their arrays, and what the arrays hold: every array stays
canonical and in bounds, and every entry a rule may read has been written (spec/10_state.md R43; spec/20_memory.md
R80, R83, R106, R107, R112). -/

namespace Sys2Proof.Machine

/-! ### Windows -/

/-- The `n` entries from `r` on of an array of `depth` entries, read by `f`, oldest first (R112). -/
def window {α : Type} (f : Nat → α) (depth r n : Nat) : List α := (List.range n).map fun k => f ((r + k) % depth)

theorem rxQueue_eq_window (s : State) : rxQueue s = window s.mem.rxAt s.cfg.rxDepth s.h.rxR.bin s.occRx := rfl

theorem forall_mem_window {α : Type} {f : Nat → α} {depth r n : Nat} {P : α → Prop} :
    (∀ x ∈ window f depth r n, P x) ↔ ∀ k, k < n → P (f ((r + k) % depth)) := by
  simp [window]

section

variable {α : Type} {f g : Nat → α} {aw : Nat} {w r : GrayCounter} {wC rC : Change Nat} {rs ws : List Nat}

/-- The entry at the write pointer comes after the last of the window (R106). -/
theorem window_end (hw : w.bin < 2 ^ (aw + 1)) (hr : r.bin < 2 ^ (aw + 1)) :
    (r.bin + subMod (aw + 1) w.bin r.bin) % 2 ^ aw = w.bin % 2 ^ aw := by
  rw [← Nat.mod_mod_of_dvd _ (Nat.pow_dvd_pow 2 (Nat.le_succ aw)), add_subMod hw hr]

/-- A push with room seen adds the entry at the write pointer at the back, and overwrites no entry of the window. -/
theorem window_push (h : FifoInv (aw + 1) (2 ^ aw) w r wC rC rs ws) (hne : rs ≠ [])
    (room : behind (aw + 1) w.bin (synced rs) < 2 ^ aw) (hfg : ∀ i, i ≠ w.bin % 2 ^ aw → g i = f i) :
    window g (2 ^ aw) r.bin (subMod (aw + 1) (w.inc (aw + 1)).bin r.bin) =
      window f (2 ^ aw) r.bin (subMod (aw + 1) w.bin r.bin) ++ [g (w.bin % 2 ^ aw)] := by
  have hocc := Nat.lt_of_le_of_lt (occ_le_behind_synced h hne).1 room
  have hlt : 2 ^ aw < 2 ^ (aw + 1) := Nat.pow_lt_pow_right (by decide) (Nat.lt_succ_self _)
  obtain ⟨hw, hr, -⟩ := h
  have hend := window_end hw hr
  have hsucc : subMod (aw + 1) (w.inc (aw + 1)).bin r.bin = subMod (aw + 1) w.bin r.bin + 1 :=
    subMod_succ_left hw hr (Nat.lt_of_le_of_lt hocc hlt)
  have hold : ∀ k ∈ List.range (subMod (aw + 1) w.bin r.bin), g ((r.bin + k) % 2 ^ aw) = f ((r.bin + k) % 2 ^ aw) := by
    intro k hk
    have hk := List.mem_range.1 hk
    refine hfg _ fun heq => ?_
    have hmod : k % 2 ^ aw = subMod (aw + 1) w.bin r.bin % 2 ^ aw :=
      Nat.ModEq.add_left_cancel' r.bin (heq.trans hend.symm)
    rw [Nat.mod_eq_of_lt (Nat.lt_trans hk hocc), Nat.mod_eq_of_lt hocc] at hmod
    omega
  rw [window, hsucc, List.range_succ, List.map_append, List.map_congr_left hold, List.map_singleton, hend, window]

/-- A pop with an entry seen takes the entry at the read pointer, the head of the window (R107). -/
theorem window_pop (h : FifoInv (aw + 1) (2 ^ aw) w r wC rC rs ws) (hne : ws ≠ []) (seen : r.gray ≠ synced ws) :
    window f (2 ^ aw) r.bin (subMod (aw + 1) w.bin r.bin) = f (r.bin % 2 ^ aw) ::
      window f (2 ^ aw) (r.inc (aw + 1)).bin (subMod (aw + 1) w.bin (r.inc (aw + 1)).bin) := by
  have hpos := Nat.lt_of_lt_of_le (ahead_synced_pos h hne seen) (ahead_synced_le_occ h hne)
  obtain ⟨hw, hr, -⟩ := h
  obtain ⟨n, hn⟩ := Nat.exists_eq_succ_of_ne_zero (Nat.pos_iff_ne_zero.1 hpos)
  have hpred : subMod (aw + 1) w.bin (r.inc (aw + 1)).bin = n := by
    have := subMod_succ_right hw hr hpos
    rw [hn] at this
    exact this
  have hidx : ∀ k, ((r.inc (aw + 1)).bin + k) % 2 ^ aw = (r.bin + (k + 1)) % 2 ^ aw := by
    intro k
    have hmod : (r.inc (aw + 1)).bin % 2 ^ aw = (r.bin + 1) % 2 ^ aw :=
      Nat.mod_mod_of_dvd _ (Nat.pow_dvd_pow 2 (Nat.le_succ aw))
    rw [Nat.add_mod, hmod, ← Nat.add_mod, Nat.add_assoc, Nat.add_comm 1 k]
  rw [hpred, hn, window, window, List.range_succ_eq_map]
  simp [hidx]

end

/-- A push to RX with room adds its entry at the back (R106, R112). -/
theorem rxQueue_pushRx {s : State} (e : Entry) (hc : CtlInv s) (h : RxInv s) (room : s.rxCntL < s.cfg.rxDepth) :
    rxQueue (s.pushRx e) = rxQueue s ++ [e] := by
  have hw := window_push (f := s.mem.rxAt) (g := (s.pushRx e).mem.rxAt) h.1 (chains_ne_nil hc).2.2.2.1 room
    fun i hi => by
      have hi : i ≠ s.l.rxW.bin % s.cfg.rxDepth := hi
      simp [Storage.rxAt, memory_read_write_other _ e hi]
  have hback : (s.pushRx e).mem.rxAt (s.l.rxW.bin % 2 ^ s.cfg.rxAw) = e := by
    simp [Storage.rxAt, Config.rxDepth]
  rw [hback] at hw
  exact hw

/-- A pop of RX with an entry seen takes the head H reads (R107, R112). -/
theorem rxQueue_popRx {s : State} (hc : CtlInv s) (h : RxInv s) (seen : s.rxEmptyH = false) :
    rxQueue s = s.rxHeadH :: rxQueue s.popRx :=
  window_pop (f := s.mem.rxAt) h.1 (chains_ne_nil hc).2.1 (by simpa [State.rxEmptyH] using seen)

/-! ### The arrays -/

theorem txDepth_pos (c : Config) : 0 < c.txDepth := Nat.two_pow_pos _

theorem rxDepth_pos (c : Config) : 0 < c.rxDepth := Nat.two_pow_pos _

theorem memInv_move {s t : State} (h : MemInv s) (hm : QueueMove s t) : MemInv t := by
  cases hm with
  | keep r _ =>
    rw [MemInv, r.mem, r.cfg]
    exact h
  | push b _ _ r _ =>
    obtain ⟨h1, h2, h3, h4, h5, h6⟩ := h
    rw [MemInv, r.mem, r.cfg]
    exact ⟨memory_write_wf h1 _ _, h2, h3, memory_write_bound h4 (Nat.mod_lt _ (txDepth_pos s.cfg)), h5, h6⟩
  | pop _ r _ =>
    rw [MemInv, r.mem, r.cfg]
    exact h

theorem memInv_hStep {o a b : Bool} {s t : State} (h : MemInv s) (hs : hStep o a b s = .next t) : MemInv t := by
  obtain ⟨e, u, -, hm, rfl⟩ := hStep_move hs
  have hu : MemInv u := memInv_move (s := s.atPort e) h hm
  exact hu

theorem memInv_pushRx {s : State} (e : Entry) (h : MemInv s) : MemInv (s.pushRx e) := by
  obtain ⟨h1, h2, h3, h4, h5, h6⟩ := h
  exact ⟨h1, memory_write_wf h2 _ _, h3, h4, memory_write_bound h5 (Nat.mod_lt _ (rxDepth_pos s.cfg)), h6⟩

theorem memInv_takeByte {b : Byte} {rest : List Byte} {l : LRegs} {s : State} (h : MemInv s)
    (room : s.l.fCursor < s.cfg.asmCap) : MemInv (s.takeByte b rest l) := by
  obtain ⟨h1, h2, h3, h4, h5, h6⟩ := h
  exact ⟨h1, h2, memory_write_wf h3 _ _, h4, h5, memory_write_bound h6 room⟩

theorem memInv_framing {s t : State} (h : MemInv s) (hm : FramingMove s t) : MemInv t := by
  cases hm with
  | none => exact h
  | term b rest fs room hb => exact memInv_takeByte h room
  | full b rest fs room hb => exact memInv_takeByte h (by omega)
  | byte b rest fs room hb => exact memInv_takeByte h (by omega)
  | start fs pub room => exact h
  | drop fs pub => exact h
  | entry fs pub more inside => exact memInv_pushRx _ h
  | marker fs pub done => exact memInv_pushRx _ h

theorem memInv_lStep {r a b c : Bool} {s t : State} (h : MemInv s) (hs : lStep r a b c s = .next t) : MemInv t := by
  obtain ⟨u, hm, rfl⟩ := lStep_move hs
  have hv : MemInv (s.transmit r) := by
    rw [transmit_frame]
    exact h
  have hu : MemInv u := memInv_framing hv hm
  exact hu

/-! ### Written entries -/

/-- `WrittenInv` with the two queues as windows. -/
theorem writtenInv_iff (s : State) : WrittenInv s ↔
    (∀ x ∈ window s.mem.tx.read s.cfg.txDepth s.l.txR.bin s.occTx, x.isSome = true) ∧
    (∀ x ∈ window s.mem.rx.read s.cfg.rxDepth s.h.rxR.bin s.occRx, x.isSome = true) ∧
    ∀ k, k < s.l.fCursor → (s.mem.asm.read k).isSome = true := by
  rw [forall_mem_window, forall_mem_window]

theorem writtenInv_of_controlOnly {s t : State} (h : WrittenInv s) (r : ControlOnly s t) : WrittenInv t := by
  rw [WrittenInv, State.occTx, State.occRx, r.cfg, r.l, r.mem, r.txW, r.rxR]
  exact h

theorem writtenInv_move {s t : State} (hc : CtlInv s) (ht : TxInv s) (hr : RxInv s) (h : WrittenInv s)
    (hm : QueueMove s t) : WrittenInv t := by
  obtain ⟨h1, h2, h3⟩ := (writtenInv_iff s).1 h
  cases hm with
  | keep r _ => exact writtenInv_of_controlOnly h r
  | push b _ room r _ =>
    have hw := window_push (f := s.mem.tx.read) (g := (s.pushTx b).mem.tx.read) ht (chains_ne_nil hc).1
      (tx_room hc ht room) fun i hi => memory_read_write_other _ b hi
    have hp : WrittenInv (s.pushTx b) := (writtenInv_iff _).2 ⟨?_, h2, h3⟩
    · exact writtenInv_of_controlOnly hp r
    · intro x hx
      rcases List.mem_append.1 (hw ▸ hx) with hx | hx
      · exact h1 x hx
      · rw [List.mem_singleton.1 hx]
        simp [Config.txDepth]
  | pop seen r _ =>
    have hw := window_pop (f := s.mem.rx.read) hr.1 (chains_ne_nil hc).2.1 (by simpa [State.rxEmptyH] using seen)
    have hp : WrittenInv s.popRx :=
      (writtenInv_iff _).2 ⟨h1, fun x hx => h2 x (hw ▸ List.mem_cons_of_mem _ hx), h3⟩
    exact writtenInv_of_controlOnly hp r

theorem writtenInv_hStep {o a b : Bool} {s t : State} (hc : CtlInv s) (ht : TxInv s) (hr : RxInv s) (h : WrittenInv s)
    (hs : hStep o a b s = .next t) : WrittenInv t := by
  obtain ⟨e, u, -, hm, rfl⟩ := hStep_move hs
  have hu : WrittenInv u := writtenInv_move (s := s.atPort e) hc ht hr h hm
  exact hu

theorem writtenInv_transmit (r : Bool) {s : State} (hc : CtlInv s) (ht : TxInv s) (h : WrittenInv s) :
    WrittenInv (s.transmit r) := by
  obtain ⟨-, he, -, hx⟩ | ⟨-, hx⟩ := transmit_cases r s <;> rw [hx]
  · obtain ⟨h1, h2, h3⟩ := (writtenInv_iff s).1 h
    have hw := window_pop (f := s.mem.tx.read) ht (chains_ne_nil hc).2.2.1 (by simpa [State.txEmptyL] using he)
    exact (writtenInv_iff _).2 ⟨fun x hx => h1 x (hw ▸ List.mem_cons_of_mem _ hx), h2, h3⟩
  · exact h

/-- A byte taken from the UART is written at the cursor, so the entries up to the next cursor are (R83, R227). -/
theorem written_takeByte {b : Byte} {s : State} (h : ∀ k, k < s.l.fCursor → (s.mem.asm.read k).isSome = true) :
    ∀ k, k < s.l.fCursor + 1 → ((s.mem.asm.write s.l.fCursor b).read k).isSome = true := by
  intro k hk
  rw [memory_read_write]
  split
  · rfl
  · exact h k (by omega)

/-- A published entry is written before it is visible (R83, R106). -/
theorem written_pushRx {s : State} (e : Entry) (hc : CtlInv s) (hr : RxInv s) (room : s.rxCntL < s.cfg.rxDepth)
    (h : WrittenInv s) :
    ∀ x ∈ window (s.pushRx e).mem.rx.read s.cfg.rxDepth s.h.rxR.bin (s.pushRx e).occRx, x.isSome = true := by
  obtain ⟨-, h2, -⟩ := (writtenInv_iff s).1 h
  have hw := window_push (f := s.mem.rx.read) (g := (s.pushRx e).mem.rx.read) hr.1 (chains_ne_nil hc).2.2.2.1 room
    fun i hi => memory_read_write_other _ e hi
  intro x hx
  rcases List.mem_append.1 (hw ▸ hx) with hx | hx
  · exact h2 x hx
  · rw [List.mem_singleton.1 hx]
    simp [Config.rxDepth]

theorem writtenInv_framing {s t : State} (hc : CtlInv s) (hf : FrameInv s) (hr : RxInv s) (h : WrittenInv s)
    (hm : FramingMove s t) : WrittenInv t := by
  have hpush := fun e fs pub => forall_mem_window.1 (written_pushRx (s := s) e hc hr (rx_room hf hr fs pub) h)
  obtain ⟨h1, h2, h3⟩ := h
  cases hm with
  | none => exact ⟨h1, h2, h3⟩
  | term b rest fs room hb => exact ⟨h1, h2, written_takeByte h3⟩
  | full b rest fs room hb => exact ⟨h1, h2, room ▸ written_takeByte h3⟩
  | byte b rest fs room hb => exact ⟨h1, h2, written_takeByte h3⟩
  | start fs pub room => exact ⟨h1, h2, h3⟩
  | drop fs pub => exact ⟨h1, h2, nofun⟩
  | entry fs pub more inside => exact ⟨h1, hpush _ fs pub, h3⟩
  | marker fs pub done => exact ⟨h1, hpush _ fs pub, nofun⟩

theorem writtenInv_lStep {r a b c : Bool} {s t : State} (hc : CtlInv s) (hf : FrameInv s) (ht : TxInv s) (hr : RxInv s)
    (h : WrittenInv s) (hs : lStep r a b c s = .next t) : WrittenInv t := by
  obtain ⟨u, hm, rfl⟩ := lStep_move hs
  have hw := writtenInv_transmit r hc ht h
  have hv : CtlInv (s.transmit r) ∧ FrameInv (s.transmit r) ∧ RxInv (s.transmit r) := by
    rw [transmit_frame]
    exact ⟨hc, hf, hr⟩
  obtain ⟨hc', hf', hr'⟩ := hv
  have hu : WrittenInv u := writtenInv_framing hc' hf' hr' hw hm
  exact hu

end Sys2Proof.Machine
end

section
/-! PROOFS. Frames stay framed: `StreamInv` survives both edges (spec/20_memory.md R84; spec/40_host_commands.md R200;
spec/41_line_engines.md R229 to R237). -/

namespace Sys2Proof.Machine

@[simp] theorem data_dataEntry (b : Byte) : Entry.data (dataEntry b) = b := by
  unfold Entry.data dataEntry
  ext i hi
  simp only [BitVec.getElem_extractLsb', BitVec.getLsbD_append]
  have : i < 8 := hi
  simp [this]

@[simp] theorem mark_endMarker : Entry.mark endMarker = true := by decide

/-! ### The H edge -/

/-- What H does to RX takes entries from the front, so the rest stays framed; `drain` is the marker a READU in UNTIL
waits for (R200). -/
theorem streamInv_of_suffix {s t : State} (h : StreamInv s) (hcfg : t.cfg = s.cfg) (hl : t.l = s.l)
    (hasm : t.mem.asmAt = s.mem.asmAt) (hq : rxQueue t <:+ rxQueue s)
    (drain : t.h.seq = .untilEnd → s.l.fPub = true ∨ ∃ e ∈ rxQueue t, Entry.mark e = true) : StreamInv t := by
  obtain ⟨h1, h2, h3, h4, h5, -⟩ := h
  rw [StreamInv, hcfg, hl, hasm]
  refine ⟨fun e he => h1 e (hq.subset he), fun hp e he => ?_, h3, h4, h5, drain⟩
  obtain ⟨pre, hpre⟩ := hq
  have he : (rxQueue t).getLast? = some e := he
  exact h2 hp e (by rw [← hpre, List.getLast?_append, he]; rfl)

theorem rxQueue_of_controlOnly {s t : State} (r : ControlOnly s t) : rxQueue t = rxQueue s := by
  rw [rxQueue_eq_window, rxQueue_eq_window, State.occRx, State.occRx, r.cfg, r.l, r.mem, r.rxR]

/-- A frame whose data entry was popped has its END marker behind it, there or still to be published (R84, R200). -/
theorem marker_follows {s : State} {e : Entry} {q : List Entry} (h : StreamInv s) (hq : rxQueue s = e :: q)
    (hm : Entry.mark e = false) : s.l.fPub = true ∨ ∃ x ∈ q, Entry.mark x = true := by
  obtain ⟨-, h2, -⟩ := h
  cases hp : s.l.fPub with
  | true => exact .inl rfl
  | false =>
    have h2 := h2 hp
    rw [hq] at h2
    cases q with
    | nil => simp [hm] at h2
    | cons y ys =>
      have hlast := h2 _ (List.getLast?_eq_some_getLast (by simp))
      exact .inr ⟨_, List.getLast_mem (by simp), by simpa using hlast⟩

theorem streamInv_move {s t : State} (hc : CtlInv s) (hr : RxInv s) (h : StreamInv s) (hm : QueueMove s t) :
    StreamInv t := by
  obtain ⟨hcfg, hl, -, -, -, -, hasm, hep, -⟩ := hm.frame
  have hasm : t.mem.asmAt = s.mem.asmAt := by
    funext i
    rw [Storage.asmAt, Storage.asmAt, hasm, hep]
  cases hm with
  | keep r drain =>
    have hq : rxQueue t = rxQueue s := rxQueue_of_controlOnly r
    refine streamInv_of_suffix h hcfg hl hasm (hq ▸ List.suffix_refl _) fun hu => ?_
    rw [hq]
    obtain ⟨-, -, -, -, -, h6⟩ := h
    exact h6 (drain hu)
  | push b _ _ r drain =>
    have hq : rxQueue t = rxQueue s := rxQueue_of_controlOnly (s := s.pushTx b) r
    exact streamInv_of_suffix h hcfg hl hasm (hq ▸ List.suffix_refl _) fun hu => absurd hu drain
  | pop seen r drain =>
    have hq : rxQueue s = s.rxHeadH :: rxQueue t := by
      rw [rxQueue_of_controlOnly r]
      exact rxQueue_popRx hc hr seen
    exact streamInv_of_suffix h hcfg hl hasm (hq ▸ List.suffix_cons _ _) fun hu => marker_follows h hq (drain hu)

theorem streamInv_hStep {o a b : Bool} {s t : State} (hc : CtlInv s) (hr : RxInv s) (h : StreamInv s)
    (hs : hStep o a b s = .next t) : StreamInv t := by
  obtain ⟨e, u, -, hm, rfl⟩ := hStep_move hs
  have hu : StreamInv u := streamInv_move (s := s.atPort e) hc hr h hm
  exact hu

/-! ### The L edge -/

/-- No byte in an open buffer is TERM (R229). -/
theorem open_bytes_ne_term {s : State} (hf : FrameInv s) (h : StreamInv s)
    (fs : s.l.fState = .empty ∨ s.l.fState = .accum) : ∀ k, k < s.l.fCursor → s.mem.asmAt k ≠ s.cfg.term := by
  obtain ⟨-, hE, -⟩ := hf
  obtain ⟨-, -, h3, -⟩ := h
  rcases fs with fs | fs
  · rw [(hE fs).1]
    nofun
  · exact h3 fs

theorem asmAt_takeByte (b : Byte) (rest : List Byte) (l : LRegs) (s : State) (k : Nat) :
    (s.takeByte b rest l).mem.asmAt k = if k = s.l.fCursor then b else s.mem.asmAt k := by
  simp only [State.takeByte, Storage.asmAt, memory_read_write]
  split <;> rfl

/-- Bytes below the cursor are not those taken now (R227). -/
theorem takeByte_keeps_ne_term {b : Byte} {rest : List Byte} {l : LRegs} {s : State}
    (h : ∀ k, k < s.l.fCursor → s.mem.asmAt k ≠ s.cfg.term) :
    ∀ k, k < s.l.fCursor → (s.takeByte b rest l).mem.asmAt k ≠ s.cfg.term := by
  intro k hk
  rw [asmAt_takeByte, if_neg (Nat.ne_of_lt hk)]
  exact h k hk

theorem takeByte_adds_ne_term {b : Byte} {rest : List Byte} {l : LRegs} {s : State} (hb : b ≠ s.cfg.term)
    (h : ∀ k, k < s.l.fCursor → s.mem.asmAt k ≠ s.cfg.term) :
    ∀ k, k < s.l.fCursor + 1 → (s.takeByte b rest l).mem.asmAt k ≠ s.cfg.term := by
  intro k hk
  rw [asmAt_takeByte]
  split
  · exact hb
  · exact h k (by omega)

theorem streamInv_framing {s t : State} (hc : CtlInv s) (hf : FrameInv s) (hr : RxInv s) (h : StreamInv s)
    (hm : FramingMove s t) : StreamInv t := by
  have hopen := open_bytes_ne_term hf h
  have hpub := fPub_false_of_open hf
  have hpush := fun e fs pub => rxQueue_pushRx (s := s) e hc hr (rx_room hf hr fs pub)
  obtain ⟨h1, h2, h3, h4, h5, h6⟩ := h
  cases hm with
  | none => exact ⟨h1, h2, h3, h4, h5, h6⟩
  | term b rest fs room hb =>
    exact ⟨h1, h2, nofun, fun _ => takeByte_keeps_ne_term (hopen fs), fun _ => .inl rfl, h6⟩
  | full b rest fs room hb =>
    exact ⟨h1, h2, nofun, fun _ => room ▸ takeByte_adds_ne_term hb (hopen fs), fun _ => .inr rfl, h6⟩
  | byte b rest fs room hb =>
    exact ⟨h1, h2, fun _ => takeByte_adds_ne_term hb (hopen fs), by simp [State.takeByte],
      fun hp => absurd hp (ne_true_of_eq_false (hpub fs)), h6⟩
  | start fs pub room => exact ⟨h1, nofun, h3, h4, fun _ => fs, fun _ => .inl rfl⟩
  | drop fs pub =>
    exact ⟨h1, h2, nofun, by simp, fun hp => absurd hp (ne_true_of_eq_false pub), h6⟩
  | entry fs pub more inside =>
    have hq := hpush (dataEntry (s.mem.asmAt s.l.fPidx)) fs pub
    refine ⟨fun e he hmark => ?_, fun hp => absurd hp (ne_false_of_eq_true pub), h3, h4, h5, fun _ => .inl pub⟩
    rcases List.mem_append.1 (hq ▸ he) with he | he
    · exact h1 e he hmark
    · rw [List.mem_singleton.1 he, data_dataEntry]
      exact h4 fs _ more
  | marker fs pub done =>
    have hq := hpush endMarker fs pub
    refine ⟨fun e he hmark => ?_, fun _ e he => ?_, nofun, by simp, nofun, fun _ => .inr ⟨endMarker, ?_,
      mark_endMarker⟩⟩
    · rcases List.mem_append.1 (hq ▸ he) with he | he
      · exact h1 e he hmark
      · rw [List.mem_singleton.1 he, mark_endMarker] at hmark
        cases hmark
    · have he : (rxQueue (s.pushRx endMarker)).getLast? = some e := he
      rw [hq, List.getLast?_concat] at he
      cases he
      exact mark_endMarker
    · show endMarker ∈ rxQueue (s.pushRx endMarker)
      rw [hq]
      exact List.mem_concat_self

theorem streamInv_lStep {r a b c : Bool} {s t : State} (hc : CtlInv s) (hf : FrameInv s) (hr : RxInv s)
    (h : StreamInv s) (hs : lStep r a b c s = .next t) : StreamInv t := by
  obtain ⟨u, hm, rfl⟩ := lStep_move hs
  have hv : CtlInv (s.transmit r) ∧ FrameInv (s.transmit r) ∧ RxInv (s.transmit r) ∧ StreamInv (s.transmit r) := by
    rw [transmit_frame]
    exact ⟨hc, hf, hr, h⟩
  obtain ⟨hc', hf', hr', h'⟩ := hv
  have hu : StreamInv u := streamInv_framing hc' hf' hr' h' hm
  exact hu

end Sys2Proof.Machine
end

section
/-! PROOFS. The invariants hold at every launch and after every step, and no state that has them faults
(spec/70_reset_and_hazards.md R290, R311). -/

namespace Sys2Proof.Machine

/-! ### After reset -/

/-- The registers and arrays of a state right after reset (R47). -/
theorem afterReset_fields {s : State} (h : AfterReset s) :
    s.cfg.legal = true ∧ s.h = HRegs.reset s.cfg ∧ s.l = LRegs.reset s.cfg ∧ s.chg = Changes.reset ∧
      s.mem.tx = [] ∧ s.mem.rx = [] ∧ s.mem.asm = [] := by
  obtain ⟨hl, hs⟩ := h
  have hm := congrArg State.mem hs
  exact ⟨hl, congrArg State.h hs, congrArg State.l hs, congrArg State.chg hs, congrArg Storage.tx hm,
    congrArg Storage.rx hm, congrArg Storage.asm hm⟩

theorem ctlInv_afterReset {s : State} (h : AfterReset s) : CtlInv s := by
  obtain ⟨hl, hh, hl', -⟩ := afterReset_fields h
  obtain ⟨-, -, -, -, -, -, -, -, -, hdiv⟩ := (legal_iff s.cfg).1 hl
  rw [CtlInv, hh, hl']
  refine ⟨hl, hdiv, Nat.zero_le _, fun hq => absurd rfl hq, nofun, nofun, ?_, ?_, ?_, ?_, ?_⟩ <;>
    exact List.length_replicate

theorem initInv_afterReset {s : State} (h : AfterReset s) : InitInv s := by
  obtain ⟨-, hh, hl, hc, -⟩ := afterReset_fields h
  rw [InitInv, hh, hl, hc]
  refine ⟨rfl, nofun, fun b hb hb1 => ?_, fun _ => rfl⟩
  rw [List.eq_of_mem_replicate hb] at hb1
  cases hb1

theorem frameInv_afterReset {s : State} (h : AfterReset s) : FrameInv s := by
  obtain ⟨-, -, hl, -⟩ := afterReset_fields h
  rw [FrameInv, hl]
  exact ⟨fun _ => rfl, fun _ => ⟨rfl, rfl, rfl⟩, nofun, nofun, nofun, by simp [LRegs.reset]⟩

theorem txInv_afterReset {s : State} (h : AfterReset s) : TxInv s := by
  obtain ⟨-, hh, hl, hc, -⟩ := afterReset_fields h
  rw [TxInv, hh, hl, hc]
  exact fifoInv_reset _ _ _

theorem rxInv_afterReset {s : State} (h : AfterReset s) : RxInv s := by
  obtain ⟨-, hh, hl, hc, -⟩ := afterReset_fields h
  rw [RxInv, hh, hl, hc]
  exact ⟨fifoInv_reset _ _ _, nofun⟩

theorem memInv_afterReset {s : State} (h : AfterReset s) : MemInv s := by
  obtain ⟨-, -, -, -, htx, hrx, hasm⟩ := afterReset_fields h
  simp [MemInv, htx, hrx, hasm]

/-- Both queues are empty right after reset. -/
theorem occ_afterReset {s : State} (h : AfterReset s) : s.occTx = 0 ∧ s.occRx = 0 := by
  obtain ⟨-, hh, hl, -⟩ := afterReset_fields h
  rw [State.occTx, State.occRx, hh, hl]
  exact ⟨subMod_self (Nat.two_pow_pos _), subMod_self (Nat.two_pow_pos _)⟩

theorem writtenInv_afterReset {s : State} (h : AfterReset s) : WrittenInv s := by
  obtain ⟨-, -, hl, -⟩ := afterReset_fields h
  obtain ⟨htx, hrx⟩ := occ_afterReset h
  rw [WrittenInv, htx, hrx, hl]
  exact ⟨nofun, nofun, nofun⟩

theorem streamInv_afterReset {s : State} (h : AfterReset s) : StreamInv s := by
  obtain ⟨-, hh, hl, -⟩ := afterReset_fields h
  have hq : rxQueue s = [] := by rw [rxQueue, (occ_afterReset h).2]; rfl
  rw [StreamInv, hq, hh, hl]
  exact ⟨nofun, nofun, nofun, by simp [LRegs.reset], nofun, nofun⟩

theorem rspInv_afterReset {s : State} (h : AfterReset s) : RspInv s := by
  obtain ⟨-, hh, -⟩ := afterReset_fields h
  have hword : s.h.rspWord = 0 := by rw [hh]; rfl
  rw [RspInv, hword]
  decide

theorem inv_afterReset {s : State} (h : AfterReset s) : Inv s :=
  ⟨ctlInv_afterReset h, initInv_afterReset h, frameInv_afterReset h, txInv_afterReset h, rxInv_afterReset h,
    memInv_afterReset h, writtenInv_afterReset h, streamInv_afterReset h, rspInv_afterReset h⟩

/-! ### After INIT's acceptance -/

/-- Every invariant survives a queue move with the shifts and the prescaler after it (R170). -/
theorem inv_move {a b : Bool} {s u : State} (h : Inv s) (hm : QueueMove s u) (hp : PendingInv u) :
    Inv (u.finishH a b) := by
  obtain ⟨hc, hi, hf, ht, hr, hmem, hw, hst, hrsp⟩ := h
  obtain ⟨-, -, -, hidle, -⟩ := id hc
  have hi : InitInv u := initInv_move hidle hi hm
  have hf : FrameInv u := frameInv_move hf hm
  have hmem : MemInv u := memInv_move hmem hm
  have hw : WrittenInv u := writtenInv_move hc ht hr hw hm
  have hst : StreamInv u := streamInv_move hc hr hst hm
  exact ⟨ctlInv_finishH hc hm hp, hi, hf, txInv_finishH (txInv_move hc ht hm), rxInv_finishH (rxInv_move hc hr hm),
    hmem, hw, hst, rspInv_finishH hrsp hm⟩

theorem inv_afterInit {s : State} (h : AfterInit s) : Inv s := by
  obtain ⟨r, t, a, b, hr, ht, hs⟩ := h
  obtain ⟨hl, hh, -⟩ := afterReset_fields hr
  have hp : PendingInv t := pendingInv_exec hl (by rw [hh]; rfl) (by rw [hh]; exact Nat.zero_le _) ht
  have hinv : Inv (t.finishH a b) := inv_move (inv_afterReset hr) (queueMove_of_exec ht) hp
  rw [hs]
  exact hinv

theorem inv_launch {s : State} (h : Launch s) : Inv s := h.elim inv_afterReset inv_afterInit

/-! ### Every step -/

/-- What holds after each kind of event holds after a step: no invariant speaks of the line, HostEnv or the schedule,
and a reset leads to a launch state. -/
theorem step_keeps {P : State → Prop} {s t : State} (h : step s = .next t)
    (henv : ∀ line host q, P { s with line := line, host := host, sched := q })
    (hH : ∀ q o a b, hStep o a b { s with sched := q } = .next t → P t)
    (hL : ∀ q r a b c, lStep r a b c { s with sched := q } = .next t → P t)
    (hR : ∀ {r : State}, AfterReset r → P r) : P t := by
  obtain ⟨hl, q, ⟨o, a, b, hx⟩ | ⟨r, a, b, c, hx⟩ | ⟨line, host, rfl⟩ | rfl⟩ := step_move h
  · exact hH q o a b hx
  · exact hL q r a b c hx
  · exact henv line host q
  · exact hR (afterReset_applyReset hl)

section

variable {s t : State} (h : step s = .next t)

include h

theorem ctlInv_step (hc : CtlInv s) : CtlInv t :=
  step_keeps h (fun _ _ _ => hc) (fun _ _ _ _ => ctlInv_hStep hc) (fun _ _ _ _ _ => ctlInv_lStep hc) ctlInv_afterReset

theorem initInv_step (hc : CtlInv s) (hi : InitInv s) : InitInv t :=
  step_keeps h (fun _ _ _ => hi) (fun _ _ _ _ => initInv_hStep hc hi) (fun _ _ _ _ _ => initInv_lStep hi)
    initInv_afterReset

theorem frameInv_step (hf : FrameInv s) : FrameInv t :=
  step_keeps h (fun _ _ _ => hf) (fun _ _ _ _ => frameInv_hStep hf) (fun _ _ _ _ _ => frameInv_lStep hf)
    frameInv_afterReset

theorem txInv_step (hc : CtlInv s) (ht : TxInv s) : TxInv t :=
  step_keeps h (fun _ _ _ => ht) (fun _ _ _ _ => txInv_hStep hc ht) (fun _ _ _ _ _ => txInv_lStep hc ht)
    txInv_afterReset

theorem rxInv_step (hc : CtlInv s) (hf : FrameInv s) (hr : RxInv s) : RxInv t :=
  step_keeps h (fun _ _ _ => hr) (fun _ _ _ _ => rxInv_hStep hc hr) (fun _ _ _ _ _ => rxInv_lStep hc hf hr)
    rxInv_afterReset

theorem memInv_step (hm : MemInv s) : MemInv t :=
  step_keeps h (fun _ _ _ => hm) (fun _ _ _ _ => memInv_hStep hm) (fun _ _ _ _ _ => memInv_lStep hm) memInv_afterReset

theorem writtenInv_step (hc : CtlInv s) (hf : FrameInv s) (ht : TxInv s) (hr : RxInv s) (hw : WrittenInv s) :
    WrittenInv t :=
  step_keeps h (fun _ _ _ => hw) (fun _ _ _ _ => writtenInv_hStep hc ht hr hw)
    (fun _ _ _ _ _ => writtenInv_lStep hc hf ht hr hw) writtenInv_afterReset

theorem streamInv_step (hc : CtlInv s) (hf : FrameInv s) (hr : RxInv s) (hs : StreamInv s) : StreamInv t :=
  step_keeps h (fun _ _ _ => hs) (fun _ _ _ _ => streamInv_hStep hc hr hs)
    (fun _ _ _ _ _ => streamInv_lStep hc hf hr hs) streamInv_afterReset

theorem rspInv_step (hr : RspInv s) : RspInv t :=
  step_keeps h (fun _ _ _ => hr) (fun _ _ _ _ => rspInv_hStep hr) (fun _ _ _ _ _ => rspInv_lStep hr) rspInv_afterReset

theorem inv_step (hs : Inv s) : Inv t := by
  obtain ⟨hc, hi, hf, ht, hr, hm, hw, hst, hrsp⟩ := hs
  exact ⟨ctlInv_step h hc, initInv_step h hc hi, frameInv_step h hf, txInv_step h hc ht, rxInv_step h hc hf hr,
    memInv_step h hm, writtenInv_step h hc hf ht hr hw, streamInv_step h hc hf hr hst, rspInv_step h hrsp⟩

end

theorem inv_reachable {s : State} (h : Reachable s) : Inv s := by
  induction h with
  | launch h => exact inv_launch h
  | step _ hs ih => exact inv_step hs ih

/-! ### No fault -/

/-- A pending command is one that waits, so every H edge goes on (R35, log 8). -/
theorem hStep_goesOn {s : State} (hc : CtlInv s) (o a b : Bool) : ∃ t, hStep o a b s = .next t := by
  obtain ⟨u, hu⟩ | ⟨-, hq, ho⟩ := sequencer_outcome (s.hostTurn o).clearRsp
  · exact ⟨_, hStep_next.2 ⟨u, hu, rfl⟩⟩
  · obtain ⟨-, -, -, -, hw, -⟩ := hc
    have hop := (hw hq).1
    have ho : waitOpOf s.h.op = none := ho
    simp [ho] at hop

/-- The cursor is inside the buffer while it takes bytes, and the publish index is below a frame's length, so the
framing step goes on (R42, log 9). -/
theorem framing_goesOn {s : State} (hl : s.cfg.legal = true) (hf : FrameInv s) : ∃ t, s.framing = .next t := by
  obtain ⟨-, hE, hA, hT, hO, -⟩ := hf
  obtain ⟨-, -, -, hcap, -⟩ := (legal_iff s.cfg).1 hl
  refine (framing_outcome s).resolve_right ?_
  rintro ⟨-, ⟨fs | fs, hx⟩ | ⟨fs | fs, hm, hx⟩⟩
  · have := (hE fs).1
    omega
  · have := (hA fs).2.1
    omega
  · have := (hT fs).1
    omega
  · have := (hO fs).1
    omega

theorem lStep_goesOn {s : State} (hc : CtlInv s) (hf : FrameInv s) (r a b c : Bool) :
    ∃ t, lStep r a b c s = .next t := by
  have hv : (s.transmit r).cfg.legal = true ∧ FrameInv (s.transmit r) := by
    rw [transmit_frame]
    exact ⟨hc.1, hf⟩
  obtain ⟨u, hu⟩ := framing_goesOn hv.1 hv.2
  exact ⟨_, lStep_next.2 ⟨u, hu, rfl⟩⟩

theorem step_ne_fault {s : State} (hc : CtlInv s) (hf : FrameInv s) (f : Fault) : step s ≠ .fault f := by
  rw [step_legal hc.1, takeEvent_eq]
  cases s.nextEvent with
  | h o a b =>
    obtain ⟨t, ht⟩ := hStep_goesOn (s := { s with sched := s.takeEvent.sched }) hc o a b
    simp [runEvent, ht]
  | l r a b c =>
    obtain ⟨t, ht⟩ := lStep_goesOn (s := { s with sched := s.takeEvent.sched }) hc hf r a b c
    simp [runEvent, ht]
  | plan ts => nofun
  | rx bs => nofun
  | reset => nofun
  | resetHOnly => nofun
  | resetLOnly => nofun

end Sys2Proof.Machine

namespace Sys2Proof.Proofs

open Sys2Proof Sys2Proof.Machine

/-- Settles O46, by induction on the run: the nine invariants hold at launch and survive each step, and a state that has
them neither faults nor is refused but for a reset of one domain. -/
theorem reachableStatesAreSound : Obligations.ReachableStatesAreSound := by
  unfold Obligations.ReachableStatesAreSound
  intro s h
  have hinv := inv_reachable h
  obtain ⟨hc, -, hf, -⟩ := id hinv
  refine ⟨hinv, step_ne_fault hc hf, fun r hr => ?_⟩
  rw [step_legal hc.1] at hr
  exact (runEvent_refused hr).1

end Sys2Proof.Proofs
end

section
/-! PROOFS. The flags of a state right after reset, and the state family's invariants, of one step and of every
reachable state (spec/10_state.md R34 to R47; spec/20_memory.md R80; spec/70_reset_and_hazards.md R290, R292). -/

namespace Sys2Proof.Machine

/-! ### Flags right after reset -/

/-- The last stage of a chain whose stages all hold `x`, whatever its length. -/
theorem getLastD_replicate_self {α : Type} (n : Nat) (x : α) : (List.replicate n x).getLastD x = x := by
  cases n with
  | zero => rfl
  | succ n => simp [List.getLastD_eq_getLast?, List.getLast?_replicate]

theorem synced_replicate_zero (n : Nat) : synced (List.replicate n 0) = 0 := getLastD_replicate_self n 0

section

variable {s : State} (h : AfterReset s)

include h

theorem txFullH_afterReset : s.txFullH = false := by
  obtain ⟨-, hh, -⟩ := afterReset_fields h
  have hcnt : s.txCntH = 0 := by
    simp [State.txCntH, hh, HRegs.reset, synced_replicate_zero, subMod_self (Nat.two_pow_pos _)]
  rw [State.txFullH, hcnt, beq_eq_false_iff_ne]
  exact (txDepth_pos s.cfg).ne

theorem rxEmptyH_afterReset : s.rxEmptyH = true := by
  obtain ⟨-, hh, -⟩ := afterReset_fields h
  simp [State.rxEmptyH, hh, HRegs.reset, synced_replicate_zero]

theorem txEmptyL_afterReset : s.txEmptyL = true := by
  obtain ⟨-, -, hl, -⟩ := afterReset_fields h
  simp [State.txEmptyL, hl, LRegs.reset, synced_replicate_zero]

theorem rxFreeL_afterReset : s.rxFreeL = s.cfg.rxDepth := by
  obtain ⟨-, -, hl, -⟩ := afterReset_fields h
  have hcnt : s.rxCntL = 0 := by
    simp [State.rxCntL, hl, LRegs.reset, synced_replicate_zero, subMod_self (Nat.two_pow_pos _)]
  rw [State.rxFreeL, hcnt, Nat.sub_zero]

theorem lInit_afterReset : s.lInit = false := by
  obtain ⟨-, -, hl, -⟩ := afterReset_fields h
  rw [State.lInit, hl]
  exact getLastD_replicate_self _ false

theorem uartRxReady_afterReset : s.uartRxReady = false := by
  rw [State.uartRxReady, lInit_afterReset h, Bool.false_and]

theorem uartTxValid_afterReset : s.uartTxValid = false := by
  rw [State.uartTxValid, lInit_afterReset h, Bool.false_and]

theorem queues_afterReset : txQueue s = [] ∧ rxQueue s = [] := by
  obtain ⟨htx, hrx⟩ := occ_afterReset h
  simp [txQueue, rxQueue, htx, hrx]

end

end Sys2Proof.Machine

namespace Sys2Proof.Proofs

open Sys2Proof Sys2Proof.Machine

/-- Settles O36, by the edges of the step: the sequencer's move, the line's frame, or a reset. -/
theorem sequencerInvariantIsKept : Obligations.SequencerInvariantIsKept := by
  unfold Obligations.SequencerInvariantIsKept
  exact fun _ _ hc h => ctlInv_step h hc

/-- Settles O38, by the framing step's moves; `CtlInv` is not needed. -/
theorem framingInvariantIsKept : Obligations.FramingInvariantIsKept := by
  unfold Obligations.FramingInvariantIsKept
  exact fun _ _ _ hf h => frameInv_step h hf

/-- Settles O47: `FrameInv` holds in every reachable state and says R42's relations. -/
theorem framingRelationsInReachableStates : Obligations.FramingRelationsInReachableStates := by
  unfold Obligations.FramingRelationsInReachableStates
  intro s h
  obtain ⟨-, -, ⟨-, hrel⟩, -⟩ := inv_reachable h
  exact hrel

/-- Settles O25: the state after the event is one right after reset, so its registers are the reset column and its
flags those of two empty queues. -/
theorem resetLosesEverythingQueued : Obligations.ResetLosesEverythingQueued := by
  unfold Obligations.ResetLosesEverythingQueued
  intro s es hl he
  have hr : AfterReset (State.applyReset { s with sched := { s.sched with events := es } }) :=
    afterReset_applyReset hl
  obtain ⟨htx, hrx⟩ := queues_afterReset hr
  refine ⟨_, step_cons hl he, htx, hrx, txEmptyL_afterReset hr, rxEmptyH_afterReset hr, txFullH_afterReset hr,
    rxFreeL_afterReset hr, ?_⟩
  simp [HRegs.reset, LRegs.reset, Changes.reset, uartTxValid_afterReset hr]

/-- Settles O41, by the writes of the two pushes and of the accumulate step. -/
theorem arraysStayCanonicalAndInBounds : Obligations.ArraysStayCanonicalAndInBounds := by
  unfold Obligations.ArraysStayCanonicalAndInBounds
  exact fun _ _ _ hm h => memInv_step h hm

/-- Settles O26, from the flags right after reset. -/
theorem flagsAfterReset : Obligations.FlagsAfterReset := by
  unfold Obligations.FlagsAfterReset
  intro c hc
  have hr : AfterReset (State.resetWith c) := afterReset_resetWith hc
  exact ⟨rfl, rfl, txFullH_afterReset hr, rxEmptyH_afterReset hr, txEmptyL_afterReset hr, rxFreeL_afterReset hr,
    uartRxReady_afterReset hr, uartTxValid_afterReset hr, rfl, rfl⟩

end Sys2Proof.Proofs
end

section
/-! PROOFS. The Gray-domain full test of TX: half a turn on is the top bit inverted, in Gray code the two top bits
(spec/00_scope.md R19; spec/20_memory.md R101). -/

namespace Sys2Proof.Machine

theorem b2g_xor (a b : Nat) : b2g (a ^^^ b) = b2g a ^^^ b2g b := by
  simp only [b2g_eq, Nat.xor_div_two]
  ac_rfl

/-- Half a turn on from `r` is `r` with its top bit inverted (R87). -/
theorem add_half_turn {n r : Nat} (hr : r < 2 ^ (n + 1)) : (r + 2 ^ n) % 2 ^ (n + 1) = r ^^^ 2 ^ n := by
  have hpos := Nat.two_pow_pos n
  rw [Nat.pow_succ] at hr ⊢
  refine Nat.ext_div_mod (n := 2 ^ n) ?_ ?_
  · rw [Nat.mod_mul_right_div_self, Nat.xor_div_two_pow, Nat.add_div_right _ hpos, Nat.div_self hpos]
    have hlt : r / 2 ^ n < 2 := Nat.div_lt_of_lt_mul hr
    interval_cases r / 2 ^ n <;> rfl
  · rw [Nat.mod_mul_right_mod, Nat.xor_mod_two_pow, Nat.add_mod_right, Nat.mod_self, Nat.xor_zero]

/-- The code of one bit is that bit and the one below it. -/
theorem b2g_two_pow_succ (n : Nat) : b2g (2 ^ (n + 1)) = 3 * 2 ^ n := by
  have hpos := Nat.two_pow_pos n
  have htop : 2 ^ (n + 1) = 2 ^ n * 2 := Nat.pow_succ 2 n
  have hmore : 2 ^ (n + 2) = 2 ^ n * 2 * 2 := by rw [Nat.pow_succ, htop]
  have hhalf : 2 ^ (n + 1) / 2 = 2 ^ n := by omega
  rw [b2g_eq, hhalf, Nat.xor_comm, ← add_half_turn (n := n + 1) (by omega), Nat.mod_eq_of_lt (by omega)]
  omega

/-- A distance of `d` is a pointer `d` further on. -/
theorem subMod_eq_iff {w a b d : Nat} (ha : a < 2 ^ w) (hb : b < 2 ^ w) (hd : d < 2 ^ w) :
    subMod w a b = d ↔ a = (b + d) % 2 ^ w := by
  constructor
  · rintro rfl
    exact (add_subMod ha hb).symm
  · intro h
    refine Nat.ModEq.eq_of_lt_of_lt (Nat.ModEq.add_left_cancel' b ?_) (subMod_lt w a b) hd
    exact (add_subMod ha hb).trans h

/-- The full test by inverted top bits says that the distance is half a turn (R101). -/
theorem gray_full_iff {n w g : Nat} (hw : w < 2 ^ (n + 2)) (hg : g < 2 ^ (n + 2)) :
    b2g w = g ^^^ 3 * 2 ^ n ↔ subMod (n + 2) w (g2b (n + 2) g) = 2 ^ (n + 1) := by
  have hlt := g2b_lt (n + 2) g
  have htop : 2 ^ (n + 1) < 2 ^ (n + 2) := Nat.pow_lt_pow_right (by decide) (Nat.lt_succ_self _)
  rw [subMod_eq_iff hw hlt htop, add_half_turn hlt]
  constructor
  · intro h
    rw [← g2b_b2g hw, h, ← b2g_two_pow_succ, ← b2g_g2b hg, ← b2g_xor, g2b_b2g (Nat.xor_lt_two_pow hlt htop),
      b2g_g2b hg]
  · intro h
    rw [h, b2g_xor, b2g_g2b hg, b2g_two_pow_succ]

end Sys2Proof.Machine

namespace Sys2Proof.Proofs

open Sys2Proof Sys2Proof.Machine

/-- Settles O35: both tests say that the write pointer is half a turn past the synchronised read pointer. -/
theorem grayFullTestAgreesWithTheCount : Obligations.GrayFullTestAgreesWithTheCount := by
  unfold Obligations.GrayFullTestAgreesWithTheCount
  intro s hl hc ht
  obtain ⟨htx, -⟩ := chains_ne_nil hc
  obtain ⟨haw, -⟩ := (legal_iff s.cfg).1 hl
  obtain ⟨hw, -, hgray, -, hlt, -⟩ := ht
  obtain ⟨-, -, hrs, -⟩ := fifo_bound_iff.1 hlt
  have hg := hrs _ (synced_mem htx)
  obtain ⟨n, hn⟩ := Nat.exists_eq_add_of_le' haw
  rw [Config.txPw, hn] at hw hg
  rw [State.txFullGray, State.txFullH, State.txCntH, Config.txPw, Config.txDepth, hn, hgray, Bool.eq_iff_iff,
    beq_iff_eq, beq_iff_eq]
  exact gray_full_iff hw hg

end Sys2Proof.Proofs
end

section
/-! PROOFS. The synchroniser chains: each shifts at every edge of its domain, and carries a settled source from end to
end in SYNC_STAGES + 1 edges in a row (spec/20_memory.md R89 to R92, R113). -/

namespace Sys2Proof.Machine

/-! ### One edge -/

/-- The chains after an H edge (R89, R92). -/
theorem hStep_chains {o a b : Bool} {s t : State} (h : hStep o a b s = .next t) :
    t.h.txRsync = shiftIn (sample a s.l.txR.gray s.chg.txR) s.h.txRsync ∧
    t.h.rxWsync = shiftIn (sample b s.l.rxW.gray s.chg.rxW) s.h.rxWsync ∧
    t.chg.txR = s.chg.txR.settle ∧ t.chg.rxW = s.chg.rxW.settle := by
  obtain ⟨e, u, -, hm, rfl⟩ := hStep_move h
  obtain ⟨-, hl, -, -, -, -, -, -, -, htx, hrx, hctx, hcrx⟩ := hm.frame
  rw [finishH_h, finishH_chg, hl, htx, hrx, hctx, hcrx]
  exact ⟨rfl, rfl, rfl, rfl⟩

/-- The chains after an L edge (R89, R92). -/
theorem lStep_chains {r a b c : Bool} {s t : State} (h : lStep r a b c s = .next t) :
    t.l.txWsync = shiftIn (sample a s.h.txW.gray s.chg.txW) s.l.txWsync ∧
    t.l.rxRsync = shiftIn (sample b s.h.rxR.gray s.chg.rxR) s.l.rxRsync ∧
    t.l.initSync = shiftIn (sample c s.h.init s.chg.init) s.l.initSync ∧
    t.chg.txW = s.chg.txW.settle ∧ t.chg.rxR = s.chg.rxR.settle ∧ t.chg.init = s.chg.init.settle := by
  obtain ⟨u, hm, rfl⟩ := lStep_move h
  obtain ⟨-, hh, -, -, -, -, -, htx, hrx, hinit, hctx, -, hcrx, hcinit⟩ := hm.frame
  rw [syncL_l, syncL_chg, hh, htx, hrx, hinit, hctx, hcrx, hcinit, transmit_frame]
  exact ⟨rfl, rfl, rfl, rfl, rfl, rfl⟩

/-! ### Edges in a row -/

theorem mem_drop_shiftIn {α : Type} {x g : α} {c : List α} {n : Nat} (h : g ∈ (shiftIn x c).drop (n + 1)) :
    g ∈ c.drop n := by
  rw [shiftIn, List.dropLast_eq_take, List.drop_take] at h
  exact List.mem_of_mem_take h

theorem mem_take_shiftIn {α : Type} {x g : α} {c : List α} {n : Nat} (h : g ∈ (shiftIn x c).take (n + 1)) :
    g = x ∨ g ∈ c.take n := by
  rw [shiftIn, List.dropLast_eq_take, List.take_take, Nat.min_comm, ← List.take_take] at h
  simpa using List.mem_of_mem_take h

/-- How far the source's value `cur`, which does not change meanwhile, has come after `n` shifts from the chain `c₀` to
`c`: the stages past the first `n` still hold old values, and all of the first `n` but the first draw hold `cur`. -/
structure Crossing {α : Type} (cur : α) (c₀ : List α) (n : Nat) (ch : Change α) (c : List α) : Prop where
  length : c.length = c₀.length
  settled : 0 < n → ch.fresh = false
  old : ∀ g ∈ c.drop n, g ∈ c₀
  new : ∀ g ∈ c.take (n - 1), g = cur

theorem Crossing.start {α : Type} (cur : α) (c : List α) (ch : Change α) : Crossing cur c 0 ch c :=
  ⟨rfl, nofun, fun _ hg => hg, by simp⟩

section

variable {α : Type} {cur : α} {c₀ c : List α} {n : Nat} {ch : Change α}

/-- One more shift: a source that is fresh is so at the first draw alone (R92). -/
theorem Crossing.shift (h : Crossing cur c₀ n ch c) (d : Bool) :
    Crossing cur c₀ (n + 1) ch.settle (shiftIn (sample d cur ch) c) where
  length := (shiftIn_length _ c).trans h.length
  settled _ := rfl
  old g hg := h.old g (mem_drop_shiftIn hg)
  new g hg := by
    cases n with
    | zero => simp at hg
    | succ n =>
      rcases mem_take_shiftIn hg with rfl | hg
      · simp [sample, h.settled (Nat.succ_pos n)]
      · exact h.new g hg

/-- After fewer shifts than stages, the last stage holds an old value. -/
theorem Crossing.last_old (h : Crossing cur c₀ n ch c) (hn : n < c₀.length) (d : α) : c.getLastD d ∈ c₀ := by
  have hne : c.drop n ≠ [] := by simpa [h.length] using hn
  have hc : c ≠ [] := fun h0 => by simp [h0] at hne
  refine h.old _ ?_
  rw [List.getLastD_eq_getLast?, List.getLast?_eq_some_getLast hc, Option.getD_some, ← List.getLast_drop hne]
  exact List.getLast_mem hne

/-- After one shift more than there are stages, the last stage holds the source's value. -/
theorem Crossing.last_new (h : Crossing cur c₀ (c₀.length + 1) ch c) (hne : c₀ ≠ []) (d : α) : c.getLastD d = cur := by
  have hc : c ≠ [] := by
    rw [← List.length_pos_iff_ne_nil, h.length]
    exact List.length_pos_iff_ne_nil.2 hne
  have hall := h.new
  rw [Nat.add_sub_cancel, ← h.length, List.take_length] at hall
  rw [List.getLastD_eq_getLast?, List.getLast?_eq_some_getLast hc]
  exact hall _ (List.getLast_mem hc)

end

/-! ### Runs -/

theorem runSteps_succ {n : Nat} {s t : State} (h : runSteps n s = .next t) : runSteps (n + 1) s = step t := by
  induction n generalizing s with
  | zero =>
    cases h
    rw [runSteps]
    cases step t <;> rfl
  | succ n ih =>
    rw [runSteps] at h ⊢
    cases hs : step s with
    | next u =>
      rw [hs] at h
      exact ih h
    | fault r => simp [hs] at h
    | refused r => simp [hs] at h

/-- What holds at the start of a run of `n` steps, and makes the next step go on and hold after it, holds at its end. -/
theorem runSteps_induction {R : Nat → State → Prop} {s : State} {n : Nat} (h0 : R 0 s)
    (hstep : ∀ m t, m < n → R m t → ∃ u, step t = .next u ∧ R (m + 1) u) : ∃ t, runSteps n s = .next t ∧ R n t := by
  induction n with
  | zero => exact ⟨s, rfl, h0⟩
  | succ n ih =>
    obtain ⟨t, ht, hR⟩ := ih fun m t hm => hstep m t (Nat.lt_succ_of_lt hm)
    obtain ⟨u, hu, hR'⟩ := hstep n t (Nat.lt_succ_self n) hR
    exact ⟨u, (runSteps_succ ht).trans hu, hR'⟩

/-- After `n` of the H edges `es` in a row from `s`: L has not moved, and its two pointers have come `n` stages. -/
structure CrossedH (s : State) (es : List Event) (n : Nat) (t : State) : Prop where
  ctl : CtlInv t
  events : t.sched.events = es.drop n
  l : t.l = s.l
  txR : Crossing s.l.txR.gray s.h.txRsync n t.chg.txR t.h.txRsync
  rxW : Crossing s.l.rxW.gray s.h.rxWsync n t.chg.rxW t.h.rxWsync

theorem CrossedH.exists_step {s t : State} {es : List Event} {n : Nat} (hes : ∀ e ∈ es, IsHEdge e) (hn : n < es.length)
    (h : CrossedH s es n t) : ∃ u, step t = .next u ∧ CrossedH s es (n + 1) u := by
  obtain ⟨o, a, b, he⟩ := hes _ (List.getElem_mem hn)
  have hev : t.sched.events = .h o a b :: es.drop (n + 1) := by rw [h.events, List.drop_eq_getElem_cons hn, he]
  obtain ⟨u, hu⟩ := hStep_goesOn (s := { t with sched := { t.sched with events := es.drop (n + 1) } }) h.ctl o a b
  obtain ⟨-, hl, -, hsched, -⟩ := hStep_frame hu
  obtain ⟨htx, hrx, hctx, hcrx⟩ := hStep_chains hu
  have hs : step t = .next u := (step_cons h.ctl.1 hev).trans hu
  refine ⟨u, hs, ctlInv_step hs h.ctl, by rw [hsched], hl.trans h.l, ?_, ?_⟩
  · rw [htx, hctx, h.l]
    exact h.txR.shift a
  · rw [hrx, hcrx, h.l]
    exact h.rxW.shift b

theorem runSteps_crossedH {s : State} {n : Nat} (hc : CtlInv s) (hes : ∀ e ∈ s.sched.events, IsHEdge e)
    (hn : n ≤ s.sched.events.length) : ∃ t, runSteps n s = .next t ∧ CrossedH s s.sched.events n t :=
  runSteps_induction ⟨hc, rfl, rfl, .start _ _ _, .start _ _ _⟩
    fun _ _ hm h => h.exists_step hes (Nat.lt_of_lt_of_le hm hn)

/-- After `n` of the L edges `es` in a row from `s`: H has not moved, and its two pointers and `h_init` have come `n`
stages. -/
structure CrossedL (s : State) (es : List Event) (n : Nat) (t : State) : Prop where
  ctl : CtlInv t
  frame : FrameInv t
  events : t.sched.events = es.drop n
  h : t.h = s.h
  txW : Crossing s.h.txW.gray s.l.txWsync n t.chg.txW t.l.txWsync
  rxR : Crossing s.h.rxR.gray s.l.rxRsync n t.chg.rxR t.l.rxRsync
  init : Crossing s.h.init s.l.initSync n t.chg.init t.l.initSync

theorem CrossedL.exists_step {s t : State} {es : List Event} {n : Nat} (hes : ∀ e ∈ es, IsLEdge e) (hn : n < es.length)
    (h : CrossedL s es n t) : ∃ u, step t = .next u ∧ CrossedL s es (n + 1) u := by
  obtain ⟨r, a, b, c, he⟩ := hes _ (List.getElem_mem hn)
  have hev : t.sched.events = .l r a b c :: es.drop (n + 1) := by rw [h.events, List.drop_eq_getElem_cons hn, he]
  obtain ⟨u, hu⟩ := lStep_goesOn (s := { t with sched := { t.sched with events := es.drop (n + 1) } }) h.ctl h.frame
    r a b c
  obtain ⟨-, hh, -, hsched, -⟩ := lStep_frame hu
  obtain ⟨htx, hrx, hinit, hctx, hcrx, hcinit⟩ := lStep_chains hu
  have hs : step t = .next u := (step_cons h.ctl.1 hev).trans hu
  refine ⟨u, hs, ctlInv_step hs h.ctl, frameInv_step hs h.frame, by rw [hsched], hh.trans h.h, ?_, ?_, ?_⟩
  · rw [htx, hctx, h.h]
    exact h.txW.shift a
  · rw [hrx, hcrx, h.h]
    exact h.rxR.shift b
  · rw [hinit, hcinit, h.h]
    exact h.init.shift c

theorem runSteps_crossedL {s : State} {n : Nat} (hc : CtlInv s) (hf : FrameInv s)
    (hes : ∀ e ∈ s.sched.events, IsLEdge e) (hn : n ≤ s.sched.events.length) :
    ∃ t, runSteps n s = .next t ∧ CrossedL s s.sched.events n t :=
  runSteps_induction ⟨hc, hf, rfl, rfl, .start _ _ _, .start _ _ _, .start _ _ _⟩
    fun _ _ hm h => h.exists_step hes (Nat.lt_of_lt_of_le hm hn)

end Sys2Proof.Machine

namespace Sys2Proof.Proofs

open Sys2Proof Sys2Proof.Machine

/-- Settles O51, by induction on the H edges: after `n` of them L's pointers have come `n` stages. -/
theorem crossingIntoHTakesTheChainLength : Obligations.CrossingIntoHTakesTheChainLength := by
  unfold Obligations.CrossingIntoHTakesTheChainLength
  rintro s es hc rfl hes hlen
  obtain ⟨htx, hrx, -⟩ := chains_ne_nil hc
  obtain ⟨-, -, -, -, -, -, l1, l2, -⟩ := id hc
  refine ⟨?_, fun n hn => ?_⟩
  · obtain ⟨t, ht, h⟩ := runSteps_crossedH hc hes hlen.ge
    exact ⟨t, ht, Crossing.last_new (l1.symm ▸ h.txR) htx 0, Crossing.last_new (l2.symm ▸ h.rxW) hrx 0⟩
  · obtain ⟨t, ht, h⟩ := runSteps_crossedH (n := n) hc hes (by omega)
    exact ⟨t, ht, h.txR.last_old (l1.symm ▸ hn) 0, h.rxW.last_old (l2.symm ▸ hn) 0⟩

/-- Settles O52, by induction on the L edges: after `n` of them H's pointers and `h_init` have come `n` stages. -/
theorem crossingIntoLTakesTheChainLength : Obligations.CrossingIntoLTakesTheChainLength := by
  unfold Obligations.CrossingIntoLTakesTheChainLength
  rintro s es hc hf rfl hes hlen
  obtain ⟨-, -, htx, hrx, hin⟩ := chains_ne_nil hc
  obtain ⟨-, -, -, -, -, -, -, -, l3, l4, l5⟩ := id hc
  refine ⟨?_, fun n hn => ?_⟩
  · obtain ⟨t, ht, h⟩ := runSteps_crossedL hc hf hes hlen.ge
    exact ⟨t, ht, Crossing.last_new (l3.symm ▸ h.txW) htx 0, Crossing.last_new (l4.symm ▸ h.rxR) hrx 0,
      Crossing.last_new (l5.symm ▸ h.init) hin false⟩
  · obtain ⟨t, ht, h⟩ := runSteps_crossedL (n := n) hc hf hes (by omega)
    exact ⟨t, ht, h.txW.last_old (l3.symm ▸ hn) 0, h.rxR.last_old (l4.symm ▸ hn) 0,
      h.init.last_old (l5.symm ▸ hn) false⟩

/-- Settles O23, from the shifts that end each edge. -/
theorem chainsSampleAndShiftAtEveryEdge : Obligations.ChainsSampleAndShiftAtEveryEdge := by
  unfold Obligations.ChainsSampleAndShiftAtEveryEdge
  exact ⟨fun _ _ _ _ _ h => hStep_chains h, fun _ _ _ _ _ _ h => lStep_chains h⟩

end Sys2Proof.Proofs
end

section
/-! PROOFS. What both queues hold across an edge, as R112 has it: entries leave at the front and join at the back; a byte
joins TX as a WRITE's answer alone. And the memory family's invariants, of one step and of every reachable state
(spec/20_memory.md R83 to R112; spec/41_line_engines.md R241). -/

namespace Sys2Proof.Machine

/-! ### The two queues -/

theorem txQueue_eq_window (s : State) : txQueue s = window s.mem.txAt s.cfg.txDepth s.l.txR.bin s.occTx := rfl

/-- A push to TX with room seen adds its byte at the back (R106, R112). -/
theorem txQueue_pushTx {s : State} (b : Byte) (hc : CtlInv s) (h : TxInv s) (room : s.txFullH = false) :
    txQueue (s.pushTx b) = txQueue s ++ [b] := by
  have hw := window_push (f := s.mem.txAt) (g := (s.pushTx b).mem.txAt) h (chains_ne_nil hc).1 (tx_room hc h room)
    fun i hi => by
      have hi : i ≠ s.h.txW.bin % s.cfg.txDepth := hi
      simp [Storage.txAt, memory_read_write_other _ b hi]
  have hback : (s.pushTx b).mem.txAt (s.h.txW.bin % 2 ^ s.cfg.txAw) = b := by simp [Storage.txAt, Config.txDepth]
  rw [hback] at hw
  exact hw

/-- A pop of TX with a byte seen takes the head L reads (R107, R112). -/
theorem txQueue_popTx {s : State} (hc : CtlInv s) (h : TxInv s) (seen : s.txEmptyL = false) :
    txQueue s = s.txHeadL :: txQueue s.popTx :=
  window_pop (f := s.mem.txAt) h (chains_ne_nil hc).2.2.1 (by simpa [State.txEmptyL] using seen)

/-- A framing move leaves TX and the line out alone (R225). -/
theorem FramingMove.txQueue_eq {s t : State} (h : FramingMove s t) :
    t.line.out = s.line.out ∧ txQueue t = txQueue s := by
  cases h <;> exact ⟨rfl, rfl⟩

/-- What the transmit step takes from the front of TX goes to the end of `line_out` (R240, R241). -/
theorem transmit_fifo (r : Bool) {s : State} (hc : CtlInv s) (h : TxInv s) :
    (s.transmit r).line.out ++ txQueue (s.transmit r) = s.line.out ++ txQueue s := by
  obtain ⟨-, he, -, ht⟩ | ⟨-, ht⟩ := transmit_cases r s <;> rw [ht]
  · rw [txQueue_popTx hc h he]
    exact List.append_assoc _ [s.txHeadL] (txQueue s.popTx)

/-- A framing move adds an entry to RX, or none (R236, R237). -/
theorem FramingMove.rxQueue_cases {s t : State} (hc : CtlInv s) (hf : FrameInv s) (h : RxInv s)
    (hm : FramingMove s t) : rxQueue t = rxQueue s ∨ ∃ e, rxQueue t = rxQueue s ++ [e] := by
  have hpush := fun e fs pub => rxQueue_pushRx (s := s) e hc h (rx_room hf h fs pub)
  cases hm with
  | none | term | full | byte | start | drop => exact .inl rfl
  | entry fs pub => exact .inr ⟨_, hpush _ fs pub⟩
  | marker fs pub => exact .inr ⟨_, hpush _ fs pub⟩

/-- A queue move takes the head of RX that H reads, or nothing (R190, R197). -/
theorem QueueMove.rxQueue_cases {s t : State} (hc : CtlInv s) (h : RxInv s) (hm : QueueMove s t) :
    rxQueue t = rxQueue s ∨ rxQueue s = s.rxHeadH :: rxQueue t := by
  cases hm with
  | keep rest => exact .inl (rxQueue_of_controlOnly rest)
  | push b _ _ rest => exact .inl (rxQueue_of_controlOnly (s := s.pushTx b) rest)
  | pop seen rest =>
    rw [rxQueue_of_controlOnly rest]
    exact .inr (rxQueue_popRx hc h seen)

/-! ### A push to TX is a WRITE -/

/-- What the sequencer can do to TX from `s`: nothing, or, with room seen, push the byte in `h_byte` for the WRITE in
`h_op` and answer it OK with COUNT 1 (R183). -/
inductive WriteMove (s t : State) : Prop where
  | keep (txW : t.h.txW = s.h.txW) (tx : t.mem.tx = s.mem.tx)
  | write (room : s.txFullH = false) (txW : t.h.txW = (s.pushTx t.h.byte).h.txW)
      (tx : t.mem.tx = (s.pushTx t.h.byte).mem.tx) (op : t.h.op = waitOpCode .write) (valid : t.h.rspValid = true)
      (word : t.h.rspWord = rspPack .ok .final .none 0 1)

theorem WriteMove.of_controlOnly {s t : State} (r : ControlOnly s t) : WriteMove s t :=
  .keep r.txW (congrArg Storage.tx r.mem)

theorem processEntry_writeMove (ops : Operands) (s : State) : WriteMove s (processEntry ops s) := by
  cases hm : Entry.mark s.rxHeadH with
  | true =>
    rw [processEntry_mark ops hm]
    exact .keep rfl rfl
  | false =>
    rw [processEntry_data ops hm]
    have r := ControlOnly.copyByte ops (Entry.data s.rxHeadH) s.popRx
    exact .keep r.txW (congrArg Storage.tx r.mem)

/-- A successful attempt of the command that `h_op` holds (R174). -/
theorem act_writeMove {op : WaitOp} (timeout : Nat) {s : State} (ho : s.h.op = waitOpCode op)
    (hc : condition op s = true) : WriteMove s (act op s.latchedOps timeout s) := by
  cases op with
  | write => exact .write (by simpa [condition] using hc) rfl rfl ho rfl rfl
  | read =>
    show WriteMove s (actRead timeout s)
    cases hm : Entry.mark s.rxHeadH with
    | true =>
      rw [actRead_mark timeout hm]
      exact .keep rfl rfl
    | false =>
      rw [actRead_data timeout hm]
      exact .keep rfl rfl
  | readu => exact processEntry_writeMove _ s

theorem acceptWaiting_writeMove (op : WaitOp) (nb : Bool) (b : Byte) (cap : Half) (s : State) :
    WriteMove s (acceptWaiting op nb b cap s) := by
  cases hi : s.h.init with
  | false =>
    rw [acceptWaiting_uninit op nb b cap hi]
    exact .keep rfl rfl
  | true =>
    cases hc : condition op s with
    | true =>
      rw [acceptWaiting_ready nb b cap hi hc]
      cases act_writeMove (s := s.latch op b cap) (effTimeout s.cfg op nb) rfl (by simpa using hc) with
      | keep txW tx => exact .keep txW tx
      | write room txW tx op valid word => exact .write room txW tx op valid word
    | false =>
      by_cases ht : effTimeout s.cfg op nb = 0
      · rw [acceptWaiting_noTime b cap hi hc ht]
        exact .keep rfl rfl
      · rw [acceptWaiting_wait b cap hi hc ht]
        exact .keep rfl rfl

theorem exec_writeMove {i : Instr} {s t : State} (h : exec i s = .next t) : WriteMove s t := by
  obtain ⟨-, hx⟩ | ⟨-, st, c, hx⟩ | ⟨op, nb, b, cap, hx, -⟩ | ⟨c, -, hx⟩ := exec_cases i s <;> rw [hx] at h <;> cases h
  · exact .of_controlOnly ((ControlOnly.setInit s).trans (.respond _ _ _ _ _ _))
  · exact .keep rfl rfl
  · exact acceptWaiting_writeMove op nb b cap s
  · exact .keep rfl rfl

theorem waitFor_writeMove {op : WaitOp} {s : State} (ho : waitOpOf s.h.op = some op) : WriteMove s (waitFor op s) := by
  obtain ⟨hc, h⟩ | ⟨-, -, h⟩ | ⟨-, -, -, -, h⟩ | ⟨-, -, -, h⟩ := waitFor_cases op s <;> rw [h]
  · exact act_writeMove _ (waitOpOf_some ho) hc
  · exact .keep rfl rfl
  · exact .keep rfl rfl
  · exact .keep rfl rfl

theorem untilStep_writeMove (s : State) : WriteMove s (untilStep s) := by
  obtain ⟨-, h⟩ | ⟨-, h⟩ := untilStep_cases s <;> rw [h]
  · exact .keep rfl rfl
  · exact processEntry_writeMove _ s

theorem sequencer_writeMove {s t : State} (h : sequencer s = .next t) : WriteMove s t := by
  obtain ⟨-, -, hx⟩ | ⟨-, -, rfl⟩ | ⟨-, op, ho, rfl⟩ | ⟨-, rfl⟩ := sequencer_cases h
  · cases exec_writeMove hx with
    | keep txW tx => exact .keep txW tx
    | write room txW tx op valid word => exact .write room txW tx op valid word
  · exact .keep rfl rfl
  · exact waitFor_writeMove ho
  · exact untilStep_writeMove s

/-- What H changes of TX's contents it changes by the write pointer and the array alone. -/
theorem txQueue_congr {s t : State} (hcfg : t.cfg = s.cfg) (hl : t.l = s.l) (hep : t.mem.epoch = s.mem.epoch)
    (hw : t.h.txW = s.h.txW) (hm : t.mem.tx = s.mem.tx) : txQueue t = txQueue s := by
  simp only [txQueue, State.occTx, Storage.txAt, hcfg, hl, hep, hw, hm]

/-- An H edge keeps TX, or answers a WRITE whose byte joins it at the back (R112, R183). -/
theorem hStep_txQueue {o a b : Bool} {s t : State} (hc : CtlInv s) (h : TxInv s) (hs : hStep o a b s = .next t) :
    txQueue t = txQueue s ∨ (txQueue t = txQueue s ++ [t.h.byte] ∧ t.h.op = waitOpCode .write ∧ t.h.rspValid = true ∧
      t.h.rspWord = rspPack .ok .final .none 0 1) := by
  obtain ⟨u, hu, rfl⟩ := hStep_next.1 hs
  obtain ⟨hcfg, hl, -, -, -, -, hep, -⟩ := hStep_frame hs
  cases sequencer_writeMove hu with
  | keep txW tx => exact .inl (txQueue_congr hcfg hl hep txW tx)
  | write room txW tx op valid word =>
    have hq : txQueue (u.finishH a b) = txQueue (s.pushTx u.h.byte) := txQueue_congr hcfg hl hep txW tx
    exact .inr ⟨hq.trans (txQueue_pushTx _ hc h room), op, valid, word⟩

end Sys2Proof.Machine

namespace Sys2Proof.Proofs

open Sys2Proof Sys2Proof.Machine

/-- Settles O49: the transmit step moves the front of TX to the end of the line, and the one push of an H edge is a
WRITE's. -/
theorem txIsFirstInFirstOutToTheWire : Obligations.TxIsFirstInFirstOutToTheWire := by
  unfold Obligations.TxIsFirstInFirstOutToTheWire
  refine ⟨fun s t r a b c hc h hs => ?_, fun s t o a b hc h hs => ?_⟩
  · obtain ⟨u, hm, rfl⟩ := lStep_move hs
    obtain ⟨hout, hq⟩ := hm.txQueue_eq
    rw [← transmit_fifo r hc h, ← hout, ← hq]
    rfl
  · obtain ⟨-, -, hline, -⟩ := hStep_frame hs
    have hword : rspPack .ok .final .none 0 1 = 0x0001_0001#32 := by decide
    exact ⟨by rw [hline], hword ▸ hStep_txQueue hc h hs⟩

/-- Settles O50, by the moves of the framing step and of the sequencer. -/
theorem rxIsFirstInFirstOut : Obligations.RxIsFirstInFirstOut := by
  unfold Obligations.RxIsFirstInFirstOut
  refine ⟨fun s t r a b c hc hf h hs => ?_, fun s t o a b hc _ h hs => ?_⟩
  · obtain ⟨u, hm, rfl⟩ := lStep_move hs
    have hv : (CtlInv (s.transmit r) ∧ FrameInv (s.transmit r) ∧ RxInv (s.transmit r)) ∧
        rxQueue (s.transmit r) = rxQueue s := by
      rw [transmit_frame]
      exact ⟨⟨hc, hf, h⟩, rfl⟩
    obtain ⟨⟨hc', hf', h'⟩, hq⟩ := hv
    rw [← hq]
    exact FramingMove.rxQueue_cases (t := u) hc' hf' h' hm
  · obtain ⟨e, u, -, hm, rfl⟩ := hStep_move hs
    exact QueueMove.rxQueue_cases (s := s.atPort e) (t := u) hc h hm

/-- Settles O39, by the push, the pop and the shifts of each edge. -/
theorem txPointerInvariantIsKept : Obligations.TxPointerInvariantIsKept := by
  unfold Obligations.TxPointerInvariantIsKept
  exact fun _ _ hc h hs => txInv_step hs hc h

/-- Settles O40, by the push, the pop and the shifts of each edge, and the room a publish reserves. -/
theorem rxPointerInvariantIsKept : Obligations.RxPointerInvariantIsKept := by
  unfold Obligations.RxPointerInvariantIsKept
  exact fun _ _ hc hf h hs => rxInv_step hs hc hf h

/-- Settles O42: an entry is written by the push that makes it readable, and overwritten by none before its pop. -/
theorem readableEntriesStayWritten : Obligations.ReadableEntriesStayWritten := by
  unfold Obligations.ReadableEntriesStayWritten
  exact fun _ _ hc hf ht hr h hs => writtenInv_step hs hc hf ht hr h

/-- Settles O43: H takes entries from the front, and L publishes a frame's bytes and then its END marker. -/
theorem framesStayFramed : Obligations.FramesStayFramed := by
  unfold Obligations.FramesStayFramed
  exact fun _ _ hc hf hr _ h hs => streamInv_step hs hc hf hr h

/-- Settles O48: the pointer invariants hold in every reachable state, and bound the last stage of each chain. -/
theorem occupancyIsBoundedAndFlagsAreConservative : Obligations.OccupancyIsBoundedAndFlagsAreConservative := by
  unfold Obligations.OccupancyIsBoundedAndFlagsAreConservative
  intro s h
  obtain ⟨hc, -, -, ht, ⟨hr, -⟩, -⟩ := inv_reachable h
  obtain ⟨htxR, hrxW, htxW, hrxR, -⟩ := chains_ne_nil hc
  obtain ⟨-, -, -, -, -, htx, -⟩ := id ht
  obtain ⟨-, -, -, -, -, hrx, -⟩ := id hr
  exact ⟨htx, hrx, ahead_synced_le_occ ht htxW, (occ_le_behind_synced ht htxR).1, ahead_synced_le_occ hr hrxW,
    (occ_le_behind_synced hr hrxR).1⟩

/-- Settles O37: a byte is pushed after INIT alone, and `l_init_sync` samples only what `h_init` has been. -/
theorem initialisationInvariantIsKept : Obligations.InitialisationInvariantIsKept := by
  unfold Obligations.InitialisationInvariantIsKept
  exact fun _ _ hc hi hs => initInv_step hs hc hi

end Sys2Proof.Proofs
end

section
/-! PROOFS. The command word: what each opcode decodes to, the round trips between the decoder and the encoder, and the
bits a command ignores (spec/30_encoding.md R130 to R139). -/

namespace Sys2Proof

open Sys2Proof.Machine

/-! ### What a word decodes to -/

section

variable {w : Word}

theorem decode_op0 (ho : fieldOp w = 0#4) : decode w = .illegalOp0 (fieldRest w) := by simp [decode, ho]

theorem decode_op67 (ho : fieldOp w = 6#4 ∨ fieldOp w = 7#4) : decode w = .illegalOp67 (fieldOp w) (fieldRest w) := by
  rcases ho with ho | ho <;> simp [decode, ho]

theorem decode_op8F (ho : 8 ≤ (fieldOp w).toNat) : decode w = .illegalOp8F (fieldOp w) (fieldRest w) := by
  have h0 : fieldOp w ≠ 0#4 := by bv_omega
  have h67 : ¬(fieldOp w = 6#4 ∨ fieldOp w = 7#4) := by bv_omega
  simp [decode, h0, h67, ho]

/-- RSV is looked at only once OP is from 1 to 5 (R136). -/
theorem decode_rsv (ho : 1 ≤ (fieldOp w).toNat ∧ (fieldOp w).toNat ≤ 5) (hr : fieldRsv w ≠ 0#3) :
    decode w = .illegalRsv (fieldOp w) (fieldNb w) (fieldRsv w) (fieldCap w) (fieldB w) := by
  have h0 : fieldOp w ≠ 0#4 := by bv_omega
  have h67 : ¬(fieldOp w = 6#4 ∨ fieldOp w = 7#4) := by bv_omega
  have h8 : ¬8 ≤ (fieldOp w).toNat := by omega
  rw [decode, if_neg h0, if_neg h67, if_neg h8, if_pos hr]

theorem decode_init (ho : fieldOp w = 1#4) (hr : fieldRsv w = 0#3) : decode w = .init := by simp [decode, ho, hr]

theorem decode_avail (ho : fieldOp w = 3#4) (hr : fieldRsv w = 0#3) : decode w = .avail := by simp [decode, ho, hr]

theorem decode_wait {op : WaitOp} (ho : fieldOp w = waitOpCode op) (hr : fieldRsv w = 0#3) :
    decode w = waitInstr op (fieldNb w) (fieldB w) (fieldCap w) := by
  cases op <;> cases hn : fieldNb w <;> simp [decode, ho, hr, hn, waitOpCode, waitInstr]

end

/-- Every case of the decoder: the opcodes of no command, then the reserved bits, then the five commands (R136). -/
theorem decode_cases (w : Word) :
    (fieldOp w = 0#4 ∧ decode w = .illegalOp0 (fieldRest w)) ∨
    ((fieldOp w = 6#4 ∨ fieldOp w = 7#4) ∧ decode w = .illegalOp67 (fieldOp w) (fieldRest w)) ∨
    (8 ≤ (fieldOp w).toNat ∧ decode w = .illegalOp8F (fieldOp w) (fieldRest w)) ∨
    ((1 ≤ (fieldOp w).toNat ∧ (fieldOp w).toNat ≤ 5) ∧ fieldRsv w ≠ 0#3 ∧
      decode w = .illegalRsv (fieldOp w) (fieldNb w) (fieldRsv w) (fieldCap w) (fieldB w)) ∨
    (fieldOp w = 1#4 ∧ fieldRsv w = 0#3 ∧ decode w = .init) ∨
    (fieldOp w = 3#4 ∧ fieldRsv w = 0#3 ∧ decode w = .avail) ∨
    (∃ op, fieldOp w = waitOpCode op ∧ fieldRsv w = 0#3 ∧
      decode w = waitInstr op (fieldNb w) (fieldB w) (fieldCap w)) := by
  have illegal : ∀ o : BitVec 4, ¬(1 ≤ o.toNat ∧ o.toNat ≤ 5) → o = 0#4 ∨ (o = 6#4 ∨ o = 7#4) ∨ 8 ≤ o.toNat := by
    decide
  have legal : ∀ o : BitVec 4, 1 ≤ o.toNat ∧ o.toNat ≤ 5 →
      o = 1#4 ∨ o = 3#4 ∨ o = 0x2#4 ∨ o = 0x4#4 ∨ o = 0x5#4 := by decide
  by_cases ho : 1 ≤ (fieldOp w).toNat ∧ (fieldOp w).toNat ≤ 5
  · by_cases hr : fieldRsv w = 0#3
    · refine .inr (.inr (.inr (.inr ?_)))
      obtain h | h | h | h | h := legal _ ho
      · exact .inl ⟨h, hr, decode_init h hr⟩
      · exact .inr (.inl ⟨h, hr, decode_avail h hr⟩)
      · exact .inr (.inr ⟨.write, h, hr, decode_wait h hr⟩)
      · exact .inr (.inr ⟨.read, h, hr, decode_wait h hr⟩)
      · exact .inr (.inr ⟨.readu, h, hr, decode_wait h hr⟩)
    · exact .inr (.inr (.inr (.inl ⟨ho, hr, decode_rsv ho hr⟩)))
  · obtain h | h | h := illegal _ ho
    · exact .inl ⟨h, decode_op0 h⟩
    · exact .inr (.inl ⟨h, decode_op67 h⟩)
    · exact .inr (.inr (.inl ⟨h, decode_op8F h⟩))

/-! ### Masks, field by field -/

theorem fieldOp_and (w m : Word) : fieldOp (w &&& m) = fieldOp w &&& fieldOp m := BitVec.extractLsb'_and

theorem fieldNb_and (w m : Word) : fieldNb (w &&& m) = (fieldNb w && fieldNb m) := BitVec.getLsbD_and

theorem fieldRsv_and (w m : Word) : fieldRsv (w &&& m) = fieldRsv w &&& fieldRsv m := BitVec.extractLsb'_and

theorem fieldCap_and (w m : Word) : fieldCap (w &&& m) = fieldCap w &&& fieldCap m := BitVec.extractLsb'_and

theorem fieldB_and (w m : Word) : fieldB (w &&& m) = fieldB w &&& fieldB m := BitVec.extractLsb'_and

/-- The bits of CAP that a waiting command uses: READU's copy limit (R134, R135). -/
def capMask : WaitOp → Half
  | .readu => 0xFFFF#16
  | .write | .read => 0#16

/-- The bits of B that a waiting command uses: WRITE's byte and READU's terminator (R134, R135). -/
def byteMask : WaitOp → Byte
  | .write | .readu => 0xFF#8
  | .read => 0#8

theorem usedBits_waitInstr (op : WaitOp) (nb : Bool) (b : Byte) (cap : Half) :
    usedBits (waitInstr op nb b cap) = packWord 0xF true 7 (capMask op) (byteMask op) := by
  have h : ∀ op, usedBits (waitInstr op false 0 0) = packWord 0xF true 7 (capMask op) (byteMask op) := by
    rintro (_ | _ | _) <;> decide
  rw [← h]
  cases op <;> cases nb <;> rfl

theorem encode_waitInstr (op : WaitOp) (nb : Bool) (b : Byte) (cap : Half) :
    encode (waitInstr op nb b cap) = packWord (waitOpCode op) nb 0 (cap &&& capMask op) (b &&& byteMask op) := by
  have hb : b &&& 0xFF#8 = b := BitVec.and_allOnes
  have hc : cap &&& 0xFFFF#16 = cap := BitVec.and_allOnes
  cases op <;> cases nb <;> simp [encode, waitInstr, waitOpCode, capMask, byteMask, hb, hc]

/-- The operands a waiting command keeps are those in its mask (R132). -/
theorem waitInstr_masked (op : WaitOp) (nb : Bool) (b : Byte) (cap : Half) :
    waitInstr op nb (b &&& byteMask op) (cap &&& capMask op) = waitInstr op nb b cap := by
  have hb : b &&& 0xFF#8 = b := BitVec.and_allOnes
  have hc : cap &&& 0xFFFF#16 = cap := BitVec.and_allOnes
  cases op <;> cases nb <;> simp [waitInstr, capMask, byteMask, hb, hc]

theorem waitInstr_wf (op : WaitOp) (nb : Bool) (b : Byte) (cap : Half) : (waitInstr op nb b cap).wf = true := by
  cases op <;> cases nb <;> rfl

theorem decode_encode_waitInstr (op : WaitOp) (nb : Bool) (b : Byte) (cap : Half) :
    decode (encode (waitInstr op nb b cap)) = waitInstr op nb b cap := by
  rw [encode_waitInstr, decode_wait (op := op) (by simp) (by simp)]
  simp [waitInstr_masked]

/-- Masking a word keeps of each field what the mask has there. -/
theorem and_packWord (w : Word) (op : BitVec 4) (nb : Bool) (rsv : BitVec 3) (cap : Half) (b : Byte) :
    w &&& packWord op nb rsv cap b =
      packWord (fieldOp w &&& op) (fieldNb w && nb) (fieldRsv w &&& rsv) (fieldCap w &&& cap) (fieldB w &&& b) := by
  conv_lhs => rw [← packWord_fields (w &&& packWord op nb rsv cap b)]
  simp [fieldOp_and, fieldNb_and, fieldRsv_and, fieldCap_and, fieldB_and]

/-- An illegal command keeps every bit of its word (R139, log 22). -/
theorem and_usedBits_illegal {i : Instr} {c : Cause} (h : illegalCause i = some c) (w : Word) :
    w &&& usedBits i = w := by
  cases i with
  | illegalOp0 | illegalOp67 | illegalOp8F | illegalRsv => exact BitVec.and_allOnes
  | init | write | writeNb | avail | read | readNb | readu | readuNb => cases h

/-- The decoder gives back every command that has a word (R130, R136). -/
theorem decode_encode {i : Instr} (hi : i.wf = true) : decode (encode i) = i := by
  cases i with
  | init => exact decode_init (by simp [encode]) (by simp [encode])
  | avail => exact decode_avail (by simp [encode]) (by simp [encode])
  | write b => exact decode_encode_waitInstr .write false b 0
  | writeNb b => exact decode_encode_waitInstr .write true b 0
  | read => exact decode_encode_waitInstr .read false 0 0
  | readNb => exact decode_encode_waitInstr .read true 0 0
  | readu term cap => exact decode_encode_waitInstr .readu false term cap
  | readuNb term cap => exact decode_encode_waitInstr .readu true term cap
  | illegalOp0 rest => simpa [encode] using decode_op0 (w := 0#4 ++ rest) (by simp)
  | illegalOp67 op rest => simpa [encode] using decode_op67 (w := op ++ rest) (by simpa [Instr.wf] using hi)
  | illegalOp8F op rest => simpa [encode] using decode_op8F (w := op ++ rest) (by simpa [Instr.wf] using hi)
  | illegalRsv op nb rsv cap b =>
    have h : (1 ≤ op.toNat ∧ op.toNat ≤ 5) ∧ rsv ≠ 0#3 := by simpa [Instr.wf] using hi
    simpa [encode] using decode_rsv (w := packWord op nb rsv cap b) (by simpa using h.1) (by simpa using h.2)

end Sys2Proof

namespace Sys2Proof.Proofs

open Sys2Proof Sys2Proof.Machine

/-- Settles O1, by the decoder's case for the fields of each command's word. -/
theorem decodeEncodeRoundTrip : Obligations.DecodeEncodeRoundTrip := by
  unfold Obligations.DecodeEncodeRoundTrip
  exact fun _ hi => decode_encode hi

/-- Settles O2, by the cases of the decoder: a word is its fields, and the mask keeps those the command has. -/
theorem everyWordDecodesToItsUsedBits : Obligations.EveryWordDecodesToItsUsedBits := by
  unfold Obligations.EveryWordDecodesToItsUsedBits
  intro w
  obtain ⟨h, hd⟩ | ⟨h, hd⟩ | ⟨h, hd⟩ | ⟨h, hr, hd⟩ | ⟨h, hr, hd⟩ | ⟨h, hr, hd⟩ | ⟨op, h, hr, hd⟩ := decode_cases w <;>
    rw [hd]
  · refine ⟨rfl, ?_⟩
    rw [and_usedBits_illegal rfl, encode, ← h, append_fields]
  · refine ⟨by simpa [Instr.wf] using h, ?_⟩
    rw [and_usedBits_illegal rfl, encode, append_fields]
  · refine ⟨by simpa [Instr.wf] using h, ?_⟩
    rw [and_usedBits_illegal rfl, encode, append_fields]
  · refine ⟨by simp [Instr.wf, h, hr], ?_⟩
    rw [and_usedBits_illegal rfl, encode, packWord_fields]
  · have hm : usedBits .init = packWord 0xF false 7 0 0 := by decide
    refine ⟨rfl, ?_⟩
    rw [hm, and_packWord, h, hr]
    simp [encode]
  · have hm : usedBits .avail = packWord 0xF false 7 0 0 := by decide
    refine ⟨rfl, ?_⟩
    rw [hm, and_packWord, h, hr]
    simp [encode]
  · have ho : waitOpCode op &&& 0xF = waitOpCode op := BitVec.and_allOnes
    refine ⟨waitInstr_wf _ _ _ _, ?_⟩
    rw [usedBits_waitInstr, and_packWord, encode_waitInstr, h, hr, ho]
    simp

/-- Settles O3, by the cases of the decoder. -/
theorem decodeFollowsTheOpcodeMap : Obligations.DecodeFollowsTheOpcodeMap := by
  unfold Obligations.DecodeFollowsTheOpcodeMap
  refine fun w => ⟨fun hop => ?_, fun ⟨h1, h5, hr⟩ => ?_, fun hr => ?_⟩
  · obtain ⟨-, hd⟩ | ⟨-, hd⟩ | ⟨-, hd⟩ | ⟨h, -⟩ | ⟨h, -⟩ | ⟨h, -⟩ | ⟨op, h, -⟩ := decode_cases w
    · rw [hd]; rfl
    · rw [hd]; rfl
    · rw [hd]; rfl
    · exact absurd h hop
    · exact absurd (by rw [h]; decide) hop
    · exact absurd (by rw [h]; decide) hop
    · exact absurd (by rw [h]; cases op <;> decide) hop
  · rw [decode_rsv ⟨h1, h5⟩ hr]
    rfl
  · exact ⟨fun h => decode_init h hr, fun h => decode_wait (op := .write) h hr, fun h => decode_avail h hr,
      fun h => decode_wait (op := .read) h hr, fun h => decode_wait (op := .readu) h hr⟩

/-- Settles O5, by running the decoder on each word. -/
theorem specWordsDecodeAsWritten : Obligations.SpecWordsDecodeAsWritten := by
  unfold Obligations.SpecWordsDecodeAsWritten
  decide

end Sys2Proof.Proofs
end

section
/-! PROOFS. The response word: its fields, and what a step can do to it, said once: an H edge is silent, ends its
command with a FINAL beat, or gives a DATA beat of a READU that goes on (spec/30_encoding.md R140 to R143;
spec/40_host_commands.md R172). -/

namespace Sys2Proof.Machine

theorem rspData_rspPack (st : St) (k : Kind) (c : Cause) (d : Byte) (n : Half) : rspData (rspPack st k c d n) = d := by
  unfold rspData rspPack
  ext i hi
  simp only [BitVec.getElem_extractLsb', BitVec.getLsbD_append]
  interval_cases i <;> simp

theorem rspCount_rspPack (st : St) (k : Kind) (c : Cause) (d : Byte) (n : Half) :
    rspCount (rspPack st k c d n) = n := by
  unfold rspCount rspPack
  ext i hi
  simp only [BitVec.getElem_extractLsb', BitVec.getLsbD_append]
  interval_cases i <;> simp

/-- What the sequencer can do to the response from `s`: nothing, and the pending command stays; end the command with a
FINAL beat; or give a DATA beat of a READU, which goes on in UNTIL (R142, R172, R197). -/
inductive AnswerMove (s t : State) : Prop where
  | silent (valid : t.h.rspValid = s.h.rspValid) (word : t.h.rspWord = s.h.rspWord)
      (pending : s.h.seq ≠ .idle → t.h.seq ≠ .idle)
  | final (st : St) (c : Cause) (d : Byte) (n : Half) (word : t.h.rspWord = rspPack st .final c d n)
      (valid : t.h.rspValid = true) (seq : t.h.seq = .idle)
  | data (d : Byte) (n : Half) (word : t.h.rspWord = rspPack .ok .data .none d n) (valid : t.h.rspValid = true)
      (seq : t.h.seq = .untilEnd)

/-- An answer at a state in IDLE is the FINAL beat of the command accepted there. -/
theorem AnswerMove.respond (st : St) (c : Cause) (d : Byte) (n : Half) {s u : State} (hq : u.h.seq = .idle) :
    AnswerMove s (u.respond st .final c d n) := .final st c d n rfl rfl hq

theorem AnswerMove.finish (st : St) (c : Cause) (d : Byte) (n : Half) (s u : State) :
    AnswerMove s ((u.respond st .final c d n).setSeq .idle) := .final st c d n rfl rfl rfl

theorem processEntry_answerMove (ops : Operands) (s : State) : AnswerMove s (processEntry ops s) := by
  cases hm : Entry.mark s.rxHeadH with
  | true =>
    rw [processEntry_mark ops hm]
    exact .finish _ _ _ _ _ _
  | false =>
    rw [processEntry_data ops hm]
    obtain ⟨-, h⟩ | ⟨-, -, -, h⟩ | ⟨-, -, -, h⟩ := copyByte_cases ops (Entry.data s.rxHeadH) s.popRx <;> rw [h]
    · exact .silent rfl rfl nofun
    · exact .silent rfl rfl nofun
    · exact .data _ _ rfl rfl rfl

theorem act_answerMove (op : WaitOp) (ops : Operands) (timeout : Nat) (s : State) :
    AnswerMove s (act op ops timeout s) := by
  cases op with
  | write => exact .finish _ _ _ _ _ _
  | read =>
    show AnswerMove s (actRead timeout s)
    cases hm : Entry.mark s.rxHeadH with
    | true =>
      rw [actRead_mark timeout hm]
      exact .silent rfl rfl nofun
    | false =>
      rw [actRead_data timeout hm]
      exact .finish _ _ _ _ _ _
  | readu => exact processEntry_answerMove ops s

theorem acceptWaiting_answerMove (op : WaitOp) (nb : Bool) (b : Byte) (cap : Half) {s : State}
    (hq : s.h.seq = .idle) : AnswerMove s (acceptWaiting op nb b cap s) := by
  cases hi : s.h.init with
  | false =>
    rw [acceptWaiting_uninit op nb b cap hi]
    exact .respond _ _ _ _ hq
  | true =>
    cases hc : condition op s with
    | true =>
      rw [acceptWaiting_ready nb b cap hi hc]
      cases act_answerMove op ⟨b, cap, 0, false⟩ (effTimeout s.cfg op nb) (s.latch op b cap) with
      | silent valid word pending => exact .silent valid word pending
      | final st c d n word valid seq => exact .final st c d n word valid seq
      | data d n word valid seq => exact .data d n word valid seq
    | false =>
      by_cases ht : effTimeout s.cfg op nb = 0
      · rw [acceptWaiting_noTime b cap hi hc ht]
        exact .respond _ _ _ _ hq
      · rw [acceptWaiting_wait b cap hi hc ht]
        exact .silent rfl rfl nofun

theorem exec_answerMove {i : Instr} {s t : State} (hq : s.h.seq = .idle) (h : exec i s = .next t) : AnswerMove s t := by
  obtain ⟨-, hx⟩ | ⟨-, st, c, hx⟩ | ⟨op, nb, b, cap, hx, -⟩ | ⟨c, -, hx⟩ := exec_cases i s <;> rw [hx] at h <;> cases h
  · exact .respond _ _ _ _ (by simpa using hq)
  · exact .respond _ _ _ _ hq
  · exact acceptWaiting_answerMove op nb b cap hq
  · exact .respond _ _ _ _ hq

theorem waitFor_answerMove (op : WaitOp) (s : State) : AnswerMove s (waitFor op s) := by
  obtain ⟨-, h⟩ | ⟨-, -, h⟩ | ⟨-, -, -, -, h⟩ | ⟨-, -, -, h⟩ := waitFor_cases op s <;> rw [h]
  · exact act_answerMove _ _ _ s
  · exact .finish _ _ _ _ _ _
  · exact .silent rfl rfl id
  · exact .silent rfl rfl id

theorem untilStep_answerMove (s : State) : AnswerMove s (untilStep s) := by
  obtain ⟨-, h⟩ | ⟨-, h⟩ := untilStep_cases s <;> rw [h]
  · exact .silent rfl rfl id
  · exact processEntry_answerMove _ s

theorem sequencer_answerMove {s t : State} (h : sequencer s = .next t) : AnswerMove s t := by
  obtain ⟨hq, -, hx⟩ | ⟨-, -, rfl⟩ | ⟨-, op, -, rfl⟩ | ⟨-, rfl⟩ := sequencer_cases h
  · cases exec_answerMove (s := s.hostAccepted) hq hx with
    | silent valid word pending => exact .silent valid word pending
    | final st c d n word valid seq => exact .final st c d n word valid seq
    | data d n word valid seq => exact .data d n word valid seq
  · exact .silent rfl rfl id
  · exact waitFor_answerMove op s
  · exact untilStep_answerMove s

end Sys2Proof.Machine

namespace Sys2Proof.Proofs

open Sys2Proof Sys2Proof.Machine

/-- Settles O24: `rsp_valid` is 0 when the sequencer starts, so an answer is a beat of this edge. -/
theorem everyCommandEndsWithItsFinalBeat : Obligations.EveryCommandEndsWithItsFinalBeat := by
  unfold Obligations.EveryCommandEndsWithItsFinalBeat
  intro s t o a b h
  obtain ⟨u, hu, rfl⟩ := hStep_next.1 h
  cases sequencer_answerMove hu with
  | silent valid word pending => exact ⟨fun hv => by simp [valid] at hv, fun _ => ⟨word, pending⟩⟩
  | final st c d n word valid seq =>
    have hk : rspKind u.h.rspWord = kindCode .final := by rw [word, rspKind_rspPack]
    exact ⟨fun _ => .inl ⟨hk, seq⟩, fun hv => by simp [valid] at hv⟩
  | data d n word valid seq =>
    have hk : rspKind u.h.rspWord = kindCode .data := by rw [word, rspKind_rspPack]
    have hs : rspSt u.h.rspWord = stCode .ok := by rw [word, rspSt_rspPack]
    exact ⟨fun _ => .inr ⟨hk, seq, hs⟩, fun hv => by simp [valid] at hv⟩

/-- Settles O44: an H edge packs legal codes alone, an L edge keeps the word, and a reset clears it. -/
theorem responseCodesStayLegal : Obligations.ResponseCodesStayLegal := by
  unfold Obligations.ResponseCodesStayLegal
  exact fun _ _ hr hs => rspInv_step hs hr

/-- Settles O6, field by field. -/
theorem responseFieldsReadBack : Obligations.ResponseFieldsReadBack := by
  unfold Obligations.ResponseFieldsReadBack
  exact fun st k c d n => ⟨rspSt_rspPack st k c d n, rspKind_rspPack st k c d n, rspCause_rspPack st k c d n,
    rspData_rspPack st k c d n, rspCount_rspPack st k c d n⟩

end Sys2Proof.Proofs
end

section
/-! PROOFS. HostEnv at an H edge in IDLE: a command it has to offer runs at that edge, and with none to offer nothing
does. From it, WRITEN with room for all its bytes, and DRAIN of an empty RX (spec/30_encoding.md R148, R149;
spec/40_host_commands.md R183, R186). -/

namespace Sys2Proof.Machine

/-! ### One H edge in IDLE -/

/-- HostEnv once it has sampled the answer of the last H edge (R308). -/
def State.heard (s : State) : HostEnv := s.host.sampleRsp s.h.rspValid s.h.rspWord

/-- HostEnv as it drives the command word `w` at the next H edge, finished WRITENs having left its list (R32, R148). -/
def State.driving (w : Word) (s : State) : HostEnv := { s.heard.retireDone with cmdValid := true, cmdWord := w }

theorem sequencer_accept {s : State} (hq : s.h.seq = .idle) (hv : s.host.cmdValid = true) :
    sequencer s = exec (decode s.host.cmdWord) s.hostAccepted := by simp [sequencer, hq, hv]

theorem sequencer_noCommand {s : State} (hq : s.h.seq = .idle) (hv : s.host.cmdValid = false) :
    sequencer s = .next s := by simp [sequencer, hq, hv]

theorem drive_some {c : Config} {e : HostEnv} {w : Word} (h : e.nextWord c = some w) :
    e.drive c true = { e with cmdValid := true, cmdWord := w } := by simp [HostEnv.drive, h]

theorem drive_none {c : Config} {e : HostEnv} (o : Bool) (h : e.nextWord c = none) :
    e.drive c o = { e with cmdValid := false } := by simp [HostEnv.drive, h]

/-- A command that HostEnv has to offer in IDLE runs at that edge (R171, R172). -/
theorem hStep_accept {a b : Bool} {s t : State} {i : Instr} (hq : s.h.seq = .idle) (hw : i.wf = true)
    (hn : s.heard.retireDone.nextWord s.cfg = some (encode i))
    (hx : exec i (s.atPort (s.driving (encode i)).accepted) = .next t) : hStep true a b s = .next (t.finishH a b) := by
  have hd : (s.hostTurn true).clearRsp = s.atPort (s.driving (encode i)) :=
    congrArg s.atPort (drive_some hn)
  refine hStep_next.2 ⟨t, ?_, rfl⟩
  rw [hd, sequencer_accept (s := s.atPort _) hq rfl, ← hx]
  exact congrArg (exec · _) (decode_encode hw)

/-- With no command to offer in IDLE, an H edge only clears `rsp_valid` and shifts (R140, R170). -/
theorem hStep_noCommand (o a b : Bool) {s : State} (hq : s.h.seq = .idle)
    (hn : s.heard.retireDone.nextWord s.cfg = none) :
    hStep o a b s = .next ((s.atPort { s.heard.retireDone with cmdValid := false }).finishH a b) := by
  have hd : (s.hostTurn o).clearRsp = s.atPort { s.heard.retireDone with cmdValid := false } :=
    congrArg s.atPort (drive_none o hn)
  refine hStep_next.2 ⟨_, ?_, rfl⟩
  rw [hd]
  exact sequencer_noCommand hq rfl

theorem step_noCommand {s : State} {o a b : Bool} {es : List Event} (hl : s.cfg.legal = true)
    (hev : s.sched.events = .h o a b :: es) (hq : s.h.seq = .idle) (hn : s.heard.retireDone.nextWord s.cfg = none) :
    ∃ t, step s = .next t ∧ t.host = { s.heard.retireDone with cmdValid := false } ∧ txQueue t = txQueue s ∧
      t.h.rxR = s.h.rxR :=
  ⟨_, (step_cons hl hev).trans (hStep_noCommand o a b hq hn), rfl, rfl, rfl⟩

/-! ### HostEnv's list -/

/-- A list whose head is no finished WRITEN stays (R148). -/
theorem retireDone_eq_self {e : HostEnv} (h : retire e.todo = (e.todo, [])) : e.retireDone = e := by
  simp [HostEnv.retireDone, h]

theorem nextWord_cons {c : Config} {e : HostEnv} {task : HostTask} {ts : List HostTask} (ha : e.awaiting = false)
    (ht : e.todo = task :: ts) : e.nextWord c = taskWord c task := by simp [HostEnv.nextWord, ha, ht]

/-- A pseudo-instruction whose command is accepted and answered at one edge moves on when the answer is sampled (R148,
R149, R308). -/
theorem heard_answered {s t : State} {w : Word} (hh : t.host = (s.driving w).accepted)
    (hret : s.heard.retireDone = s.heard) (hpseudo : ∀ v ts, s.heard.todo ≠ .word v :: ts)
    (hv : t.h.rspValid = true) (hk : rspKind t.h.rspWord = kindCode .final) :
    t.heard.todo = (afterFinal t.h.rspWord s.heard.todo).1 ∧
      t.heard.results = s.heard.results ++ (afterFinal t.h.rspWord s.heard.todo).2 ∧ t.heard.awaiting = false ∧
      t.heard.issued = s.heard.issued + 1 ∧ t.heard.log = s.heard.log ++ [t.h.rspWord] := by
  have ha : (s.driving w).accepted =
      { s.driving w with issued := s.heard.issued + 1, unanswered := s.heard.unanswered + 1, awaiting := true } := by
    rw [State.driving, hret, HostEnv.accepted]
    dsimp only
    split
    next h => exact absurd h (hpseudo _ _)
    next => rfl
  rw [State.heard, hh, ha, State.driving, hret]
  simp [hv, hk, HostEnv.sampleRsp, HostEnv.finalBeat]

/-! ### A WRITE with room -/

theorem exec_write_room (nb : Bool) (b : Byte) (cap : Half) {s : State} (hi : s.h.init = true)
    (room : s.txFullH = false) :
    exec (waitInstr .write nb b cap) s =
      .next ((((s.latch .write b s.portCap).pushTx b).respond .ok .final .none 0 1).setSeq .idle) := by
  have hx : exec (waitInstr .write nb b cap) s = .next (acceptWaiting .write nb b s.portCap s) := by cases nb <;> rfl
  rw [hx, acceptWaiting_ready nb b s.portCap hi (by simp [condition, room])]
  rfl

/-- What H believes is in TX grows by the byte it pushes (R101). -/
theorem txCntH_pushTx (b : Byte) {s : State} (hc : CtlInv s) (h : TxInv s) (room : s.txFullH = false) :
    (s.pushTx b).txCntH = s.txCntH + 1 := by
  have hlt := Nat.lt_of_le_of_lt (tx_room hc h room) (txDepth_lt s.cfg)
  obtain ⟨hw, -⟩ := h
  exact subMod_succ_left hw (g2b_lt _ _) hlt

/-- The shift of TX's read pointer does not take room from H (R89, R111). -/
theorem txCntH_finishH_le (a b : Bool) {s : State} (hne : s.h.txRsync ≠ []) (h : TxInv s) :
    (s.finishH a b).txCntH ≤ s.txCntH := behind_synced_shift_le a h hne

/-- An H edge in IDLE at which HostEnv has a WRITE to offer and H sees room (R183). -/
theorem step_write {s : State} {a b : Bool} {es : List Event} (nb : Bool) (byte : Byte) (hc : CtlInv s) (h : TxInv s)
    (hev : s.sched.events = .h true a b :: es) (hq : s.h.seq = .idle) (hi : s.h.init = true)
    (room : s.txFullH = false)
    (hn : s.heard.retireDone.nextWord s.cfg = some (encode (waitInstr .write nb byte 0))) :
    ∃ t, step s = .next t ∧ t.cfg = s.cfg ∧ t.sched.events = es ∧ t.h.seq = .idle ∧ t.h.init = true ∧
      t.h.rspValid = true ∧ t.h.rspWord = rspPack .ok .final .none 0 1 ∧
      t.host = (s.driving (encode (waitInstr .write nb byte 0))).accepted ∧
      txQueue t = txQueue s ++ [byte] ∧ t.txCntH ≤ s.txCntH + 1 := by
  have hp : TxInv (s.pushTx byte) := fifoInv_push h (txDepth_lt s.cfg) (chains_ne_nil hc).1 (tx_room hc h room)
  refine ⟨_, (step_cons hc.1 hev).trans (hStep_accept hq (waitInstr_wf _ _ _ _) hn (exec_write_room nb byte 0 hi room)),
    rfl, rfl, rfl, hi, rfl, rfl, rfl, ?_, ?_⟩
  · rw [← txQueue_pushTx byte hc h room]
    rfl
  · exact (txCntH_finishH_le a b (s := s.pushTx byte) (chains_ne_nil hc).1 hp).trans (txCntH_pushTx byte hc h room).le

/-! ### WRITEN -/

/-- After `n` H edges of a WRITEN of `bytes` that began in `s`: its first `n` bytes are in TX, and there is room for the
others. -/
structure WritenRun (s : State) (nb : Bool) (bytes : List Byte) (n : Nat) (t : State) : Prop where
  ctl : CtlInv t
  tx : TxInv t
  seq : t.h.seq = .idle
  init : t.h.init = true
  events : t.sched.events = s.sched.events.drop n
  room : t.txCntH + bytes.length ≤ t.cfg.txDepth + n
  queue : txQueue t = txQueue s ++ bytes.take n
  todo : t.heard.todo = [.writen nb (bytes.drop n) n]
  awaiting : t.heard.awaiting = false
  results : t.heard.results = s.host.results
  issued : t.heard.issued = s.host.issued + n

/-- One more H edge of a WRITEN with a byte left writes that byte. -/
theorem WritenRun.exists_step {s t : State} {nb : Bool} {bytes : List Byte} {n : Nat}
    (hes : ∀ e ∈ s.sched.events, ∃ a b, e = .h true a b) (hn : n < bytes.length) (hlt : n < s.sched.events.length)
    (h : WritenRun s nb bytes n t) : ∃ u, step t = .next u ∧ WritenRun s nb bytes (n + 1) u := by
  obtain ⟨a, b, he⟩ := hes _ (List.getElem_mem hlt)
  have hev : t.sched.events = .h true a b :: s.sched.events.drop (n + 1) := by
    rw [h.events, List.drop_eq_getElem_cons hlt, he]
  have htodo : t.heard.todo = [.writen nb (bytes[n] :: bytes.drop (n + 1)) n] := by
    rw [h.todo, List.drop_eq_getElem_cons hn]
  have hret : t.heard.retireDone = t.heard := retireDone_eq_self (by rw [htodo]; rfl)
  have hword : t.heard.retireDone.nextWord t.cfg = some (encode (waitInstr .write nb bytes[n] 0)) := by
    rw [hret, nextWord_cons h.awaiting htodo]
    cases nb <;> rfl
  have hroom : t.txFullH = false := by
    have := h.room
    simp only [State.txFullH, beq_eq_false_iff_ne]
    omega
  obtain ⟨u, hs, hcfg, hsched, hq, hi, hv, hw, hhost, hqueue, hcnt⟩ :=
    step_write nb bytes[n] h.ctl h.tx hev h.seq h.init hroom hword
  obtain ⟨utodo, uresults, uawaiting, uissued, -⟩ :=
    heard_answered hhost hret (by simp [htodo]) hv (by rw [hw, rspKind_rspPack])
  have hafter : afterFinal u.h.rspWord t.heard.todo = ([.writen nb (bytes.drop (n + 1)) (n + 1)], []) := by
    rw [htodo, hw]
    simp [afterFinal, rspSt_rspPack]
  rw [hafter] at utodo uresults
  refine ⟨u, hs, ctlInv_step hs h.ctl, txInv_step hs h.ctl h.tx, hq, hi, hsched, ?_, ?_, utodo, uawaiting, ?_, ?_⟩
  · have hold := h.room
    rw [hcfg]
    omega
  · rw [hqueue, h.queue, List.append_assoc, List.take_concat_get' _ _ hn]
  · simpa [h.results] using uresults
  · rw [uissued, h.issued]
    rfl

/-- A WRITEN that HostEnv has not begun. -/
theorem WritenRun.start {s : State} {nb : Bool} {bytes : List Byte} (hc : CtlInv s) (h : TxInv s)
    (hq : s.h.seq = .idle) (hi : s.h.init = true) (hv : s.h.rspValid = false)
    (ht : s.host.todo = pseudoWriten nb bytes) (ha : s.host.awaiting = false)
    (room : s.txCntH + bytes.length ≤ s.cfg.txDepth) : WritenRun s nb bytes 0 s := by
  have hheard : s.heard = s.host := by rw [State.heard, hv, sampleRsp_none]
  exact ⟨hc, h, hq, hi, rfl, room, (List.append_nil _).symm, by rw [hheard]; exact ht, by rw [hheard]; exact ha,
    by rw [hheard], by rw [hheard]; rfl⟩

/-- The H edge after the last byte: the WRITEN returns its count, and nothing is issued (R148). -/
theorem WritenRun.finish {s t : State} {nb : Bool} {bytes : List Byte} {a b : Bool} {es : List Event}
    (hev : t.sched.events = .h true a b :: es) (h : WritenRun s nb bytes bytes.length t) :
    ∃ u, step t = .next u ∧ txQueue u = txQueue t ∧ u.host.results = s.host.results ++ [.wrote bytes.length] ∧
      u.host.issued = t.heard.issued ∧ u.host.todo = [] := by
  have hret : t.heard.retireDone =
      { t.heard with todo := [], results := s.host.results ++ [.wrote bytes.length] } := by
    simp [HostEnv.retireDone, h.awaiting, h.todo, h.results, retire]
  have hword : t.heard.retireDone.nextWord t.cfg = none := by
    rw [hret]
    simp [HostEnv.nextWord]
  obtain ⟨u, hu, hhost, hqueue, -⟩ := step_noCommand h.ctl.1 hev h.seq hword
  rw [hret] at hhost
  exact ⟨u, hu, hqueue, by rw [hhost], by rw [hhost], by rw [hhost]⟩

/-! ### DRAIN -/

theorem exec_avail_empty {s : State} (hi : s.h.init = true) (he : s.rxEmptyH = true) :
    exec .avail s = .next (s.respond .fail .final .none 0 0) := by simp [exec, execAvail, hi, he]

/-- The H edge in IDLE at which a DRAIN issues its AVAIL with RX empty to H (R149, R186). -/
theorem step_drain_avail {s : State} {a b : Bool} {es : List Event} (hl : s.cfg.legal = true)
    (hev : s.sched.events = .h true a b :: es) (hq : s.h.seq = .idle) (hi : s.h.init = true)
    (he : s.rxEmptyH = true) (hret : s.heard.retireDone = s.heard)
    (hn : s.heard.nextWord s.cfg = some (encode .avail)) :
    ∃ t, step s = .next t ∧ t.cfg = s.cfg ∧ t.sched.events = es ∧ t.h.seq = .idle ∧ t.h.rxR = s.h.rxR ∧
      t.h.rspValid = true ∧ t.h.rspWord = rspPack .fail .final .none 0 0 ∧
      t.host = (s.driving (encode .avail)).accepted :=
  ⟨_, (step_cons hl hev).trans (hStep_accept hq rfl (hret.symm ▸ hn) (exec_avail_empty hi he)), rfl, rfl, hq, rfl, rfl,
    rfl, rfl⟩

end Sys2Proof.Machine

namespace Sys2Proof.Proofs

open Sys2Proof Sys2Proof.Machine

/-- Settles O59, by induction on the bytes: each H edge writes the next one, and the last returns the count. -/
theorem writenEnqueuesItsRun : Obligations.WritenEnqueuesItsRun := by
  unfold Obligations.WritenEnqueuesItsRun
  rintro s nb bytes es hc h hq hi hv ht ha room rfl hes hlen
  obtain ⟨t, hrun, hR⟩ := runSteps_induction (R := WritenRun s nb bytes) (n := bytes.length)
    (.start hc h hq hi hv ht ha room) fun n t hn hR => hR.exists_step hes hn (by omega)
  have hlt : bytes.length < s.sched.events.length := by omega
  obtain ⟨a, b, he⟩ := hes _ (List.getElem_mem hlt)
  obtain ⟨u, hu, hqueue, hresults, hissued, htodo⟩ := hR.finish (by rw [hR.events, List.drop_eq_getElem_cons hlt, he])
  refine ⟨u, (runSteps_succ hrun).trans hu, ?_, hresults, hissued.trans hR.issued, htodo⟩
  rw [hqueue, hR.queue, List.take_length]

/-- Settles O60: the AVAIL is answered FAIL at the first H edge, and at the second the DRAIN ends. -/
theorem drainOfAnEmptyQueueIssuesOneAvail : Obligations.DrainOfAnEmptyQueueIssuesOneAvail := by
  unfold Obligations.DrainOfAnEmptyQueueIssuesOneAvail
  intro s a b a' b' es hl hq hi hv he ht ha hev
  have hheard : s.heard = s.host := by rw [State.heard, hv, sampleRsp_none]
  have htodo : s.heard.todo = [.drain] := by rw [hheard]; exact ht
  have hret : s.heard.retireDone = s.heard := retireDone_eq_self (by rw [htodo]; rfl)
  obtain ⟨t, hs, hcfg, hevt, hqt, hrx, hvt, hwt, hhost⟩ := step_drain_avail hl hev hq hi he hret
    (nextWord_cons (by rw [hheard]; exact ha) htodo)
  obtain ⟨ttodo, tresults, tawaiting, tissued, tlog⟩ :=
    heard_answered hhost hret (by simp [htodo]) hvt (by rw [hwt, rspKind_rspPack])
  have hafter : afterFinal t.h.rspWord s.heard.todo = ([], [.drained]) := by
    rw [htodo, hwt]
    simp [afterFinal, rspSt_rspPack, stCode]
  rw [hafter] at ttodo tresults
  have hret' : t.heard.retireDone = t.heard := retireDone_eq_self (by rw [ttodo]; rfl)
  obtain ⟨u, hu, uhost, -, hrxu⟩ := step_noCommand (hcfg.symm ▸ hl) hevt hqt
    (by rw [hret', HostEnv.nextWord, ttodo, tawaiting]; rfl)
  rw [hret'] at uhost
  have hfail : rspPack .fail .final .none 0 0 = 0x0000_0000#32 := by decide
  have hone : runSteps 1 s = .next t := by rw [runSteps, hs]; rfl
  refine ⟨u, (runSteps_succ hone).trans hu, ?_, ?_, ?_, ?_, hrxu.trans hrx⟩ <;> rw [uhost]
  · exact ttodo
  · exact tissued.trans (by rw [hheard])
  · exact tlog.trans (by rw [hheard, hwt, hfail])
  · exact tresults.trans (by rw [hheard])

end Sys2Proof.Proofs
end

section
/-! PROOFS. The bits a command ignores: they change neither what a word decodes to nor what the command does, but for
the latches `h_byte` and `h_cap` of a command that never reads them (spec/30_encoding.md R135;
spec/40_host_commands.md R174; log 7). -/

namespace Sys2Proof

open Sys2Proof.Machine

/-! ### Decoding -/

theorem fieldOp_usedBits (i : Instr) : fieldOp (usedBits i) = 0xF#4 := by cases i <;> rw [usedBits] <;> decide

theorem fieldRsv_usedBits (i : Instr) : fieldRsv (usedBits i) = 0x7#3 := by cases i <;> rw [usedBits] <;> decide

/-- Words that agree on the bits the first one's command uses decode alike (R135): OP and RSV are always used, an
illegal command uses every bit, and a waiting command NB and the operands in its masks. -/
theorem decode_eq_of_usedBits {w v : Word} (h : w &&& usedBits (decode w) = v &&& usedBits (decode w)) :
    decode v = decode w := by
  have hop : fieldOp w = fieldOp v := by
    have ho : ∀ o : BitVec 4, o &&& 0xF#4 = o := fun _ => BitVec.and_allOnes
    simpa only [fieldOp_and, fieldOp_usedBits, ho] using congrArg fieldOp h
  have hrsv : fieldRsv w = fieldRsv v := by
    have hr : ∀ r : BitVec 3, r &&& 0x7#3 = r := fun _ => BitVec.and_allOnes
    simpa only [fieldRsv_and, fieldRsv_usedBits, hr] using congrArg fieldRsv h
  have hill : ∀ {c}, illegalCause (decode w) = some c → decode v = decode w := fun hc => by
    rw [and_usedBits_illegal hc, and_usedBits_illegal hc] at h
    rw [h]
  obtain ⟨-, hd⟩ | ⟨-, hd⟩ | ⟨-, hd⟩ | ⟨-, -, hd⟩ | ⟨ho, hr, hd⟩ | ⟨ho, hr, hd⟩ | ⟨op, ho, hr, hd⟩ := decode_cases w
  · exact hill (c := .badop) (by rw [hd]; rfl)
  · exact hill (c := .badop) (by rw [hd]; rfl)
  · exact hill (c := .badop) (by rw [hd]; rfl)
  · exact hill (c := .rsvbits) (by rw [hd]; rfl)
  · rw [hd, decode_init (hop ▸ ho) (hrsv ▸ hr)]
  · rw [hd, decode_avail (hop ▸ ho) (hrsv ▸ hr)]
  · rw [hd, usedBits_waitInstr] at h
    have hnb : fieldNb w = fieldNb v := by simpa [fieldNb_and] using congrArg fieldNb h
    have hcap : fieldCap w &&& capMask op = fieldCap v &&& capMask op := by
      simpa [fieldCap_and] using congrArg fieldCap h
    have hb : fieldB w &&& byteMask op = fieldB v &&& byteMask op := by simpa [fieldB_and] using congrArg fieldB h
    rw [hd, decode_wait (hop ▸ ho) (hrsv ▸ hr), ← waitInstr_masked, ← hnb, ← hcap, ← hb, waitInstr_masked]

namespace Machine

/-! ### Execution -/

/-- The state with HostEnv replaced. -/
def State.withHost (e : HostEnv) (s : State) : State := { s with host := e }

/-- The state with HostEnv and the latched operands replaced. -/
def State.relatch (b : Byte) (cap : Half) (e : HostEnv) (s : State) : State :=
  { s with h := { s.h with byte := b, cap := cap }, host := e }

section

variable (b : Byte) (cap : Half) (e : HostEnv) (ops : Operands) (s : State)

/-- An attempt takes its operands from `ops`, so it leaves the latches and HostEnv unread (R174). -/
theorem copyByte_relatch (d : Byte) :
    copyByte ops d (s.relatch b cap e) = (copyByte ops d s).relatch b cap e := by
  have hcfg : (s.relatch b cap e).cfg = s.cfg := rfl
  unfold copyByte
  rw [hcfg]
  split
  · split <;> rfl
  · rfl

theorem processEntry_relatch : processEntry ops (s.relatch b cap e) = (processEntry ops s).relatch b cap e := by
  cases hm : Entry.mark s.rxHeadH with
  | true =>
    rw [processEntry_mark (s := s.relatch b cap e) ops hm, processEntry_mark ops hm]
    rfl
  | false =>
    rw [processEntry_data (s := s.relatch b cap e) ops hm, processEntry_data ops hm]
    exact congrArg (State.setSeq .untilEnd) (copyByte_relatch b cap e ops s.popRx _)

theorem act_relatch (op : WaitOp) (timeout : Nat) :
    act op ops timeout (s.relatch b cap e) = (act op ops timeout s).relatch b cap e := by
  cases op with
  | write => rfl
  | read =>
    show actRead timeout (s.relatch b cap e) = (actRead timeout s).relatch b cap e
    cases hm : Entry.mark s.rxHeadH with
    | true =>
      rw [actRead_mark (s := s.relatch b cap e) timeout hm, actRead_mark timeout hm]
      rfl
    | false =>
      rw [actRead_data (s := s.relatch b cap e) timeout hm, actRead_data timeout hm]
      rfl
  | readu => exact processEntry_relatch b cap e ops s

end

/-- An attempt reads no operand but those its command keeps (R132, R135). -/
theorem act_eq_of_waitInstr {op : WaitOp} {nb : Bool} {b b' : Byte} {cap cap' : Half}
    (h : waitInstr op nb b' cap' = waitInstr op nb b cap) (timeout : Nat) (s : State) :
    act op ⟨b', cap', 0, false⟩ timeout s = act op ⟨b, cap, 0, false⟩ timeout s := by
  cases op with
  | write =>
    have hb : b' = b := by cases nb <;> simpa [waitInstr] using h
    rw [hb]
    rfl
  | read => rfl
  | readu =>
    have hops : b' = b ∧ cap' = cap := by cases nb <;> simpa [waitInstr] using h
    rw [hops.1, hops.2]

/-- After INIT, the fields that a waiting command ignores end up in the latches alone (R135, R174). -/
theorem acceptWaiting_relatch {op : WaitOp} {nb : Bool} {b b' : Byte} {cap cap' : Half} (e : HostEnv) {s : State}
    (hi : s.h.init = true) (h : waitInstr op nb b' cap' = waitInstr op nb b cap) :
    acceptWaiting op nb b' cap' (s.withHost e) = (acceptWaiting op nb b cap s).relatch b' cap' e := by
  have hcond : condition op (s.withHost e) = condition op s := by cases op <;> rfl
  cases hc : condition op s with
  | true =>
    rw [acceptWaiting_ready (s := s.withHost e) nb b' cap' hi (hcond.trans hc), acceptWaiting_ready nb b cap hi hc,
      act_eq_of_waitInstr h]
    exact act_relatch b' cap' e _ (s.latch op b cap) op _
  | false =>
    by_cases ht : effTimeout s.cfg op nb = 0
    · rw [acceptWaiting_noTime (s := s.withHost e) b' cap' hi (hcond.trans hc) ht, acceptWaiting_noTime b cap hi hc ht]
      rfl
    · rw [acceptWaiting_wait (s := s.withHost e) b' cap' hi (hcond.trans hc) ht, acceptWaiting_wait b cap hi hc ht]
      rfl

/-- A waiting command latches its operands at its acceptance, which keeps them (R174). -/
theorem acceptWaiting_latched (op : WaitOp) (nb : Bool) (b : Byte) (cap : Half) {s : State} (hi : s.h.init = true) :
    (acceptWaiting op nb b cap s).h.byte = b ∧ (acceptWaiting op nb b cap s).h.cap = cap := by
  have h := acceptWaiting_relatch (op := op) (nb := nb) (b := b) (cap := cap) s.host hi rfl
  exact ⟨congrArg (·.h.byte) h, congrArg (·.h.cap) h⟩

/-- `u` is `t` with `e` for its HostEnv, but for the latches; `h_byte` is the same under `sameB`, `h_cap` under
`sameCap`. -/
abbrev Twin (e : HostEnv) (sameB sameCap : Prop) (t u : State) : Prop :=
  u = t.relatch u.h.byte u.h.cap e ∧ (sameB → u.h.byte = t.h.byte) ∧ (sameCap → u.h.cap = t.h.cap)

theorem acceptWaiting_twin {op : WaitOp} {nb : Bool} {b b' : Byte} {cap cap' : Half} (e : HostEnv) {s : State}
    (h : waitInstr op nb b' cap' = waitInstr op nb b cap) :
    Twin e (b' = b) (cap' = cap) (acceptWaiting op nb b cap s) (acceptWaiting op nb b' cap' (s.withHost e)) := by
  cases hi : s.h.init with
  | false =>
    rw [acceptWaiting_uninit op nb b cap hi, acceptWaiting_uninit (s := s.withHost e) op nb b' cap' hi]
    exact ⟨rfl, fun _ => rfl, fun _ => rfl⟩
  | true =>
    obtain ⟨hbyte, hcap⟩ := acceptWaiting_latched op nb b cap hi
    rw [acceptWaiting_relatch e hi h]
    exact ⟨rfl, fun hb => hb.trans hbyte.symm, fun hc => hc.trans hcap.symm⟩

theorem twin_withHost (e : HostEnv) (p q : Prop) (s : State) : Twin e p q s (s.withHost e) :=
  ⟨rfl, fun _ => rfl, fun _ => rfl⟩

theorem Twin.mono {e : HostEnv} {p q p' q' : Prop} {t u : State} (h : Twin e p q t u) (hp : p' → p) (hq : q' → q) :
    Twin e p' q' t u := ⟨h.1, h.2.1 ∘ hp, h.2.2 ∘ hq⟩

theorem setInit_withHost (e : HostEnv) (s : State) : (s.withHost e).setInit = s.setInit.withHost e := by
  have hi : (s.withHost e).h.init = s.h.init := rfl
  unfold State.setInit
  rw [hi]
  split <;> rfl

theorem execAvail_withHost (e : HostEnv) (s : State) :
    execAvail (s.withHost e) = mapNext (State.withHost e) (execAvail s) := by
  have hi : (s.withHost e).h.init = s.h.init := rfl
  have he : (s.withHost e).rxEmptyH = s.rxEmptyH := rfl
  unfold execAvail
  rw [hi, he]
  split
  · rfl
  · split <;> rfl

/-- `i` does not latch B from the port, as a READ does (log 7). -/
abbrev KeepsB (i : Instr) : Prop := i ≠ .read ∧ i ≠ .readNb

/-- `i` does not latch CAP from the port, as a READ or a WRITE does (log 7). -/
abbrev KeepsCap (i : Instr) : Prop := KeepsB i ∧ ∀ b, i ≠ .write b ∧ i ≠ .writeNb b

theorem twin_of_exec_withHost {i : Instr} {s : State} {e : HostEnv}
    (h : exec i (s.withHost e) = mapNext (State.withHost e) (exec i s)) :
    ∃ t u, exec i s = .next t ∧ exec i (s.withHost e) = .next u ∧ Twin e (KeepsB i) (KeepsCap i) t u := by
  obtain ⟨t, ht, -⟩ := exec_move i s
  exact ⟨t, t.withHost e, ht, by rw [h, ht]; rfl, twin_withHost e _ _ t⟩

theorem twin_of_exec_waiting {i : Instr} {s : State} {e : HostEnv} {op : WaitOp} {nb : Bool} {b b' : Byte}
    {cap cap' : Half} (hx : exec i s = .next (acceptWaiting op nb b cap s))
    (hy : exec i (s.withHost e) = .next (acceptWaiting op nb b' cap' (s.withHost e)))
    (h : waitInstr op nb b' cap' = waitInstr op nb b cap) (hb : KeepsB i → b' = b) (hc : KeepsCap i → cap' = cap) :
    ∃ t u, exec i s = .next t ∧ exec i (s.withHost e) = .next u ∧ Twin e (KeepsB i) (KeepsCap i) t u :=
  ⟨_, _, hx, hy, (acceptWaiting_twin e h).mono hb hc⟩

/-- Any command under another HostEnv does the same, but for the latches that READ and WRITE take from the port (log 7).
-/
theorem exec_twin (i : Instr) (s : State) (e : HostEnv) :
    ∃ t u, exec i s = .next t ∧ exec i (s.withHost e) = .next u ∧ Twin e (KeepsB i) (KeepsCap i) t u := by
  cases i with
  | init =>
    refine twin_of_exec_withHost ?_
    rw [exec, execInit, setInit_withHost]
    rfl
  | avail => exact twin_of_exec_withHost (execAvail_withHost e s)
  | illegalOp0 | illegalOp67 | illegalOp8F | illegalRsv => exact twin_of_exec_withHost rfl
  | read | readNb => exact twin_of_exec_waiting rfl rfl rfl (by simp) (by simp)
  | write | writeNb => exact twin_of_exec_waiting rfl rfl rfl (fun _ => rfl) (by simp)
  | readu | readuNb => exact twin_of_exec_waiting rfl rfl rfl (fun _ => rfl) (fun _ => rfl)

end Machine

end Sys2Proof

namespace Sys2Proof.Proofs

open Sys2Proof Sys2Proof.Machine

/-- Settles O4: the mask keeps every bit the decoder's case reads, and a command takes from the port its latches alone.
-/
theorem ignoredFieldsHaveNoEffect : Obligations.IgnoredFieldsHaveNoEffect := by
  unfold Obligations.IgnoredFieldsHaveNoEffect
  refine ⟨fun _ _ h => decode_eq_of_usedBits h, fun i s w => ?_⟩
  obtain ⟨t, u, ht, hu, htwin, hbyte, hcap⟩ := exec_twin i s { s.host with cmdWord := w }
  have hhost : t.host = s.host := by
    obtain ⟨-, -, -, hhost, -⟩ := (queueMove_of_exec ht).frame
    exact hhost
  refine ⟨t, u, ht, hu, ?_, fun h1 h2 => ⟨hbyte ⟨h1, h2⟩, fun h3 => hcap ⟨⟨h1, h2⟩, h3⟩⟩⟩
  rw [hhost]
  exact htwin

end Sys2Proof.Proofs
end

section
/-! PROOFS. Which commands touch `h_init`, and INIT's way to the line side: under fairness there are L edges without
end, and each carries `h_init` one stage further (spec/20_memory.md R114; spec/40_host_commands.md R180, R181;
spec/70_reset_and_hazards.md R311). -/

namespace Sys2Proof.Machine

/-! ### Only INIT touches `h_init` -/

/-- `h_init` and its bookkeeping are the same in `t` as in `s`. -/
abbrev SameInit (s t : State) : Prop := t.h.init = s.h.init ∧ t.chg.init = s.chg.init

theorem processEntry_sameInit (ops : Operands) (s : State) : SameInit s (processEntry ops s) := by
  cases hm : Entry.mark s.rxHeadH with
  | true =>
    rw [processEntry_mark ops hm]
    exact ⟨rfl, rfl⟩
  | false =>
    rw [processEntry_data ops hm]
    obtain ⟨-, h⟩ | ⟨-, -, -, h⟩ | ⟨-, -, -, h⟩ := copyByte_cases ops (Entry.data s.rxHeadH) s.popRx <;> rw [h] <;>
      exact ⟨rfl, rfl⟩

theorem act_sameInit (op : WaitOp) (ops : Operands) (timeout : Nat) (s : State) :
    SameInit s (act op ops timeout s) := by
  cases op with
  | write => exact ⟨rfl, rfl⟩
  | read =>
    show SameInit s (actRead timeout s)
    cases hm : Entry.mark s.rxHeadH with
    | true =>
      rw [actRead_mark timeout hm]
      exact ⟨rfl, rfl⟩
    | false =>
      rw [actRead_data timeout hm]
      exact ⟨rfl, rfl⟩
  | readu => exact processEntry_sameInit ops s

theorem acceptWaiting_sameInit (op : WaitOp) (nb : Bool) (b : Byte) (cap : Half) (s : State) :
    SameInit s (acceptWaiting op nb b cap s) := by
  cases hi : s.h.init with
  | false =>
    rw [acceptWaiting_uninit op nb b cap hi]
    exact ⟨rfl, rfl⟩
  | true =>
    cases hc : condition op s with
    | true =>
      rw [acceptWaiting_ready nb b cap hi hc]
      exact act_sameInit op _ _ (s.latch op b cap)
    | false =>
      by_cases ht : effTimeout s.cfg op nb = 0
      · rw [acceptWaiting_noTime b cap hi hc ht]
        exact ⟨rfl, rfl⟩
      · rw [acceptWaiting_wait b cap hi hc ht]
        exact ⟨rfl, rfl⟩

/-- INIT, too, leaves `h_init` and its bookkeeping once `h_init` is 1 (R180). -/
theorem exec_sameInit {i : Instr} {s t : State} (hi : i ≠ .init ∨ s.h.init = true) (h : exec i s = .next t) :
    SameInit s t := by
  obtain ⟨rfl, hx⟩ | ⟨-, st, c, hx⟩ | ⟨op, nb, b, cap, hx, -⟩ | ⟨c, -, hx⟩ := exec_cases i s <;> rw [hx] at h <;>
    cases h
  · have hi : s.h.init = true := hi.resolve_left fun hne => hne rfl
    simp [SameInit, hi]
  · exact ⟨rfl, rfl⟩
  · exact acceptWaiting_sameInit op nb b cap s
  · exact ⟨rfl, rfl⟩

theorem sequencer_sameInit {s t : State} (hi : s.h.init = true) (h : sequencer s = .next t) : SameInit s t := by
  obtain ⟨-, -, hx⟩ | ⟨-, -, rfl⟩ | ⟨-, op, -, rfl⟩ | ⟨-, rfl⟩ := sequencer_cases h
  · exact exec_sameInit (s := s.hostAccepted) (.inr hi) hx
  · exact ⟨rfl, rfl⟩
  · obtain ⟨-, hw⟩ | ⟨-, -, hw⟩ | ⟨-, -, -, -, hw⟩ | ⟨-, -, -, hw⟩ := waitFor_cases op s <;> rw [hw]
    · exact act_sameInit op _ _ s
    · exact ⟨rfl, rfl⟩
    · exact ⟨rfl, rfl⟩
    · exact ⟨rfl, rfl⟩
  · obtain ⟨-, hu⟩ | ⟨-, hu⟩ := untilStep_cases s <;> rw [hu]
    · exact ⟨rfl, rfl⟩
    · exact processEntry_sameInit _ s

theorem hStep_sameInit {o a b : Bool} {s t : State} (hi : s.h.init = true) (h : hStep o a b s = .next t) :
    SameInit s t := by
  obtain ⟨u, hu, rfl⟩ := hStep_next.1 h
  have hu : SameInit (s.hostTurn o).clearRsp u := sequencer_sameInit hi hu
  exact hu

/-! ### Any event but a reset -/

/-- An event is a step of the state that has it lined up, so it keeps the invariants. -/
theorem inv_runEvent {e : Event} {s t : State} (h : Inv s) (ht : runEvent e s = .next t) : Inv t := by
  have hs : Inv { s with sched := { s.sched with events := e :: s.sched.events } } := h
  obtain ⟨⟨hl, -⟩, -⟩ := h
  exact inv_step ((step_cons (s := { s with sched := { s.sched with events := e :: s.sched.events } }) hl rfl).trans ht)
    hs

/-- After some events from `s`, `k` of them L edges: `h_init` is still 1, and has come `k` stages (R89, R181). -/
structure InitCrossed (s : State) (k : Nat) (t : State) : Prop where
  inv : Inv t
  init : t.h.init = true
  crossing : Crossing true s.l.initSync k t.chg.init t.l.initSync

theorem InitCrossed.hEdge {s t : State} {k : Nat} (h : InitCrossed s k t) (o a b : Bool) :
    ∃ u, runEvent (.h o a b) t = .next u ∧ InitCrossed s k u := by
  obtain ⟨u, hu⟩ := hStep_goesOn h.inv.1 o a b
  obtain ⟨-, hl, -⟩ := hStep_frame hu
  obtain ⟨hi, hc⟩ := hStep_sameInit h.init hu
  refine ⟨u, hu, inv_runEvent (e := .h o a b) h.inv hu, hi.trans h.init, ?_⟩
  rw [hl, hc]
  exact h.crossing

theorem InitCrossed.lEdge {s t : State} {k : Nat} (h : InitCrossed s k t) (r a b c : Bool) :
    ∃ u, runEvent (.l r a b c) t = .next u ∧ InitCrossed s (k + 1) u := by
  obtain ⟨hctl, -, hframe, -⟩ := h.inv
  obtain ⟨u, hu⟩ := lStep_goesOn hctl hframe r a b c
  obtain ⟨-, hh, -⟩ := lStep_frame hu
  obtain ⟨-, -, hchain, -, -, hc⟩ := lStep_chains hu
  refine ⟨u, hu, inv_runEvent (e := .l r a b c) h.inv hu, by rw [hh]; exact h.init, ?_⟩
  rw [hchain, hc, h.init]
  exact h.crossing.shift c

/-- Under fairness every event goes on, and an L edge takes `h_init` one stage further (R311). -/
theorem InitCrossed.exists_event {s t : State} {k : Nat} {e : Event} [Decidable (IsLEdge e)] (h : InitCrossed s k t)
    (he : e ≠ .reset ∧ e ≠ .resetHOnly ∧ e ≠ .resetLOnly) :
    ∃ u, runEvent e t = .next u ∧ InitCrossed s (k + if IsLEdge e then 1 else 0) u := by
  obtain ⟨hreset, hH, hL⟩ := he
  cases e with
  | h o a b => simpa [IsLEdge] using h.hEdge o a b
  | l r a b c => simpa [IsLEdge] using h.lEdge r a b c
  | plan ts => simpa [IsLEdge] using ⟨t.replan ts, rfl, inv_runEvent (e := .plan ts) h.inv rfl, h.init, h.crossing⟩
  | rx bs => simpa [IsLEdge] using ⟨t.receive bs, rfl, inv_runEvent (e := .rx bs) h.inv rfl, h.init, h.crossing⟩
  | reset => exact absurd rfl hreset
  | resetHOnly => exact absurd rfl hH
  | resetLOnly => exact absurd rfl hL

theorem runOn_initCrossed {s : State} {e : Nat → Event} [DecidablePred fun i => IsLEdge (e i)] (hs : Inv s)
    (hi : s.h.init = true) (he : ∀ n, e n ≠ .reset ∧ e n ≠ .resetHOnly ∧ e n ≠ .resetLOnly) (n : Nat) :
    ∃ t, runOn e n s = .next t ∧ InitCrossed s (Nat.count (fun i => IsLEdge (e i)) n) t := by
  induction n with
  | zero => exact ⟨s, rfl, hs, hi, by simpa using Crossing.start true s.l.initSync s.chg.init⟩
  | succ n ih =>
    obtain ⟨t, ht, hc⟩ := ih
    obtain ⟨u, hu, hc'⟩ := hc.exists_event (he n)
    exact ⟨u, by rw [runOn, ht]; exact hu, by rw [Nat.count_succ]; exact hc'⟩

/-- A fair schedule has L edges without end. -/
theorem infinite_lEdges {e : Nat → Event} (he : Fair e) : {i | IsLEdge (e i)}.Infinite := by
  obtain ⟨-, hL, -⟩ := he
  refine Nat.frequently_atTop_iff_infinite.1 (Filter.frequently_atTop.2 fun n => ?_)
  obtain ⟨m, hm, a, b, c, hl⟩ := hL n
  exact ⟨m, hm, true, a, b, c, hl⟩

end Sys2Proof.Machine

namespace Sys2Proof.Proofs

open Sys2Proof Sys2Proof.Machine

/-- Settles O53, at the event before which SYNC_STAGES + 1 of the fair schedule's L edges have happened. -/
theorem initReachesTheLineUnderFairness : Obligations.InitReachesTheLineUnderFairness := by
  unfold Obligations.InitReachesTheLineUnderFairness
  classical
  intro s e hs hi he
  have hinf := infinite_lEdges he
  obtain ⟨-, -, hgo⟩ := he
  have hinv := inv_reachable hs
  obtain ⟨-, -, -, -, hne⟩ := chains_ne_nil hinv.1
  obtain ⟨t, ht, hc⟩ := runOn_initCrossed hinv hi hgo (Nat.nth (fun i => IsLEdge (e i)) (s.l.initSync.length + 1))
  rw [Nat.count_nth_of_infinite hinf] at hc
  exact ⟨_, t, ht, hc.crossing.last_new hne false⟩

end Sys2Proof.Proofs
end

section
/-! PROOFS. What each command does at its acceptance: its answer word, the entry it pushes or pops, what it latches, and
which registers it leaves alone (spec/30_encoding.md R140; spec/40_host_commands.md R173 to R207). -/

namespace Sys2Proof.Machine

/-! ### Answer words -/

/-- A response word by its two upper fields and its low byte (R140). -/
theorem rspPack_eq_append (st : St) (k : Kind) (c : Cause) (d : Byte) (n : Half) :
    rspPack st k c d n = n ++ d ++ (causeCode c ++ kindCode k ++ stCode st : Byte) := by
  apply BitVec.eq_of_getLsbD_eq
  intro i hi
  simp only [rspPack, BitVec.getLsbD_append]
  interval_cases i <;> simp

theorem rspPack_ok_final (d : Byte) (n : Half) : rspPack .ok .final .none d n = n ++ d ++ 0x01#8 :=
  rspPack_eq_append _ _ _ d n

theorem rspPack_ok_data (d : Byte) (n : Half) : rspPack .ok .data .none d n = n ++ d ++ 0x05#8 :=
  rspPack_eq_append _ _ _ d n

/-- The FINAL beat of a READU: COUNT above the low half 0x0001 (R197). -/
theorem rspPack_count (n : Half) : rspPack .ok .final .none 0 n = n ++ 0x0001#16 := by
  rw [rspPack_ok_final, BitVec.append_assoc]
  rfl

theorem exec_avail_uninit {s : State} (hi : s.h.init = false) :
    exec .avail s = .next (s.respond .fail .final .uninit 0 0) := by simp [exec, execAvail, hi]

theorem exec_avail_entry {s : State} (hi : s.h.init = true) (he : s.rxEmptyH = false) :
    exec .avail s = .next (s.respond .ok .final .none 0 0) := by simp [exec, execAvail, hi, he]

theorem respond_eq {st : St} {k : Kind} {c : Cause} {d : Byte} {n : Half} {w : Word} (s : State)
    (hw : rspPack st k c d n = w) :
    s.respond st k c d n = { s with h := { s.h with rspValid := true, rspWord := w } } := by rw [State.respond, hw]

theorem setInit_eq (s : State) : s.setInit = { s with
    h := { s.h with init := true }
    chg := { s.chg with init := if s.h.init then s.chg.init else ⟨false, true⟩ } } := by
  rw [← setInit_h, ← setInit_chg]
  unfold State.setInit
  split <;> rfl

/-- An illegal command is answered with its cause, whatever the state (R207). -/
theorem exec_illegal {i : Instr} {c : Cause} (h : illegalCause i = some c) (s : State) :
    exec i s = .next (s.respond .illegal .final c 0 0) := by
  cases i with
  | illegalOp0 | illegalOp67 | illegalOp8F | illegalRsv => cases h; rfl
  | init | write | writeNb | avail | read | readNb | readu | readuNb => cases h

/-! ### Waiting commands -/

/-- A waiting command is its acceptance, with the operands it uses; the others come from the port (R174, log 7). -/
theorem exec_waitInstr (op : WaitOp) (nb : Bool) (b : Byte) (cap : Half) (s : State) :
    ∃ b' cap', exec (waitInstr op nb b cap) s = .next (acceptWaiting op nb b' cap' s) ∧
      (op ≠ .read → b' = b) ∧ (op = .readu → cap' = cap) := by
  cases op with
  | write => exact ⟨b, s.portCap, by cases nb <;> rfl, fun _ => rfl, nofun⟩
  | read => exact ⟨s.portB, s.portCap, by cases nb <;> rfl, fun h => absurd rfl h, nofun⟩
  | readu => exact ⟨b, cap, by cases nb <;> rfl, fun _ => rfl, fun _ => rfl⟩

theorem exec_read_ready (nb : Bool) (b : Byte) (cap : Half) {s : State} (hi : s.h.init = true)
    (he : s.rxEmptyH = false) :
    exec (waitInstr .read nb b cap) s =
      .next (actRead (effTimeout s.cfg .read nb) (s.latch .read s.portB s.portCap)) := by
  have hx : exec (waitInstr .read nb b cap) s = .next (acceptWaiting .read nb s.portB s.portCap s) := by
    cases nb <;> rfl
  rw [hx, acceptWaiting_ready nb _ _ hi (by simp [condition, he])]
  rfl

theorem exec_readu_ready (nb : Bool) (term : Byte) (cap : Half) {s : State} (hi : s.h.init = true)
    (he : s.rxEmptyH = false) :
    exec (waitInstr .readu nb term cap) s =
      .next (processEntry (s.latch .readu term cap).latchedOps (s.latch .readu term cap)) := by
  have hx : exec (waitInstr .readu nb term cap) s = .next (acceptWaiting .readu nb term cap s) := by
    cases nb <;> rfl
  rw [hx, acceptWaiting_ready nb _ _ hi (by simp [condition, he])]
  rfl

/-- When a waiting command has no time at all: NB, or a configured timeout of 0 (R133, R173). -/
theorem effTimeout_eq_zero {c : Config} {op : WaitOp} {nb : Bool}
    (h : nb = true ∨ (op = .write ∧ c.wto = 0) ∨ (op ≠ .write ∧ c.rto = 0)) : effTimeout c op nb = 0 := by
  obtain rfl | ⟨rfl, hw⟩ | ⟨hop, hr⟩ := h
  · rfl
  · cases nb <;> simp [effTimeout, hw]
  · cases op with
    | write => exact absurd rfl hop
    | read | readu => cases nb <;> simp [effTimeout, hr]

/-! ### READU's entry -/

@[simp] theorem mark_dataEntry (b : Byte) : Entry.mark (dataEntry b) = false := by
  simp only [Entry.mark, dataEntry, BitVec.getLsbD_append]
  rfl

/-- What a pending READU does with a data entry at the head of RX: it discards it, stops at it, or copies it, and goes
on in UNTIL (R197). -/
abbrev DataTaken (s t : State) : Prop :=
  t.h.seq = .untilEnd ∧
    (s.h.stop = true ∨ copyLimit s.cfg s.h.cap ≤ s.h.copied.toNat →
      t.h.copied = s.h.copied ∧ t.h.stop = s.h.stop ∧ t.h.rspValid = s.h.rspValid) ∧
    (s.h.stop = false → s.h.copied.toNat < copyLimit s.cfg s.h.cap →
      (Entry.data s.rxHeadH = s.h.byte → t.h.copied = s.h.copied ∧ t.h.stop = true ∧ t.h.rspValid = s.h.rspValid) ∧
      (Entry.data s.rxHeadH ≠ s.h.byte → t.h.copied = s.h.copied + 1#16 ∧ t.h.stop = false ∧ t.h.rspValid = true ∧
        t.h.rspWord = s.h.copied ++ Entry.data s.rxHeadH ++ 0x05#8))

/-- What a pending READU does with the entry at the head of RX (R107, R197): it pops it and keeps the latches; the END
marker ends the command. -/
structure EntryTaken (s t : State) : Prop where
  mem : t.mem = s.mem
  rxR : t.h.rxR = s.h.rxR.inc s.cfg.rxPw
  chg : t.chg = { s.chg with rxR := ⟨s.h.rxR.gray, true⟩ }
  op : t.h.op = s.h.op
  byte : t.h.byte = s.h.byte
  cap : t.h.cap = s.h.cap
  marker : Entry.mark s.rxHeadH = true → t.h.seq = .idle ∧ t.h.rspValid = true ∧
    t.h.rspWord = s.h.copied ++ 0x0001#16 ∧ t.h.copied = s.h.copied ∧ t.h.stop = s.h.stop
  data : Entry.mark s.rxHeadH = false → DataTaken s t

theorem entryTaken_processEntry (s : State) : EntryTaken s (processEntry s.latchedOps s) := by
  cases hm : Entry.mark s.rxHeadH with
  | true =>
    rw [processEntry_mark _ hm]
    exact ⟨rfl, rfl, rfl, rfl, rfl, rfl, fun _ => ⟨rfl, rfl, rspPack_count _, rfl, rfl⟩, by simp [hm]⟩
  | false =>
    have hopen : s.h.stop = false → s.h.copied.toNat < copyLimit s.cfg s.h.cap →
        ¬(s.h.stop = true ∨ copyLimit s.cfg s.h.cap ≤ s.h.copied.toNat) := by
      rintro hs hl (h | h)
      · simp [hs] at h
      · omega
    rw [processEntry_data _ hm]
    obtain ⟨hd, h⟩ | ⟨hs, hl, hb, h⟩ | ⟨hs, hl, hb, h⟩ :=
      copyByte_cases s.latchedOps (Entry.data s.rxHeadH) s.popRx <;> rw [h]
    · refine ⟨rfl, rfl, rfl, rfl, rfl, rfl, by simp [hm], fun _ => ⟨rfl, fun _ => ⟨rfl, rfl, rfl⟩, ?_⟩⟩
      exact fun hs hl => absurd hd (hopen hs hl)
    · refine ⟨rfl, rfl, rfl, rfl, rfl, rfl, by simp [hm], fun _ => ⟨rfl, fun hd => absurd hd (hopen hs hl), ?_⟩⟩
      exact fun _ _ => ⟨fun _ => ⟨rfl, rfl, rfl⟩, fun hne => absurd hb hne⟩
    · refine ⟨rfl, rfl, rfl, rfl, rfl, rfl, by simp [hm], fun _ => ⟨rfl, fun hd => absurd hd (hopen hs hl), ?_⟩⟩
      exact fun _ _ => ⟨fun heq => absurd heq hb, fun _ => ⟨rfl, hs, rfl, rspPack_ok_data _ _⟩⟩

/-! ### Which command moves which queue -/

theorem processEntry_controlOnly (ops : Operands) (s : State) : ControlOnly s.popRx (processEntry ops s) := by
  cases hm : Entry.mark s.rxHeadH with
  | true =>
    rw [processEntry_mark ops hm]
    exact .finish _ _ _ _ _ _ _
  | false =>
    rw [processEntry_data ops hm]
    have hq : ControlOnly (copyByte ops (Entry.data s.rxHeadH) s.popRx)
        ((copyByte ops (Entry.data s.rxHeadH) s.popRx).setSeq .untilEnd) := {}
    exact (ControlOnly.copyByte ops _ s.popRx).trans hq

theorem actRead_controlOnly (timeout : Nat) (s : State) : ControlOnly s.popRx (actRead timeout s) := by
  cases hm : Entry.mark s.rxHeadH with
  | true =>
    rw [actRead_mark timeout hm]
    exact {}
  | false =>
    rw [actRead_data timeout hm]
    exact .finish _ _ _ _ _ _ _

/-- What the acceptance of a waiting command does to the queues: nothing, or, for a WRITE with room seen after INIT,
push its byte, or, for a READ or READU, pop RX (R183, R190, R197). -/
theorem acceptWaiting_queues (op : WaitOp) (nb : Bool) (b : Byte) (cap : Half) (s : State) :
    ControlOnly s (acceptWaiting op nb b cap s) ∨
    (op = .write ∧ s.h.init = true ∧ s.txFullH = false ∧ ControlOnly (s.pushTx b) (acceptWaiting op nb b cap s)) ∨
    (op ≠ .write ∧ ControlOnly s.popRx (acceptWaiting op nb b cap s)) := by
  have hlatch : ControlOnly s.popRx (s.latch op b cap).popRx := {}
  cases hi : s.h.init with
  | false =>
    rw [acceptWaiting_uninit op nb b cap hi]
    exact .inl (.respond _ _ _ _ _ s)
  | true =>
    cases hc : condition op s with
    | true =>
      rw [acceptWaiting_ready nb b cap hi hc]
      cases op with
      | write =>
        have hpush : ControlOnly (s.pushTx b) ((s.latch .write b cap).pushTx b) := {}
        exact .inr (.inl ⟨rfl, rfl, by simpa [condition] using hc, hpush.trans (.finish _ _ _ _ _ _ _)⟩)
      | read => exact .inr (.inr ⟨nofun, hlatch.trans (actRead_controlOnly _ _)⟩)
      | readu => exact .inr (.inr ⟨nofun, hlatch.trans (processEntry_controlOnly _ _)⟩)
    | false =>
      by_cases ht : effTimeout s.cfg op nb = 0
      · rw [acceptWaiting_noTime b cap hi hc ht]
        exact .inl ((ControlOnly.latch op b cap s).trans (.respond _ _ _ _ _ _))
      · rw [acceptWaiting_wait b cap hi hc ht]
        exact .inl {}

/-- The same by command. -/
theorem exec_queues {i : Instr} {s t : State} (h : exec i s = .next t) :
    ControlOnly s t ∨
    (∃ b, (i = .write b ∨ i = .writeNb b) ∧ s.h.init = true ∧ s.txFullH = false ∧ ControlOnly (s.pushTx b) t) ∨
    ((i = .read ∨ i = .readNb ∨ ∃ b c, i = .readu b c ∨ i = .readuNb b c) ∧ ControlOnly s.popRx t) := by
  obtain ⟨-, hx⟩ | ⟨-, st, c, hx⟩ | ⟨op, nb, b, cap, hx, hw, hr, hu⟩ | ⟨c, -, hx⟩ := exec_cases i s <;> rw [hx] at h <;>
    cases h
  · exact .inl ((ControlOnly.setInit s).trans (.respond _ _ _ _ _ _))
  · exact .inl (.respond _ _ _ _ _ s)
  · obtain r | ⟨ho, hi, room, r⟩ | ⟨ho, r⟩ := acceptWaiting_queues op nb b cap s
    · exact .inl r
    · exact .inr (.inl ⟨b, hw ho, hi, room, r⟩)
    · refine .inr (.inr ⟨?_, r⟩)
      cases op with
      | write => exact absurd rfl ho
      | read => exact (hr rfl).imp_right .inl
      | readu => exact .inr (.inr ⟨b, cap, hu rfl⟩)
  · exact .inl (.respond _ _ _ _ _ s)

/-- A command that cannot wait leaves the latches, the time left and `h_state` (R180, R186, R207). -/
theorem exec_keeps_latches {i : Instr} {s t : State} (hi : i = .init ∨ i = .avail ∨ (illegalCause i).isSome = true)
    (h : exec i s = .next t) :
    t.h.op = s.h.op ∧ t.h.byte = s.h.byte ∧ t.h.cap = s.h.cap ∧ t.h.timeLeft = s.h.timeLeft ∧
      t.h.copied = s.h.copied ∧ t.h.stop = s.h.stop ∧ t.h.seq = s.h.seq := by
  obtain rfl | rfl | hi := hi
  · cases h
    simp
  · obtain ⟨st, c, rfl⟩ := execAvail_next h
    exact ⟨rfl, rfl, rfl, rfl, rfl, rfl, rfl⟩
  · obtain ⟨c, hc⟩ := Option.isSome_iff_exists.1 hi
    rw [exec_illegal hc] at h
    cases h
    exact ⟨rfl, rfl, rfl, rfl, rfl, rfl, rfl⟩

end Sys2Proof.Machine

namespace Sys2Proof.Proofs

open Sys2Proof Sys2Proof.Machine

/-- Settles O7, by the equation of `h_init <- 1` and the decoder's case for OP 1. -/
theorem initSetsHInitAndAnswersOk : Obligations.InitSetsHInitAndAnswersOk := by
  unfold Obligations.InitSetsHInitAndAnswersOk
  refine ⟨fun s => ?_, by decide, fun w ho hr => decode_init ho hr⟩
  have hok : rspPack .ok .final .none 0 0 = 0x0000_0001#32 := by decide
  rw [exec, execInit, respond_eq _ hok, setInit_eq]

/-- Settles O8, from the acceptance of a WRITE with room. -/
theorem writeWithRoomPushesItsByte : Obligations.WriteWithRoomPushesItsByte := by
  unfold Obligations.WriteWithRoomPushesItsByte
  intro s nb b cap hi room
  have hword : rspPack .ok .final .none 0 1 = 0x0001_0001#32 := by decide
  exact ⟨_, exec_write_room nb b cap hi room, memory_read_write_same _ _ _, rfl, rfl, rfl, hword, rfl⟩

/-- Settles O9, by AVAIL's three answers and the decoder's case for OP 3. -/
theorem availAnswersWhetherRxHoldsAnEntry : Obligations.AvailAnswersWhetherRxHoldsAnEntry := by
  unfold Obligations.AvailAnswersWhetherRxHoldsAnEntry
  have huninit : rspPack .fail .final .uninit 0 0 = 0x0000_0020#32 := by decide
  have hok : rspPack .ok .final .none 0 0 = 0x0000_0001#32 := by decide
  have hfail : rspPack .fail .final .none 0 0 = 0x0000_0000#32 := by decide
  refine ⟨fun s => ⟨fun hi => ?_, fun hi he => ?_, fun hi he => ?_⟩, by decide, fun w ho hr => decode_avail ho hr⟩
  · rw [exec_avail_uninit hi, respond_eq s huninit]
  · rw [exec_avail_entry hi (beq_eq_false_iff_ne.2 he), respond_eq s hok]
  · rw [exec_avail_empty hi (beq_iff_eq.2 he), respond_eq s hfail]

/-- Settles O10, from READ's attempt at a data entry. -/
theorem readReturnsTheHeadByte : Obligations.ReadReturnsTheHeadByte := by
  unfold Obligations.ReadReturnsTheHeadByte
  intro s nb b d cap hi he hd
  have hm : Entry.mark s.rxHeadH = false := by rw [hd]; exact mark_dataEntry d
  have hdata : Entry.data s.rxHeadH = d := by rw [hd]; exact data_dataEntry d
  have hword : rspPack .ok .final .none (Entry.data s.rxHeadH) 0 = 0#16 ++ d ++ 0x01#8 := by
    rw [hdata, rspPack_ok_final]
    rfl
  refine ⟨_, exec_read_ready nb b cap hi he, ?_⟩
  rw [actRead_data (s := s.latch .read s.portB s.portCap) _ hm]
  exact ⟨rfl, rfl, rfl, rfl, hword, rfl⟩

/-- Settles O11, from READ's attempt at an END marker. -/
theorem readDiscardsAnEndMarker : Obligations.ReadDiscardsAnEndMarker := by
  unfold Obligations.ReadDiscardsAnEndMarker
  intro s nb b cap hi he hm
  refine ⟨_, exec_read_ready nb b cap hi he, ?_⟩
  rw [actRead_mark (s := s.latch .read s.portB s.portCap) _ hm]
  exact ⟨rfl, rfl, rfl, rfl, rfl, rfl, rfl, rfl, rfl, rfl⟩

/-- Settles O12: a READU at its acceptance takes the head entry with nothing copied yet. -/
theorem readuTakesTheFirstEntry : Obligations.ReaduTakesTheFirstEntry := by
  unfold Obligations.ReaduTakesTheFirstEntry
  intro s nb term cap hi he
  have hx := entryTaken_processEntry (s.latch .readu term cap)
  have hzero : 0#16 ++ 0x0001#16 = 0x0000_0001#32 := by decide
  refine ⟨_, exec_readu_ready nb term cap hi he, hx.rxR, hx.chg, hx.mem, hx.op, hx.byte, hx.cap, fun hm => ?_,
    fun hm hl => ?_, fun hm hl hd => ?_, fun hm hl hd => ?_⟩
  · obtain ⟨hq, hv, hw, hn, hs⟩ := hx.marker hm
    exact ⟨hq, hv, hw.trans hzero, hn, hs⟩
  · obtain ⟨hq, hdiscard, -⟩ := hx.data hm
    obtain ⟨hn, hs, hv⟩ := hdiscard (.inr hl.le)
    exact ⟨hq, hv, hn, hs⟩
  · obtain ⟨hq, -, hopen⟩ := hx.data hm
    obtain ⟨hn, hs, hv⟩ := (hopen rfl hl).1 hd
    exact ⟨hq, hv, hn, hs⟩
  · obtain ⟨hq, -, hopen⟩ := hx.data hm
    obtain ⟨hn, hs, hv, hw⟩ := (hopen rfl hl).2 hd
    exact ⟨hq, hv, hw, hn, hs⟩

/-- Settles O13, by the decoder's cause for each illegal word. -/
theorem illegalWordsAreAnsweredAtOnce : Obligations.IllegalWordsAreAnsweredAtOnce := by
  unfold Obligations.IllegalWordsAreAnsweredAtOnce
  intro s
  have hbadop : rspPack .illegal .final .badop 0 0 = 0x0000_0032#32 := by decide
  have hrsvbits : rspPack .illegal .final .rsvbits 0 0 = 0x0000_0042#32 := by decide
  have hbad {i : Instr} (h : illegalCause i = some .badop) :
      exec i s = .next { s with h := { s.h with rspValid := true, rspWord := 0x0000_0032#32 } } :=
    (exec_illegal h s).trans (congrArg _ (respond_eq s hbadop))
  have hrsv {i : Instr} (h : illegalCause i = some .rsvbits) :
      exec i s = .next { s with h := { s.h with rspValid := true, rspWord := 0x0000_0042#32 } } :=
    (exec_illegal h s).trans (congrArg _ (respond_eq s hrsvbits))
  refine ⟨fun w => ?_, fun i => ⟨hbad, hrsv⟩⟩
  obtain ⟨hop, hres, -⟩ := decodeFollowsTheOpcodeMap w
  exact ⟨fun h => hbad (hop h), fun h => hrsv (hres h)⟩

/-- Settles O14, from the acceptance before INIT. -/
theorem waitingCommandsBeforeInitAnswerUninit : Obligations.WaitingCommandsBeforeInitAnswerUninit := by
  unfold Obligations.WaitingCommandsBeforeInitAnswerUninit
  intro s op nb b cap hi
  obtain ⟨b', cap', hx, -⟩ := exec_waitInstr op nb b cap s
  have huninit : rspPack .fail .final .uninit 0 0 = 0x0000_0020#32 := by decide
  rw [hx, acceptWaiting_uninit op nb b' cap' hi, respond_eq s huninit]

/-- Settles O15, from the acceptance with the condition false, with T = 0 and with T > 0. -/
theorem blockedCommandsTimeOutOrWait : Obligations.BlockedCommandsTimeOutOrWait := by
  unfold Obligations.BlockedCommandsTimeOutOrWait
  intro s op nb b cap hi hc
  obtain ⟨b', cap', hx, hb, hcap⟩ := exec_waitInstr op nb b cap s
  refine ⟨_, hx, ?_⟩
  by_cases ht : effTimeout s.cfg op nb = 0
  · rw [acceptWaiting_noTime b' cap' hi hc ht]
    have hword : rspPack .fail .final .timeout 0 0 = 0x0000_0010#32 := by decide
    refine ⟨rfl, rfl, rfl, rfl, rfl, rfl, rfl, hb, hcap, fun _ => ⟨rfl, hword, rfl⟩, ?_, ?_⟩
    · rintro rfl rfl hw
      exact absurd ht hw
    · rintro rfl hop hr
      cases op with
      | write => exact absurd rfl hop
      | read | readu => exact absurd ht hr
  · rw [acceptWaiting_wait b' cap' hi hc ht]
    refine ⟨rfl, rfl, rfl, rfl, rfl, rfl, rfl, hb, hcap, fun h => absurd (effTimeout_eq_zero h) ht, ?_, ?_⟩
    · rintro rfl rfl -
      exact ⟨rfl, rfl, rfl⟩
    · rintro rfl hop -
      cases op with
      | write => exact absurd rfl hop
      | read | readu => exact ⟨rfl, rfl, rfl⟩

/-- Settles O17, by which command moves which queue. -/
theorem commandsChangeOnlyTheirOwnRegisters : Obligations.CommandsChangeOnlyTheirOwnRegisters := by
  unfold Obligations.CommandsChangeOnlyTheirOwnRegisters
  intro i s t h
  refine ⟨fun hi => exec_sameInit (.inl hi) h, ?_⟩
  have hlatches := fun hi => exec_keeps_latches (i := i) hi h
  obtain r | ⟨b, hw, hi, room, r⟩ | ⟨hr, r⟩ := exec_queues h
  · exact ⟨fun _ => ⟨fun k => by rw [r.mem], r.txW, r.chgTxW⟩, fun k _ => by rw [r.mem],
      fun _ _ _ => ⟨r.rxR, r.chgRxR⟩, hlatches⟩
  · refine ⟨?_, fun k hk => ?_, fun _ _ _ => ⟨r.rxR, r.chgRxR⟩, hlatches⟩
    · rintro (hne | hi' | hfull)
      · exact absurd hw (not_or.2 (hne b))
      · simp [hi] at hi'
      · simp [room] at hfull
    · rw [r.mem]
      exact memory_read_write_other _ b hk
  · refine ⟨fun _ => ⟨fun k => by rw [r.mem]; rfl, r.txW, r.chgTxW⟩, fun k _ => by rw [r.mem]; rfl, ?_, hlatches⟩
    rintro h1 h2 h3
    obtain hr | hr | ⟨b, c, hr⟩ := hr
    · exact absurd hr h1
    · exact absurd hr h2
    · exact absurd hr (not_or.2 (h3 b c))

end Sys2Proof.Proofs
end

section
/-! PROOFS. The H edge by `h_state`: a command offered in IDLE is run, WAIT acts, expires or counts a tick, UNTIL drains
an entry. And runs of H edges with a command blocked for good: it times out after its ticks, or never when T = INF
(spec/40_host_commands.md R171 to R178, R199; spec/60_exceptions.md R275). -/

namespace Sys2Proof.Machine

/-! ### WAIT and UNTIL -/

theorem sequencer_wait {s : State} {op : WaitOp} (hq : s.h.seq = .wait) (ho : s.h.op = waitOpCode op) :
    sequencer s = .next (waitFor op s) := by simp [sequencer, waitStep, hq, ho]

theorem sequencer_untilEnd {s : State} (hq : s.h.seq = .untilEnd) : sequencer s = .next (untilStep s) := by
  simp [sequencer, hq]

/-- In WAIT with the condition true the attempt succeeds, whatever time is left (R175, R176). -/
theorem waitFor_ready {op : WaitOp} {s : State} (hc : condition op s = true) :
    waitFor op s = act op s.latchedOps s.h.timeLeft s := by simp [waitFor, hc]

/-- In WAIT with the condition false and no time left: FAIL/TIMEOUT (R175). -/
theorem waitFor_expired {op : WaitOp} {s : State} (hc : condition op s = false) (ht : s.h.timeLeft = 0) :
    waitFor op s = (s.respond .fail .final .timeout 0 0).setSeq .idle := by simp [waitFor, hc, ht]

/-- What a WAIT step without completion leaves of the time: one less at a tick, unless T = INF (R175). -/
def State.countdown (s : State) : Nat :=
  if s.h.tickCnt = s.cfg.tickDiv - 1 ∧ s.h.timeLeft ≠ s.cfg.inf then s.h.timeLeft - 1 else s.h.timeLeft

theorem waitFor_counts {op : WaitOp} {s : State} (hc : condition op s = false) (ht : s.h.timeLeft ≠ 0) :
    waitFor op s = { s with h := { s.h with timeLeft := s.countdown } } := by
  by_cases h : s.h.tickCnt = s.cfg.tickDiv - 1 ∧ s.h.timeLeft ≠ s.cfg.inf
  · simp [waitFor, hc, ht, State.countdown, State.tick, h]
  · have h' : (s.tick && s.h.timeLeft != s.cfg.inf) = false := by simpa [State.tick] using h
    simp only [waitFor, hc, ht, h', State.countdown, if_neg h]
    rfl

/-! ### A command blocked for good -/

/-- `op` is pending in WAIT, and its condition stays false as long as L takes no step. -/
structure Blocked (op : WaitOp) (s : State) : Prop where
  ctl : CtlInv s
  seq : s.h.seq = .wait
  opcode : s.h.op = waitOpCode op
  stuck : Stuck op s

theorem stuck_of_controlOnly {op : WaitOp} {s t : State} (h : Stuck op s) (r : ControlOnly s t) : Stuck op t := by
  cases op with
  | write =>
    rw [Stuck, condition, State.txFullH, State.txCntH, r.cfg, r.txW, r.txRsync, r.l, r.chgTxR]
    exact h
  | read | readu =>
    rw [Stuck, condition, State.rxEmptyH, r.rxR, r.rxWsync, r.l, r.chgRxW]
    exact h

/-- H's shifts do not bring a blocked command's condition about, since no other value is on its way (R89, R177). -/
theorem stuck_finishH {op : WaitOp} {s : State} (h : Stuck op s) (a b : Bool) : Stuck op (s.finishH a b) := by
  have settled {c : Change Nat} {chain : List Nat} {cur : Nat} (d : Bool) (hf : c.fresh = false)
      (hg : ∀ g ∈ chain, g = cur) : shiftIn (sample d cur c) chain = chain := by
    simpa [sample, hf] using shiftIn_settled hg
  obtain ⟨hc, h⟩ := h
  cases op with
  | write =>
    obtain ⟨hf, hg⟩ := h
    rw [Stuck, condition, State.txFullH, State.txCntH, finishH_h, settled a hf hg]
    exact ⟨hc, rfl, hg⟩
  | read | readu =>
    obtain ⟨hf, hg⟩ := h
    rw [Stuck, condition, State.rxEmptyH, finishH_h, settled b hf hg]
    exact ⟨hc, rfl, hg⟩

/-- An H edge with time left counts down and is silent (R175). -/
theorem Blocked.hStep_counts {op : WaitOp} {s : State} (h : Blocked op s) (ht : s.h.timeLeft ≠ 0) (o a b : Bool) :
    ∃ t, hStep o a b s = .next t ∧ Blocked op t ∧ t.h.timeLeft = s.countdown ∧ t.h.rspValid = false ∧
      t.host = (s.hostTurn o).host := by
  have hstuck : Stuck op (s.hostTurn o).clearRsp := h.stuck
  have hu := sequencer_wait (s := (s.hostTurn o).clearRsp) h.seq h.opcode
  rw [waitFor_counts hstuck.1 ht] at hu
  have hs := hStep_next (o := o) (a := a) (b := b).2 ⟨_, hu, rfl⟩
  have hstuck' := stuck_finishH (stuck_of_controlOnly hstuck {}) a b
  exact ⟨_, hs, ⟨ctlInv_hStep h.ctl hs, h.seq, h.opcode, hstuck'⟩, rfl, rfl, rfl⟩

/-- An H edge with no time left answers FAIL/TIMEOUT (R175). -/
theorem Blocked.hStep_expires {op : WaitOp} {s : State} (h : Blocked op s) (ht : s.h.timeLeft = 0) (o a b : Bool) :
    ∃ t, hStep o a b s = .next t ∧ t.h.seq = .idle ∧ t.h.rspValid = true ∧ t.h.rspWord = 0x0000_0010#32 := by
  have hword : rspPack .fail .final .timeout 0 0 = 0x0000_0010#32 := by decide
  have hstuck : Stuck op (s.hostTurn o).clearRsp := h.stuck
  have hu := sequencer_wait (s := (s.hostTurn o).clearRsp) h.seq h.opcode
  rw [waitFor_expired hstuck.1 ht] at hu
  exact ⟨_, hStep_next.2 ⟨_, hu, rfl⟩, rfl, rfl, hword⟩

/-! ### HostEnv's turn -/

@[simp] theorem retireDone_issued (e : HostEnv) : e.retireDone.issued = e.issued := by
  unfold HostEnv.retireDone
  split <;> rfl

@[simp] theorem drive_issued (c : Config) (o : Bool) (e : HostEnv) : (e.drive c o).issued = e.issued := by
  unfold HostEnv.drive
  split <;> rfl

/-- HostEnv's turn issues nothing; an acceptance does (R31). -/
theorem hostTurn_issued (s : State) (o : Bool) : (s.hostTurn o).host.issued = s.host.issued := by simp

/-- A host that awaits no FINAL beat keeps its list when it samples (R308). -/
theorem heard_not_awaiting {s : State} (ha : s.host.awaiting = false) :
    s.heard.todo = s.host.todo ∧ s.heard.awaiting = false := by
  unfold State.heard HostEnv.sampleRsp
  split
  · exact ⟨rfl, ha⟩
  · dsimp only
    split <;> simp [HostEnv.finalBeat, ha]

/-- The state at which a command is accepted, HostEnv being `e` and the events after this edge `es` (R172, R174). -/
def State.accepting (e : HostEnv) (es : List Event) (s : State) : State :=
  State.atPort e { s with sched := { s.sched with events := es } }

/-- A command word that HostEnv has to offer in IDLE is accepted at that H edge and leaves the list (R31, R171). -/
theorem step_acceptWord {s : State} {i : Instr} {a b : Bool} {es : List Event} (hl : s.cfg.legal = true)
    (hev : s.sched.events = .h true a b :: es) (hq : s.h.seq = .idle) (hw : i.wf = true)
    (ht : s.host.todo = [.word (encode i)]) (ha : s.host.awaiting = false) :
    ∃ e : HostEnv, e.todo = [] ∧ e.awaiting = false ∧ e.log = s.heard.log ∧ ∀ t,
      exec i (s.accepting e es) = .next t → step s = .next (t.finishH a b) := by
  obtain ⟨htodo, hawait⟩ := heard_not_awaiting ha
  rw [ht] at htodo
  have hret : s.heard.retireDone = s.heard := retireDone_eq_self (by rw [htodo]; rfl)
  have hacc : (s.driving (encode i)).accepted = { s.driving (encode i) with
      todo := [], issued := s.heard.issued + 1, unanswered := s.heard.unanswered + 1 } := by
    simp [HostEnv.accepted, State.driving, hret, htodo]
  refine ⟨(s.driving (encode i)).accepted, by rw [hacc], ?_, ?_, fun t hx => ?_⟩
  · rw [hacc, State.driving, hret]
    exact hawait
  · rw [hacc, State.driving, hret]
  · refine (step_cons hl hev).trans (hStep_accept (s := { s with sched := { s.sched with events := es } }) hq hw ?_ hx)
    exact (congrArg (·.nextWord s.cfg) hret).trans (nextWord_cons hawait htodo)

/-! ### Runs of H edges -/

/-- After `n` of the H edges lined up in `s`, where `op` is blocked for good: it is so still, and nothing has been
answered or issued. -/
structure StuckRun (op : WaitOp) (s : State) (n : Nat) (t : State) : Prop where
  blocked : Blocked op t
  cfg : t.cfg = s.cfg
  events : t.sched.events = s.sched.events.drop n
  tickCnt : t.h.tickCnt = (s.h.tickCnt + n) % s.cfg.tickDiv
  silent : 1 ≤ n → t.h.rspValid = false
  issued : t.host.issued = s.host.issued

theorem StuckRun.start {op : WaitOp} {s : State} (h : Blocked op s) : StuckRun op s 0 s := by
  obtain ⟨-, htick, -⟩ := id h.ctl
  exact ⟨h, rfl, rfl, (Nat.mod_eq_of_lt htick).symm, nofun, rfl⟩

section

variable {op : WaitOp} {s t : State} {n : Nat} (hes : ∀ e ∈ s.sched.events, IsHEdge e) (hn : n < s.sched.events.length)
  (h : StuckRun op s n t)

include hes hn h

/-- The next step of the run is an H edge of the same command under a shorter schedule. -/
theorem StuckRun.step_eq : ∃ o a b, ∃ v : State, step t = hStep o a b v ∧ Blocked op v ∧ v.h = t.h ∧ v.host = t.host ∧
    v.cfg = t.cfg ∧ v.sched.events = s.sched.events.drop (n + 1) := by
  obtain ⟨o, a, b, he⟩ := hes _ (List.getElem_mem hn)
  have hev : t.sched.events = .h o a b :: s.sched.events.drop (n + 1) := by
    rw [h.events, List.drop_eq_getElem_cons hn, he]
  obtain ⟨hctl, hseq, hop, hstuck⟩ := h.blocked
  exact ⟨o, a, b, { t with sched := { t.sched with events := s.sched.events.drop (n + 1) } }, step_cons hctl.1 hev,
    ⟨hctl, hseq, hop, hstuck⟩, rfl, rfl, rfl, rfl⟩

theorem StuckRun.exists_step (ht : t.h.timeLeft ≠ 0) :
    ∃ u, step t = .next u ∧ StuckRun op s (n + 1) u ∧ u.h.timeLeft = t.countdown := by
  obtain ⟨o, a, b, v, hs, hv, hh, hhost, hcfg, hev⟩ := h.step_eq hes hn
  obtain ⟨u, hu, hb, hleft, hsilent, hturn⟩ := hv.hStep_counts (by rw [hh]; exact ht) o a b
  obtain ⟨ucfg, -, -, usched, -, -, -, utick⟩ := hStep_frame hu
  refine ⟨u, hs.trans hu, ⟨hb, ?_, by rw [usched, hev], ?_, fun _ => hsilent, ?_⟩, ?_⟩
  · rw [ucfg, hcfg, h.cfg]
  · rw [utick, hh, hcfg, h.tickCnt, h.cfg, Nat.mod_add_mod, Nat.add_assoc]
  · rw [hturn, hostTurn_issued, hhost, h.issued]
  · rw [hleft, State.countdown, hh, hcfg, State.countdown]

theorem StuckRun.exists_last_step (ht : t.h.timeLeft = 0) :
    ∃ u, step t = .next u ∧ u.h.seq = .idle ∧ u.h.rspValid = true ∧ u.h.rspWord = 0x0000_0010#32 := by
  obtain ⟨o, a, b, v, hs, hv, hh, -⟩ := h.step_eq hes hn
  obtain ⟨u, hu, hx⟩ := hv.hStep_expires (by rw [hh]; exact ht) o a b
  exact ⟨u, hs.trans hu, hx⟩

end

/-- The prescaler's wraps, counted: one more at each step from its last value (R275). -/
theorem succ_div_eq {d : Nat} (hd : 1 ≤ d) (x : Nat) : (x + 1) / d = x / d + if x % d = d - 1 then 1 else 0 := by
  have hlt : x % d < d := Nat.mod_lt _ hd
  conv_lhs => rw [← Nat.div_add_mod x d, Nat.add_assoc, Nat.mul_add_div hd]
  congr 1
  split
  next h => rw [h, Nat.sub_add_cancel hd, Nat.div_self hd]
  next h => exact Nat.div_eq_of_lt (by omega)

/-- How many H edges from now on a finite `h_to` lasts: its ticks, the first of which comes when the prescaler wraps
(R275). -/
def State.edgesLeft (s : State) : Nat := s.cfg.tickDiv * s.h.timeLeft - s.h.tickCnt

/-- A command blocked for good with time left and no INF is silent for as long as its ticks take, and then answers
FAIL/TIMEOUT: `h_to` and the ticks so far add up to what was left at the start (R175, R177). -/
theorem Blocked.times_out {op : WaitOp} {s : State} (h : Blocked op s) (hv : s.h.rspValid = false)
    (hone : 1 ≤ s.h.timeLeft) (hinf : s.h.timeLeft < s.cfg.inf) (hes : ∀ e ∈ s.sched.events, IsHEdge e)
    (hlen : s.edgesLeft < s.sched.events.length) :
    (∀ m, m ≤ s.edgesLeft → ∃ t, runSteps m s = .next t ∧ t.h.seq = .wait ∧ t.h.rspValid = false) ∧
    ∃ t, runSteps (s.edgesLeft + 1) s = .next t ∧ t.h.seq = .idle ∧ t.h.rspValid = true ∧
      t.h.rspWord = 0x0000_0010#32 := by
  have hedges : s.edgesLeft = s.cfg.tickDiv * s.h.timeLeft - s.h.tickCnt := rfl
  obtain ⟨hl, htick, -⟩ := id h.ctl
  obtain ⟨-, -, -, -, -, -, -, -, -, hdiv⟩ := (legal_iff s.cfg).1 hl
  have run : ∀ m, m ≤ s.edgesLeft → ∃ t, runSteps m s = .next t ∧
      StuckRun op s m t ∧ t.h.timeLeft + (s.h.tickCnt + m) / s.cfg.tickDiv = s.h.timeLeft := by
    intro m hm
    refine runSteps_induction (R := fun k t => StuckRun op s k t ∧
      t.h.timeLeft + (s.h.tickCnt + k) / s.cfg.tickDiv = s.h.timeLeft) ⟨.start h, ?_⟩ ?_
    · simp [Nat.div_eq_of_lt htick]
    · rintro k t hk ⟨hR, hleft⟩
      have hlt : (s.h.tickCnt + k) / s.cfg.tickDiv < s.h.timeLeft := Nat.div_lt_of_lt_mul (by omega)
      obtain ⟨u, hu, hR', hcount⟩ := hR.exists_step hes (by omega) (by omega)
      refine ⟨u, hu, hR', ?_⟩
      have hni : t.h.timeLeft ≠ s.cfg.inf := (Nat.lt_of_le_of_lt (Nat.le.intro hleft) hinf).ne
      rw [hcount, State.countdown, hR.tickCnt, hR.cfg, ← Nat.add_assoc, succ_div_eq hdiv]
      by_cases hwrap : (s.h.tickCnt + k) % s.cfg.tickDiv = s.cfg.tickDiv - 1
      · rw [if_pos ⟨hwrap, hni⟩, if_pos hwrap]
        omega
      · rw [if_neg fun hx => hwrap hx.1, if_neg hwrap]
        exact hleft
  refine ⟨fun m hm => ?_, ?_⟩
  · obtain ⟨t, ht, hR, -⟩ := run m hm
    refine ⟨t, ht, hR.blocked.seq, ?_⟩
    cases m with
    | zero => cases ht; exact hv
    | succ m => exact hR.silent (Nat.succ_pos m)
  · obtain ⟨t, ht, hR, hleft⟩ := run _ le_rfl
    have hmul : s.cfg.tickDiv ≤ s.cfg.tickDiv * s.h.timeLeft := Nat.le_mul_of_pos_right _ hone
    rw [hedges, Nat.add_sub_cancel' (by omega), Nat.mul_div_cancel_left _ hdiv] at hleft
    obtain ⟨u, hu, hx⟩ := hR.exists_last_step hes hlen (by omega)
    exact ⟨u, (runSteps_succ ht).trans hu, hx⟩

/-- A waiting command of the NB = 0 form accepted while blocked for good waits with all of T (R173, R174). -/
theorem step_acceptBlocked {s : State} {op : WaitOp} {byte : Byte} {cap : Half} {a b : Bool} {es : List Event}
    (hc : CtlInv s) (hq : s.h.seq = .idle) (hi : s.h.init = true) (hs : Stuck op s)
    (hT : 1 ≤ effTimeout s.cfg op false) (ht : s.host.todo = [.word (encode (waitInstr op false byte cap))])
    (ha : s.host.awaiting = false) (hev : s.sched.events = .h true a b :: es) :
    ∃ t, step s = .next t ∧ Blocked op t ∧ t.cfg = s.cfg ∧ t.sched.events = es ∧ t.h.rspValid = false ∧
      t.h.timeLeft = effTimeout s.cfg op false := by
  obtain ⟨e, -, -, -, hacc⟩ := step_acceptWord hc.1 hev hq (waitInstr_wf _ _ _ _) ht ha
  obtain ⟨b', cap', hx, -⟩ := exec_waitInstr op false byte cap (s.accepting e es)
  have hs' : Stuck op (s.accepting e es) := hs
  rw [acceptWaiting_wait (s := s.accepting e es) b' cap' hi hs'.1 (Nat.pos_iff_ne_zero.1 hT)] at hx
  have hstep := hacc _ hx
  exact ⟨_, hstep, ⟨ctlInv_step hstep hc, rfl, rfl, stuck_finishH (stuck_of_controlOnly hs' {}) a b⟩, rfl, rfl, rfl,
    rfl⟩

end Sys2Proof.Machine

namespace Sys2Proof.Proofs

open Sys2Proof Sys2Proof.Machine

/-- Settles O54: after the acceptance `h_to` and the ticks add up to T, so the answer comes T ticks and an edge later.
-/
theorem blockedCommandTimesOutWithinTheBound : Obligations.BlockedCommandTimesOutWithinTheBound := by
  unfold Obligations.BlockedCommandTimesOutWithinTheBound
  intro s op byte cap a b es hc hq hi hs hT hinf ht ha hev hes hlen
  obtain ⟨u, hu, hb, hcfg, hev', hv, hleft⟩ := step_acceptBlocked hc hq hi hs hT ht ha hev
  obtain ⟨-, htick, -⟩ := id hb.ctl
  have hfirst : ∀ m, runSteps (m + 1) s = runSteps m u := fun m => by rw [runSteps, hu]
  have hcomm : s.cfg.tickDiv * effTimeout s.cfg op false = effTimeout s.cfg op false * s.cfg.tickDiv := Nat.mul_comm _ _
  have hmul : s.cfg.tickDiv ≤ effTimeout s.cfg op false * s.cfg.tickDiv := Nat.le_mul_of_pos_left _ hT
  have hedges : u.edgesLeft = s.cfg.tickDiv * effTimeout s.cfg op false - u.h.tickCnt := by
    rw [State.edgesLeft, hcfg, hleft]
  obtain ⟨hwait, hend⟩ := hb.times_out hv (hleft ▸ hT) (by rw [hleft, hcfg]; exact hinf) (hev' ▸ hes)
    (by rw [hev', hedges]; omega)
  rw [hcfg] at htick
  refine ⟨u.edgesLeft + 1, ?_, ?_, fun m h1 hm => ?_, ?_⟩
  · rw [Nat.sub_one_mul]
    omega
  · omega
  · obtain ⟨m, rfl⟩ := Nat.exists_eq_add_of_le' h1
    rw [hfirst]
    exact hwait m (by omega)
  · rw [hfirst]
    exact hend

/-- Settles O55: no tick takes anything from INF, so the command stays blocked at every H edge. -/
theorem infiniteTimeoutNeverExpires : Obligations.InfiniteTimeoutNeverExpires := by
  unfold Obligations.InfiniteTimeoutNeverExpires
  rintro s op es hc hq ho hs hleft rfl hes hlen
  obtain ⟨-, -, -, -, -, -, hw, -⟩ := (legal_iff s.cfg).1 hc.1
  have hpos : s.cfg.inf ≠ 0 := by
    have : 2 ^ 1 ≤ 2 ^ s.cfg.timeoutW := Nat.pow_le_pow_right (by decide) hw
    simp only [Config.inf]
    omega
  obtain ⟨t, ht, hR, htl⟩ := runSteps_induction (n := s.sched.events.length)
    (R := fun n t => StuckRun op s n t ∧ t.h.timeLeft = s.cfg.inf) ⟨.start ⟨hc, hq, ho, hs⟩, hleft⟩ fun n t hn hR => by
      obtain ⟨u, hu, hR', hcount⟩ := hR.1.exists_step hes hn (by rw [hR.2]; exact hpos)
      exact ⟨u, hu, hR', by simp [hcount, State.countdown, hR.2, hR.1.cfg]⟩
  refine ⟨t, ht, hR.blocked.seq, htl, hR.silent hlen, ?_, hR.issued⟩
  simp [State.cmdReady, hR.blocked.seq]

/-- Settles O19, from the attempt of the command that `h_op` holds. -/
theorem completionWinsOverExpiry : Obligations.CompletionWinsOverExpiry := by
  unfold Obligations.CompletionWinsOverExpiry
  refine fun s hq => ⟨fun ho hc => ?_, fun ho hc => ?_, fun ho hc => ?_⟩
  · have hword : rspPack .ok .final .none 0 1 = 0x0001_0001#32 := by decide
    refine ⟨_, sequencer_wait (op := .write) hq ho, ?_⟩
    rw [waitFor_ready (by simp [condition, hc])]
    exact ⟨memory_read_write_same _ _ _, rfl, rfl, rfl, rfl, rfl, rfl, hword, rfl⟩
  · refine ⟨_, sequencer_wait (op := .read) hq ho, ?_⟩
    rw [waitFor_ready (by simp [condition, hc]), act]
    cases hm : Entry.mark s.rxHeadH with
    | true =>
      rw [actRead_mark _ hm]
      exact ⟨rfl, rfl, rfl, rfl, rfl, rfl, nofun, fun _ => ⟨rfl, rfl, rfl⟩⟩
    | false =>
      rw [actRead_data _ hm]
      exact ⟨rfl, rfl, rfl, rfl, rfl, rfl, fun _ => ⟨rfl, rspPack_ok_final _ _, rfl⟩, nofun⟩
  · have hzero : 0#16 ++ 0x0001#16 = 0x0000_0001#32 := by decide
    refine ⟨_, sequencer_wait (op := .readu) hq ho, ?_⟩
    rw [waitFor_ready (by simp [condition, hc]), act]
    have hx := entryTaken_processEntry s
    refine ⟨hx.mem, hx.rxR, hx.chg, hx.op, hx.byte, hx.cap, fun hm => ?_, hx.data⟩
    obtain ⟨hidle, hv, hw, -⟩ := hx.marker hm
    exact ⟨hidle, hv, hw, fun h0 => by rw [hw, h0, hzero]⟩

/-- Settles O20, from the two ways a WAIT step goes on without completion. -/
theorem waitCountsTicksThenExpires : Obligations.WaitCountsTicksThenExpires := by
  unfold Obligations.WaitCountsTicksThenExpires
  intro s op hq ho hc
  refine ⟨_, sequencer_wait hq ho, ?_⟩
  by_cases ht : s.h.timeLeft = 0
  · have hword : rspPack .fail .final .timeout 0 0 = 0x0000_0010#32 := by decide
    rw [waitFor_expired hc ht]
    exact ⟨rfl, rfl, rfl, rfl, rfl, rfl, rfl, rfl, rfl, fun _ => ⟨rfl, rfl, hword⟩, fun h => absurd ht h⟩
  · rw [waitFor_counts hc ht]
    exact ⟨rfl, rfl, rfl, rfl, rfl, rfl, rfl, rfl, rfl, fun h => absurd h ht, fun _ => ⟨hq, rfl, rfl⟩⟩

/-- Settles O21: the UNTIL step holds, or takes the entry at the head of RX. -/
theorem untilDrainsOneEntryAtATime : Obligations.UntilDrainsOneEntryAtATime := by
  unfold Obligations.UntilDrainsOneEntryAtATime
  intro s hq
  refine ⟨_, sequencer_untilEnd hq, ?_⟩
  obtain ⟨he, h⟩ | ⟨he, h⟩ := untilStep_cases s <;> rw [h]
  · exact ⟨rfl, rfl, rfl, rfl, fun _ => rfl, by simp [he]⟩
  · have hx := entryTaken_processEntry s
    refine ⟨hx.mem, hx.op, hx.byte, hx.cap, by simp [he], fun _ => ⟨hx.rxR, hx.chg, fun hm => ?_, hx.data⟩⟩
    obtain ⟨hidle, hv, hw, -⟩ := hx.marker hm
    exact ⟨hidle, hv, hw⟩

/-- Settles O18: HostEnv drives its word at that edge, and IDLE with a command on the port is its acceptance. -/
theorem stepRunsTheDecodedCommand : Obligations.StepRunsTheDecodedCommand := by
  unfold Obligations.StepRunsTheDecodedCommand
  intro s a b es w hl hev hq hn
  have hhost : (s.takeEvent.hostTurn true).host =
      { s.heard.retireDone with cmdValid := true, cmdWord := w } := by
    rw [hostTurn_host, takeEvent_host, takeEvent_h, takeEvent_cfg]
    exact drive_some hn
  have hq' : (s.takeEvent.hostTurn true).clearRsp.h.seq = .idle := by simp [hq]
  have hw : (s.takeEvent.hostTurn true).host.cmdWord = w := by rw [hhost]
  have hv : (s.takeEvent.hostTurn true).host.cmdValid = true := by rw [hhost]
  refine ⟨?_, hw, hv⟩
  rw [step_legal hl, nextEvent_cons hev, runEvent, hStep, sequencer_accept hq' hv, clearRsp_host, hw]

end Sys2Proof.Proofs
end

section
/-! PROOFS. A READU of a frame that H sees whole: H edge by H edge it takes the next entry, and what it has copied is
what `copiedBytes` says of the bytes taken so far (spec/40_host_commands.md R195 to R201; logs 13 and 18). -/

namespace Sys2Proof

open Sys2Proof.Machine

/-! ### What is copied of a frame, byte by byte -/

section

variable {c : Config} {term d : Byte} {cap : Half} {pre : List Byte}

theorem copiedBytes_length_le (c : Config) (term : Byte) (cap : Half) (frame : List Byte) :
    (copiedBytes c term cap frame).length ≤ copyLimit c cap :=
  (List.takeWhile_prefix _).length_le.trans (List.length_take_le _ _)

/-- Before the terminator every byte within the limit is copied (R198). -/
theorem copiedBytes_eq_take (h : term ∉ pre.take (copyLimit c cap)) :
    copiedBytes c term cap pre = pre.take (copyLimit c cap) := by
  rw [copiedBytes, List.takeWhile_eq_self_iff]
  exact fun x hx => bne_iff_ne.2 fun heq => h (heq ▸ hx)

/-- Past the limit or after the terminator a further byte changes nothing (R198). -/
theorem copiedBytes_concat_of_done
    (h : term ∈ pre.take (copyLimit c cap) ∨ copyLimit c cap ≤ (copiedBytes c term cap pre).length) :
    copiedBytes c term cap (pre ++ [d]) = copiedBytes c term cap pre ∧
      (term ∈ (pre ++ [d]).take (copyLimit c cap) ↔ term ∈ pre.take (copyLimit c cap)) := by
  rcases h with h | h
  · refine ⟨?_, iff_of_true ?_ h⟩
    · rw [copiedBytes, List.take_append, List.takeWhile_append, if_neg, copiedBytes]
      intro hlen
      have hall := List.takeWhile_eq_self_iff.1 ((List.takeWhile_prefix _).eq_of_length hlen)
      simpa using hall term h
    · rw [List.take_append]
      exact List.mem_append_left _ h
  · have hlen : copyLimit c cap ≤ pre.length :=
      h.trans ((List.takeWhile_prefix _).length_le.trans (List.length_take_le' _ _))
    rw [copiedBytes, List.take_append_of_le_length hlen]
    exact ⟨rfl, Iff.rfl⟩

/-- Within the limit and before the terminator, the terminator stops the copy and another byte joins it (R198). -/
theorem copiedBytes_concat_of_open (hs : term ∉ pre.take (copyLimit c cap))
    (hl : (copiedBytes c term cap pre).length < copyLimit c cap) :
    copiedBytes c term cap (pre ++ [d]) = copiedBytes c term cap pre ++ [d].takeWhile (· != term) ∧
      (term ∈ (pre ++ [d]).take (copyLimit c cap) ↔ d = term) := by
  have hcopied := copiedBytes_eq_take hs
  rw [hcopied, List.length_take] at hl
  have hpre : pre.take (copyLimit c cap) = pre := List.take_of_length_le (by omega)
  have hall : (pre ++ [d]).take (copyLimit c cap) = pre ++ [d] := List.take_of_length_le (by simp; omega)
  rw [hpre] at hs hcopied
  refine ⟨?_, ?_⟩
  · rw [copiedBytes, hall, hcopied, List.takeWhile_append_of_pos]
    exact fun x hx => bne_iff_ne.2 fun heq => hs (heq ▸ hx)
  · rw [hall]
    simp [hs, eq_comm]

end

namespace Machine

/-- The DATA beats of the copied bytes `l`, each with its index (R197). -/
def beats (l : List Byte) : List Word := l.mapIdx fun k d => rspPack .ok .data .none d (BitVec.ofNat 16 k)

theorem beats_concat (l : List Byte) (d : Byte) :
    beats (l ++ [d]) = beats l ++ [rspPack .ok .data .none d (BitVec.ofNat 16 l.length)] := List.mapIdx_concat

end Machine

end Sys2Proof

namespace Sys2Proof.Machine

/-! ### What H sees in RX -/

section

variable {pw depth : Nat} {w r : GrayCounter} {wC rC : Change Nat} {rs ws : List Nat}

/-- The shift of the write pointer's chain takes no entry from the reader's sight (R89, R111). -/
theorem ahead_synced_le_shift (d : Bool) (h : FifoInv pw depth w r wC rC rs ws) (hne : ws ≠ []) :
    ahead pw r.bin (synced ws) ≤ ahead pw r.bin (synced (shiftIn (sample d w.gray wC) ws)) := by
  have hocc := ahead_synced_le_occ h hne
  obtain ⟨hw, -, hwg, -, -, -, -, -, hws, -⟩ := h
  have hlast : ∀ g ∈ stale wC ++ ws, ahead pw r.bin (synced ws) ≤ ahead pw r.bin g := fun g hg => rel_synced hne hws hg
  have hne' : shiftIn (sample d w.gray wC) ws ≠ [] := by
    rw [← List.length_pos_iff_ne_nil, shiftIn_length]
    exact List.length_pos_iff_ne_nil.2 hne
  rcases mem_shiftIn (synced_mem hne') with hv | hv
  · rw [hv]
    rcases sample_cases d w.gray wC with hs | ⟨hfresh, hs⟩ <;> rw [hs]
    · rwa [ahead_gray hw hwg]
    · exact hlast _ (List.mem_append_left _ (by simp [stale, hfresh]))
  · exact hlast _ (List.mem_append_right _ hv)

end

theorem rxCntH_le_finishH (a b : Bool) {s : State} (hc : CtlInv s) (h : RxInv s) :
    s.rxCntH ≤ (s.finishH a b).rxCntH := ahead_synced_le_shift b h.1 (chains_ne_nil hc).2.1

theorem rxCntH_finishH_of_controlOnly (a b : Bool) {s t : State} (r : ControlOnly s t) :
    (t.finishH a b).rxCntH = (s.finishH a b).rxCntH := by
  rw [State.rxCntH, State.rxCntH, finishH_h, finishH_h, finishH_cfg, finishH_cfg, r.cfg, r.rxR, r.rxWsync, r.l,
    r.chgRxW]

/-- H sees an entry when it counts one (R103). -/
theorem rxEmptyH_of_rxCntH_pos {s : State} (h : RxInv s) (hn : 0 < s.rxCntH) : s.rxEmptyH = false := by
  obtain ⟨⟨-, hr, -, hrg, -⟩, -⟩ := h
  refine beq_eq_false_iff_ne.2 fun he => ?_
  rw [State.rxCntH, ← he, hrg, g2b_b2g hr, subMod_self hr] at hn
  exact Nat.lt_irrefl 0 hn

theorem rxCntH_popRx {s : State} (h : RxInv s) (hn : 0 < s.rxCntH) : s.popRx.rxCntH = s.rxCntH - 1 := by
  obtain ⟨⟨-, hr, -⟩, -⟩ := h
  exact subMod_succ_right (g2b_lt _ _) hr hn

/-- The state after the H edge at which a pending READU, found by the sequencer in `s`, takes the head of RX (R170,
R197). -/
def State.takeEntry (a b : Bool) (s : State) : State := (processEntry s.latchedOps s).finishH a b

/-- Taking an entry pops it, and no entry leaves H's sight but that one (R107, R197). -/
theorem takeEntry_pops_head (a b : Bool) {s : State} (hc : CtlInv s) (h : RxInv s) (hi : s.h.init = true)
    (ho : s.h.op = waitOpCode .readu) (hcopied : s.h.copied.toNat ≤ copyLimit s.cfg s.h.cap) (hn : 0 < s.rxCntH) :
    CtlInv (s.takeEntry a b) ∧ RxInv (s.takeEntry a b) ∧ rxQueue s = s.rxHeadH :: rxQueue (s.takeEntry a b) ∧
      s.rxCntH ≤ (s.takeEntry a b).rxCntH + 1 := by
  have he := rxEmptyH_of_rxCntH_pos h hn
  have hm := processEntry_move s.latchedOps he
  have r := processEntry_controlOnly s.latchedOps s
  obtain ⟨-, -, ht, -⟩ := id hc
  have hp := pendingInv_processEntry ht hi ho hcopied
  have hpop : RxInv s.popRx := ⟨fifoInv_pop h.1 (chains_ne_nil hc).2.1 (by simpa [State.rxEmptyH] using he), h.2⟩
  have hcount : (s.takeEntry a b).rxCntH = (s.popRx.finishH a b).rxCntH := rxCntH_finishH_of_controlOnly a b r
  refine ⟨ctlInv_finishH hc hm hp, rxInv_finishH (rxInv_move hc h hm), ?_, ?_⟩
  · rw [rxQueue_popRx hc h he, ← rxQueue_of_controlOnly r]
    rfl
  · have hle := rxCntH_le_finishH a b (s := s.popRx) hc hpop
    have hpop' := rxCntH_popRx h hn
    omega

/-! ### What HostEnv hears -/

/-- HostEnv samples each answer once (R308). -/
theorem heard_log (s : State) : s.heard.log = s.host.log ++ if s.h.rspValid then [s.h.rspWord] else [] := by
  unfold State.heard
  cases s.h.rspValid <;> simp

/-- With nothing left to issue, HostEnv's turn only samples (R308). -/
theorem hostTurn_of_nothing_todo (o : Bool) {s : State} (ht : s.heard.todo = []) :
    (s.hostTurn o).host = { s.heard with cmdValid := false } := by
  have hret : s.heard.retireDone = s.heard := retireDone_eq_self (by rw [ht]; rfl)
  show s.heard.retireDone.drive s.cfg o = _
  rw [hret]
  exact drive_none o (by simp [HostEnv.nextWord, ht])

/-- At an H edge in IDLE with nothing left to issue, HostEnv samples and the queues stay (R308). -/
theorem step_nothing_todo {s : State} {o a b : Bool} {es : List Event} (hl : s.cfg.legal = true)
    (hev : s.sched.events = .h o a b :: es) (hq : s.h.seq = .idle) (ht : s.heard.todo = []) :
    ∃ t, step s = .next t ∧ t.h.seq = .idle ∧ rxQueue t = rxQueue s ∧ t.host.log = s.heard.log := by
  have hret : s.heard.retireDone = s.heard := retireDone_eq_self (by rw [ht]; rfl)
  have hn : s.heard.retireDone.nextWord s.cfg = none := by simp [hret, HostEnv.nextWord, ht]
  have hlog : s.heard.retireDone.log = s.heard.log := by rw [hret]
  exact ⟨_, (step_cons hl hev).trans (hStep_noCommand o a b hq hn), hq, rfl, hlog⟩

/-! ### READU's run -/

/-- The state as the sequencer finds it at an H edge with the events `es` after it (R172). -/
def State.atEdge (o : Bool) (es : List Event) (s : State) : State :=
  (State.hostTurn o { s with sched := { s.sched with events := es } }).clearRsp

/-- An H edge in UNTIL with an entry in sight takes it (R199). -/
theorem step_untilEnd {s : State} {o a b : Bool} {es : List Event} (hl : s.cfg.legal = true)
    (hev : s.sched.events = .h o a b :: es) (hq : s.h.seq = .untilEnd) (he : s.rxEmptyH = false) :
    step s = .next ((s.atEdge o es).takeEntry a b) := by
  have he' : (s.atEdge o es).rxEmptyH = false := he
  have hu : sequencer (s.atEdge o es) = .next (processEntry (s.atEdge o es).latchedOps (s.atEdge o es)) := by
    rw [sequencer_untilEnd (s := s.atEdge o es) hq, untilStep, he']
    rfl
  exact (step_cons hl hev).trans (hStep_next.2 ⟨_, hu, rfl⟩)

/-- `v` is the state at which entry `n` of `frame` is taken by a READU that the first H edge of `s` accepts: what it has
copied and its beats are those of the frame's first `n` bytes, and the rest of the frame is in sight. -/
structure ReaduAt (s : State) (term : Byte) (cap : Half) (frame : List Byte) (n : Nat) (v : State) : Prop where
  cfg : v.cfg = s.cfg
  ctl : CtlInv v
  rx : RxInv v
  init : v.h.init = true
  opcode : v.h.op = waitOpCode .readu
  latchedTerm : v.h.byte = term
  latchedCap : v.h.cap = cap
  copied : v.h.copied = BitVec.ofNat 16 (copiedBytes s.cfg term cap (frame.take n)).length
  stop : v.h.stop = true ↔ term ∈ (frame.take n).take (copyLimit s.cfg cap)
  silent : v.h.rspValid = false
  queue : rxQueue v = (frame.drop n).map dataEntry ++ endMarker :: (rxQueue s).drop (frame.length + 1)
  seen : frame.length + 1 ≤ v.rxCntH + n
  todo : v.host.todo = []
  awaiting : v.host.awaiting = false
  log : v.host.log = s.host.log ++ beats (copiedBytes s.cfg term cap (frame.take n))
  events : v.sched.events = s.sched.events.drop (n + 1)

/-- The next step of `t` takes entry `n`. -/
def ReaduRun (s : State) (term : Byte) (cap : Half) (frame : List Byte) (n : Nat) (t : State) : Prop :=
  ∃ v a b, step t = .next (v.takeEntry a b) ∧ ReaduAt s term cap frame n v

section

variable {s v : State} {term : Byte} {cap : Half} {frame : List Byte} {n : Nat}

theorem ReaduAt.copied_toNat (h : ReaduAt s term cap frame n v) :
    v.h.copied.toNat = (copiedBytes s.cfg term cap (frame.take n)).length := by
  have hle := copiedBytes_length_le s.cfg term cap (frame.take n)
  have hcap := copyLimit_le s.cfg cap
  have := cap.isLt
  rw [h.copied, BitVec.toNat_ofNat, Nat.mod_eq_of_lt (by omega)]

theorem ReaduAt.takes_head (h : ReaduAt s term cap frame n v) (hn : n ≤ frame.length) (a b : Bool) :
    CtlInv (v.takeEntry a b) ∧ RxInv (v.takeEntry a b) ∧ rxQueue v = v.rxHeadH :: rxQueue (v.takeEntry a b) ∧
      v.rxCntH ≤ (v.takeEntry a b).rxCntH + 1 := by
  have hcopied : v.h.copied.toNat ≤ copyLimit v.cfg v.h.cap := by
    rw [h.copied_toNat, h.cfg, h.latchedCap]
    exact copiedBytes_length_le _ _ _ _
  have := h.seen
  exact takeEntry_pops_head a b h.ctl h.rx h.init h.opcode hcopied (by omega)

/-- While the READU is pending HostEnv has nothing to issue and awaits nothing (log 18). -/
theorem ReaduAt.hears_nothing_more (h : ReaduAt s term cap frame n v) {u : State} (hu : u.host = v.host) :
    u.heard.todo = [] ∧ u.heard.awaiting = false := by
  obtain ⟨htodo, hawait⟩ := heard_not_awaiting (s := u) (by rw [hu]; exact h.awaiting)
  exact ⟨by rw [htodo, hu]; exact h.todo, hawait⟩

/-- The H edge after the one that takes entry `n`. -/
theorem ReaduAt.next_event (h : ReaduAt s term cap frame n v) (hes : ∀ e ∈ s.sched.events, IsHEdge e)
    (hlen : n + 1 < s.sched.events.length) : ∃ o a b, v.sched.events = .h o a b :: s.sched.events.drop (n + 2) := by
  obtain ⟨o, a, b, he⟩ := hes _ (List.getElem_mem hlen)
  exact ⟨o, a, b, by rw [h.events, List.drop_eq_getElem_cons hlen, he]⟩

/-- A byte at the head of RX leaves copied, and answered, what `copiedBytes` says of one more byte (R197, R198). -/
theorem ReaduAt.copies (h : ReaduAt s term cap frame n v) (hn : n < frame.length)
    (hhead : v.rxHeadH = dataEntry frame[n]) :
    (processEntry v.latchedOps v).h.seq = .untilEnd ∧
    (processEntry v.latchedOps v).h.copied =
      BitVec.ofNat 16 (copiedBytes s.cfg term cap (frame.take (n + 1))).length ∧
    ((processEntry v.latchedOps v).h.stop = true ↔ term ∈ (frame.take (n + 1)).take (copyLimit s.cfg cap)) ∧
    (processEntry v.latchedOps v).heard.log =
      s.host.log ++ beats (copiedBytes s.cfg term cap (frame.take (n + 1))) := by
  obtain ⟨hq, hdone, hopen⟩ := (entryTaken_processEntry v).data (by rw [hhead]; exact mark_dataEntry _)
  rw [h.copied_toNat, h.cfg, h.latchedCap] at hdone hopen
  rw [hhead, data_dataEntry, h.latchedTerm] at hopen
  have hhost : (processEntry v.latchedOps v).host = v.host := (processEntry_controlOnly v.latchedOps v).host
  rw [heard_log, hhost, h.log, ← List.take_concat_get' frame n hn]
  refine ⟨hq, ?_⟩
  by_cases hd : term ∈ (frame.take n).take (copyLimit s.cfg cap) ∨
      copyLimit s.cfg cap ≤ (copiedBytes s.cfg term cap (frame.take n)).length
  · obtain ⟨hbytes, hmem⟩ := copiedBytes_concat_of_done (d := frame[n]) hd
    obtain ⟨hc, hs, hv⟩ := hdone (hd.imp_left h.stop.2)
    rw [hbytes, hmem, hc, hs, hv, h.silent]
    exact ⟨h.copied, h.stop, List.append_nil _⟩
  · obtain ⟨hs, hl⟩ := not_or.1 hd
    obtain ⟨hbytes, hmem⟩ := copiedBytes_concat_of_open (d := frame[n]) hs (Nat.lt_of_not_le hl)
    obtain ⟨hterm, hbyte⟩ := hopen (Bool.eq_false_iff.2 fun h1 => hs (h.stop.1 h1)) (Nat.lt_of_not_le hl)
    rw [hbytes, hmem]
    by_cases heq : frame[n] = term
    · obtain ⟨hc, hs, hv⟩ := hterm heq
      have hnone : [frame[n]].takeWhile (· != term) = [] := by simp [heq]
      rw [hnone, hc, hs, hv, h.silent, List.append_nil]
      exact ⟨h.copied, iff_of_true rfl heq, List.append_nil _⟩
    · obtain ⟨hc, hs, hv, hw⟩ := hbyte heq
      have hone : [frame[n]].takeWhile (· != term) = [frame[n]] := by simp [heq]
      rw [hone, hc, hs, hv, hw, h.copied, beats_concat, List.length_append, ← rspPack_ok_data, List.append_assoc]
      exact ⟨(BitVec.ofNat_add _ 1).symm, by simp [heq], rfl⟩

/-- After a data entry the next one is taken at the next H edge (R199). -/
theorem ReaduAt.next (h : ReaduAt s term cap frame n v) (hn : n < frame.length) (hes : ∀ e ∈ s.sched.events, IsHEdge e)
    (hlen : n + 1 < s.sched.events.length) (a b : Bool) :
    ReaduRun s term cap frame (n + 1) (v.takeEntry a b) := by
  obtain ⟨hctl, hrx, hqueue, hseen⟩ := h.takes_head hn.le a b
  rw [h.queue, List.drop_eq_getElem_cons hn, List.map_cons, List.cons_append, List.cons.injEq] at hqueue
  obtain ⟨hq, hcopied, hstop, hlog⟩ := h.copies hn hqueue.1.symm
  have hx := entryTaken_processEntry v
  have r := processEntry_controlOnly v.latchedOps v
  have hinit : (processEntry v.latchedOps v).h.init = true := (processEntry_sameInit _ v).1.trans h.init
  obtain ⟨o, a', b', hev⟩ := h.next_event hes hlen
  have hev' : (v.takeEntry a b).sched.events = .h o a' b' :: s.sched.events.drop (n + 2) :=
    (congrArg Schedule.events r.sched).trans hev
  obtain ⟨htodo, hawait⟩ := h.hears_nothing_more (u := v.takeEntry a b) r.host
  have hturn := hostTurn_of_nothing_todo o htodo
  have hsight : frame.length + 1 ≤ (v.takeEntry a b).rxCntH + (n + 1) := by
    have := h.seen
    omega
  have he : (v.takeEntry a b).rxEmptyH = false := rxEmptyH_of_rxCntH_pos hrx (by omega)
  exact ⟨_, a', b', step_untilEnd hctl.1 hev' hq he, {
    cfg := r.cfg.trans h.cfg
    ctl := hctl
    rx := hrx
    init := hinit
    opcode := hx.op.trans h.opcode
    latchedTerm := hx.byte.trans h.latchedTerm
    latchedCap := hx.cap.trans h.latchedCap
    copied := hcopied
    stop := hstop
    silent := rfl
    queue := hqueue.2.symm
    seen := hsight
    todo := (congrArg HostEnv.todo hturn).trans htodo
    awaiting := (congrArg HostEnv.awaiting hturn).trans hawait
    log := (congrArg HostEnv.log hturn).trans hlog
    events := rfl }⟩

/-- At the END marker the READU ends, and HostEnv has heard every beat (R197). -/
theorem ReaduAt.ends (h : ReaduAt s term cap frame frame.length v) (a b : Bool) :
    CtlInv (v.takeEntry a b) ∧ (v.takeEntry a b).h.seq = .idle ∧
      rxQueue (v.takeEntry a b) = (rxQueue s).drop (frame.length + 1) ∧
      (v.takeEntry a b).heard.todo = [] ∧
      (v.takeEntry a b).heard.log = s.host.log ++ beats (copiedBytes s.cfg term cap frame) ++
        [rspPack .ok .final .none 0 (BitVec.ofNat 16 (copiedBytes s.cfg term cap frame).length)] := by
  obtain ⟨hctl, -, hqueue, -⟩ := h.takes_head le_rfl a b
  rw [h.queue, List.drop_length, List.map_nil, List.nil_append, List.cons.injEq] at hqueue
  have hm : Entry.mark v.rxHeadH = true := by rw [← hqueue.1, mark_endMarker]
  obtain ⟨hq, hv, hw, -⟩ := (entryTaken_processEntry v).marker hm
  have hhost := (processEntry_controlOnly v.latchedOps v).host
  have hlog := heard_log (processEntry v.latchedOps v)
  rw [hhost, hv, hw, popRx_host, h.log, h.copied, ← rspPack_count, List.take_length] at hlog
  exact ⟨hctl, hq, hqueue.2.symm, (h.hears_nothing_more hhost).1, hlog⟩

end

/-- The H edge in IDLE that accepts a READU of a visible frame takes its first entry (R171, R197). -/
theorem readuRun_start {s : State} {nb : Bool} {term : Byte} {cap : Half} {frame : List Byte} {a b : Bool}
    {es : List Event} (hc : CtlInv s) (h : RxInv s) (hq : s.h.seq = .idle) (hi : s.h.init = true)
    (hv : s.h.rspValid = false) (ht : s.host.todo = [.word (encode (waitInstr .readu nb term cap))])
    (ha : s.host.awaiting = false) (hev : s.sched.events = .h true a b :: es) (hn : frame.length + 1 ≤ s.rxCntH)
    (hf : (rxQueue s).take (frame.length + 1) = frame.map dataEntry ++ [endMarker]) :
    ReaduRun s term cap frame 0 s := by
  obtain ⟨e, htodo, hawait, hlog, hacc⟩ := step_acceptWord hc.1 hev hq (waitInstr_wf _ _ _ _) ht ha
  have he : s.rxEmptyH = false := rxEmptyH_of_rxCntH_pos h (by omega)
  have hx := hacc _ (exec_readu_ready (s := s.accepting e es) nb term cap hi he)
  refine ⟨(s.accepting e es).latch .readu term cap, a, b, hx, ?_⟩
  obtain ⟨hl, htick, htime, -, -, -, hchains⟩ := id hc
  have hempty : copiedBytes s.cfg term cap [] = [] := by simp [copiedBytes]
  exact {
    cfg := rfl
    ctl := ⟨hl, htick, htime, fun _ => hi, fun h0 => by simp [State.accepting, State.atPort, hq] at h0,
      fun h0 => by simp [State.accepting, State.atPort, hq] at h0, hchains⟩
    rx := h
    init := hi
    opcode := rfl
    latchedTerm := rfl
    latchedCap := rfl
    copied := by simp [hempty]
    stop := by simp
    silent := rfl
    queue := by
      rw [List.drop_zero, List.append_cons, ← hf, List.take_append_drop]
      rfl
    seen := hn
    todo := htodo
    awaiting := hawait
    log := by
      rw [List.take_zero, hempty]
      exact hlog.trans (by rw [heard_log, hv]; rfl)
    events := by rw [hev]; rfl }

end Sys2Proof.Machine

namespace Sys2Proof.Proofs

open Sys2Proof Sys2Proof.Machine

/-- Settles O56, by induction on the frame's bytes: each H edge takes the next entry; the marker ends the command, and
at one more edge HostEnv samples the FINAL beat. -/
theorem readuCopiesAndDequeuesOneFrame : Obligations.ReaduCopiesAndDequeuesOneFrame := by
  unfold Obligations.ReaduCopiesAndDequeuesOneFrame
  intro s nb term cap frame a b es hc h hq hi hv ht ha hev hes hlen hn hf
  have hes' : ∀ e ∈ s.sched.events, IsHEdge e := by
    rw [hev]
    exact List.forall_mem_cons.2 ⟨⟨true, a, b, rfl⟩, hes⟩
  have hlen' : s.sched.events.length = frame.length + 2 := by rw [hev, List.length_cons, hlen]
  obtain ⟨t, hrun, v, a', b', ht', hR⟩ := runSteps_induction (n := frame.length)
    (readuRun_start hc h hq hi hv ht ha hev hn hf) fun n t hm ⟨v, a', b', ht', hR⟩ =>
      ⟨_, ht', hR.next hm hes' (by omega) a' b'⟩
  obtain ⟨hctl, hidle, hqueue, htodo, hlog⟩ := hR.ends a' b'
  obtain ⟨o, a'', b'', hnext⟩ := hR.next_event hes' (by omega)
  have hev' : (v.takeEntry a' b').sched.events = .h o a'' b'' :: s.sched.events.drop (frame.length + 2) :=
    (congrArg Schedule.events (processEntry_controlOnly v.latchedOps v).sched).trans hnext
  obtain ⟨u, hu, huidle, huqueue, hulog⟩ := step_nothing_todo hctl.1 hev' hidle htodo
  exact ⟨u, (runSteps_succ ((runSteps_succ hrun).trans ht')).trans hu, huidle, huqueue.trans hqueue, hulog.trans hlog⟩

end Sys2Proof.Proofs
end

section
/-! PROOFS. What an L edge does, case by case: the framing step of each case as an equation, which the transmit step
before it and the shifts after it leave as it is (spec/41_line_engines.md R224 to R240). -/

namespace Sys2Proof.Machine

/-! ### The framing step beside the transmit step -/

/-- `s` with the read side of TX, the bytes sent and the schedule of `v`, which a framing step neither reads nor writes
(R225). -/
def State.withSend (s v : State) : State :=
  { s with
    l := { s.l with txR := v.l.txR }
    chg := { s.chg with txR := v.chg.txR }
    line := { s.line with out := v.line.out }
    sched := v.sched }

theorem accumulate_withSend (b : Byte) (rest : List Byte) (s v : State) :
    (s.withSend v).accumulate b rest = mapNext (·.withSend v) (s.accumulate b rest) := by
  unfold State.accumulate
  simp only [apply_ite (mapNext (·.withSend v))]
  rfl

theorem reserve_withSend (s v : State) : (s.withSend v).reserve = s.reserve.withSend v := by
  have hp : (s.withSend v).cfg.policy = s.cfg.policy := rfl
  unfold State.reserve
  rw [hp, apply_ite (State.withSend · v)]
  cases s.cfg.policy <;> rfl

theorem stream_withSend (s v : State) : (s.withSend v).stream = mapNext (·.withSend v) s.stream := by
  unfold State.stream
  simp only [apply_ite (mapNext (·.withSend v))]
  rfl

theorem framing_withSend (s v : State) : (s.withSend v).framing = mapNext (·.withSend v) s.framing := by
  have hinp : (s.withSend v).line.inp = s.line.inp := rfl
  unfold State.framing
  rw [reserve_withSend, stream_withSend, hinp]
  simp only [apply_ite (mapNext (·.withSend v))]
  cases s.line.inp with
  | nil => rfl
  | cons b rest =>
    dsimp only
    rw [accumulate_withSend]
    rfl

/-- The end of an L edge whose framing step goes on to `u` and whose transmit step to `v`. -/
def State.endL (u v : State) (a b c : Bool) : State := (u.withSend v).syncL a b c

/-- An L edge does what the framing step does, whatever is sent meanwhile (R225). -/
theorem lStep_of_framing {s u : State} (h : s.framing = .next u) (q : Schedule) (r a b c : Bool) :
    ∃ v : State, v.sched = q ∧ lStep r a b c { s with sched := q } = .next (u.endL v a b c) := by
  have hv : State.transmit r { s with sched := q } = s.withSend (State.transmit r { s with sched := q }) := by
    rw [transmit_frame]
    rfl
  refine ⟨State.transmit r { s with sched := q }, by rw [transmit_frame], ?_⟩
  rw [lStep, hv, framing_withSend, h]
  rfl

/-! ### The framing step by cases -/

/-- Before `l_init` the framing step does nothing (R224). -/
theorem framing_before_init {s : State} (hi : s.lInit = false) : s.framing = .next s := by
  simp [State.framing, State.uartRxReady, hi]

theorem uartRxReady_of_open {s : State} (hi : s.lInit = true) (fs : s.l.fState = .empty ∨ s.l.fState = .accum) :
    s.uartRxReady = true := by simpa [State.uartRxReady, hi] using fs

theorem uartRxReady_of_closed {s : State} (fs : s.l.fState = .termd ∨ s.l.fState = .ovf) : s.uartRxReady = false := by
  rcases fs with fs | fs <;> simp [State.uartRxReady, fs]

/-- An open buffer with no byte at the UART (R227). -/
theorem framing_no_byte {s : State} (fs : s.l.fState = .empty ∨ s.l.fState = .accum) (hb : s.line.inp = []) :
    s.framing = .next s := by
  cases hi : s.lInit with
  | false => exact framing_before_init hi
  | true => simp [State.framing, uartRxReady_of_open hi fs, hb]

/-- `f_state` after the byte `b` is taken: TERM is tested before the capacity (R227, R229). -/
def State.stateAfter (b : Byte) (s : State) : FrameState :=
  if b = s.cfg.term then .termd else if s.l.fCursor + 1 = s.cfg.asmCap then .ovf else .accum

/-- `f_len` after the byte `b` is taken (R227). -/
def State.lenAfter (b : Byte) (s : State) : Nat :=
  if b = s.cfg.term then s.l.fCursor else if s.l.fCursor + 1 = s.cfg.asmCap then s.cfg.asmCap else s.l.fLen

/-- The state after the framing step takes the byte `b` (R227). -/
def State.afterByte (b : Byte) (rest : List Byte) (s : State) : State :=
  s.takeByte b rest { s.l with fCursor := s.l.fCursor + 1, fState := s.stateAfter b, fLen := s.lenAfter b }

section

variable {b : Byte} {s : State}

theorem after_term (hb : b = s.cfg.term) : s.stateAfter b = .termd ∧ s.lenAfter b = s.l.fCursor := by
  simp [State.stateAfter, State.lenAfter, hb]

theorem after_last_byte (hb : b ≠ s.cfg.term) (he : s.l.fCursor + 1 = s.cfg.asmCap) :
    s.stateAfter b = .ovf ∧ s.lenAfter b = s.cfg.asmCap := by
  simp [State.stateAfter, State.lenAfter, hb, he]

theorem after_ordinary_byte (hb : b ≠ s.cfg.term) (he : s.l.fCursor + 1 ≠ s.cfg.asmCap) :
    s.stateAfter b = .accum ∧ s.lenAfter b = s.l.fLen := by
  simp [State.stateAfter, State.lenAfter, hb, he]

end

/-- An open buffer with a byte at the UART takes it (R227). -/
theorem framing_byte {s : State} {b : Byte} {rest : List Byte} (hi : s.lInit = true)
    (fs : s.l.fState = .empty ∨ s.l.fState = .accum) (room : s.l.fCursor < s.cfg.asmCap)
    (hb : s.line.inp = b :: rest) : s.framing = .next (s.afterByte b rest) := by
  have hf : s.framing = s.accumulate b rest := by simp [State.framing, uartRxReady_of_open hi fs, hb]
  rw [hf, State.accumulate, if_neg room.not_ge, mod_cw s.cfg room, State.afterByte]
  by_cases ht : b = s.cfg.term
  · obtain ⟨hst, hlen⟩ := after_term ht
    rw [hst, hlen, if_pos ht]
    rfl
  · by_cases he : s.l.fCursor + 1 = s.cfg.asmCap
    · obtain ⟨hst, hlen⟩ := after_last_byte ht he
      rw [hst, hlen, if_neg ht, if_pos he, he]
      rfl
    · obtain ⟨hst, hlen⟩ := after_ordinary_byte ht he
      rw [hst, hlen, if_neg ht, if_neg he]
      rfl

/-- A frame not yet published (R236). -/
theorem framing_reserve {s : State} (hi : s.lInit = true) (fs : s.l.fState = .termd ∨ s.l.fState = .ovf)
    (pub : s.l.fPub = false) : s.framing = .next s.reserve := by
  simp [State.framing, uartRxReady_of_closed fs, hi, pub]

/-- The state after the stream phase pushes the next byte of the frame (R237). -/
def State.pushByte (s : State) : State :=
  { s.pushRx (dataEntry (s.mem.asmAt s.l.fPidx)) with
    l := { s.l with rxW := s.l.rxW.inc s.cfg.rxPw, fPidx := s.l.fPidx + 1 } }

/-- The state after the stream phase pushes the END marker (R237). -/
def State.pushMarker (s : State) : State :=
  { s.pushRx endMarker with
    l := { s.l with rxW := s.l.rxW.inc s.cfg.rxPw, fPub := false, fPidx := 0, fCursor := 0, fState := .empty } }

section

variable {s : State} (hi : s.lInit = true) (fs : s.l.fState = .termd ∨ s.l.fState = .ovf) (pub : s.l.fPub = true)

include hi fs pub

theorem framing_entry (more : s.l.fPidx < s.l.fLen) (hlen : s.l.fLen ≤ s.cfg.asmCap) :
    s.framing = .next s.pushByte := by
  have inside : s.l.fPidx < s.cfg.asmCap := Nat.lt_of_lt_of_le more hlen
  simp [State.framing, uartRxReady_of_closed fs, hi, pub, State.stream, more, inside.not_ge, mod_cw s.cfg inside,
    State.pushByte]

theorem framing_marker (done : s.l.fLen ≤ s.l.fPidx) : s.framing = .next s.pushMarker := by
  simp [State.framing, uartRxReady_of_closed fs, hi, pub, State.stream, done.not_gt, State.pushMarker]

end

end Sys2Proof.Machine

namespace Sys2Proof.Proofs

open Sys2Proof Sys2Proof.Machine

/-- Settles O29, from the framing step in an open buffer, with and without a byte. -/
theorem framingTakesOneByte : Obligations.FramingTakesOneByte := by
  unfold Obligations.FramingTakesOneByte
  intro s r a b c _ fs room
  refine ⟨fun hno => ?_, fun d rest hi hd => ?_⟩
  · have hs : s.framing = .next s := hno.elim framing_before_init (framing_no_byte fs)
    obtain ⟨v, -, ht⟩ := lStep_of_framing hs s.sched r a b c
    exact ⟨_, ht, rfl, rfl, rfl, rfl, rfl, rfl, rfl, rfl, rfl⟩
  · obtain ⟨v, -, ht⟩ := lStep_of_framing (framing_byte hi fs room hd) s.sched r a b c
    exact ⟨_, ht, rfl, memory_read_write_same _ _ _, fun k hk => memory_read_write_other _ _ hk, rfl, rfl, rfl, rfl,
      rfl, rfl, after_term, after_last_byte, after_ordinary_byte⟩

/-- Settles O30, by the three ways of the reserve phase; a RX that L sees empty has room for ASM_CAP + 1 entries. -/
theorem publishReservesRoomOrWaitsOrDrops : Obligations.PublishReservesRoomOrWaitsOrDrops := by
  unfold Obligations.PublishReservesRoomOrWaitsOrDrops
  intro s r a b c hi fs pub
  obtain ⟨v, -, ht⟩ := lStep_of_framing (framing_reserve hi fs pub) s.sched r a b c
  have hempty : s.cfg.legal = true → s.l.fLen ≤ s.cfg.asmCap → s.rxCntL = 0 → s.l.fLen + 1 ≤ s.rxFreeL := by
    intro hl hlen hcnt
    obtain ⟨-, -, hdepth, -⟩ := (legal_iff s.cfg).1 hl
    rw [State.rxFreeL]
    omega
  obtain ⟨room, hr⟩ | ⟨room, hp, hr⟩ | ⟨room, hp, hr⟩ := reserve_cases s <;> rw [hr] at ht
  · exact ⟨_, ht, rfl, rfl, rfl, rfl, rfl, fun _ => ⟨rfl, rfl, rfl, rfl⟩, fun _ _ _ => rfl,
      fun h => absurd room h.not_ge, fun h => absurd room h.not_ge⟩
  · exact ⟨_, ht, rfl, rfl, rfl, rfl, rfl, fun h => absurd h room.not_ge,
      fun hl hlen hcnt => absurd (hempty hl hlen hcnt) room.not_ge, fun _ _ => ⟨pub, rfl, rfl, rfl⟩,
      fun _ h => by simp [hp] at h⟩
  · exact ⟨_, ht, rfl, rfl, rfl, rfl, rfl, fun h => absurd h room.not_ge,
      fun hl hlen hcnt => absurd (hempty hl hlen hcnt) room.not_ge, fun _ h => by simp [hp] at h,
      fun _ _ => ⟨pub, rfl, rfl, rfl⟩⟩

/-- Settles O31, by the publish index: a data entry below the frame's length, the END marker at it. -/
theorem publishStreamsOneEntry : Obligations.PublishStreamsOneEntry := by
  unfold Obligations.PublishStreamsOneEntry
  intro s r a b c _ hi fs pub hlen
  rcases Nat.lt_or_ge s.l.fPidx s.l.fLen with more | done
  · obtain ⟨v, -, ht⟩ := lStep_of_framing (framing_entry hi fs pub more hlen) s.sched r a b c
    exact ⟨_, ht, rfl, rfl, rfl, fun k hk => memory_read_write_other _ _ hk,
      fun _ => ⟨memory_read_write_same _ _ _, rfl, pub, rfl⟩, fun h => absurd more h.not_gt⟩
  · obtain ⟨v, -, ht⟩ := lStep_of_framing (framing_marker hi fs pub done) s.sched r a b c
    have hmark : endMarker = 0x100#9 := by decide
    exact ⟨_, ht, rfl, rfl, rfl, fun k hk => memory_read_write_other _ _ hk, fun h => absurd h done.not_gt,
      fun _ => ⟨hmark ▸ memory_read_write_same _ _ _, rfl, rfl, rfl, rfl⟩⟩

/-- Settles O32, by the two cases of the transmit step, which the framing step and the shifts leave as they are. -/
theorem transmitSendsTheHeadOnAHandshake : Obligations.TransmitSendsTheHeadOnAHandshake := by
  unfold Obligations.TransmitSendsTheHeadOnAHandshake
  intro s t r a b c h
  obtain ⟨u, hm, rfl⟩ := lStep_move h
  obtain ⟨hout, -⟩ := hm.txQueue_eq
  obtain ⟨-, -, -, -, -, -, htx, -, -, -, -, hchg, -⟩ := hm.frame
  rw [syncL_line, syncL_l, syncL_chg, hout, htx, hchg]
  obtain ⟨hi, he, hr, ht⟩ | ⟨hno, ht⟩ := transmit_cases r s <;> rw [ht]
  · have he : s.l.txR.gray ≠ synced s.l.txWsync := beq_eq_false_iff_ne.1 he
    exact ⟨fun _ => ⟨rfl, rfl, rfl⟩, by simp [hi, he, hr]⟩
  · refine ⟨fun ⟨hi, he, hr⟩ => ?_, fun _ => ⟨rfl, rfl, rfl⟩⟩
    have he : s.txEmptyL = false := beq_eq_false_iff_ne.2 he
    simp [hi, he, hr] at hno

/-- Settles O33: before `l_init` neither engine does anything, which leaves the shifts. -/
theorem lineIsGatedByInitialisation : Obligations.LineIsGatedByInitialisation := by
  unfold Obligations.LineIsGatedByInitialisation
  intro s r a b c hi
  have ht : s.transmit r = s := by simp [State.transmit, State.uartTxValid, hi]
  have hstep : lStep r a b c s = .next (s.syncL a b c) := by rw [lStep, ht, framing_before_init hi]; rfl
  exact ⟨by simp [State.uartRxReady, hi], by simp [State.uartTxValid, hi], _, hstep, rfl, rfl, rfl⟩

end Sys2Proof.Proofs
end

section
/-! PROOFS. A frame from the UART into RX, L edge by L edge: its bytes are taken one at a time, room is reserved, and its
entries are published one at a time (spec/41_line_engines.md R227 to R245). -/

namespace Sys2Proof.Machine

/-! ### An initialised line in a run of L edges -/

/-- The invariants an L edge leans on, with `h_init` arrived at every stage of `l_init_sync` (R94, R181). -/
structure LineUp (s : State) : Prop where
  ctl : CtlInv s
  frame : FrameInv s
  rx : RxInv s
  init : s.h.init = true
  settled : s.chg.init.fresh = false
  chain : ∀ g ∈ s.l.initSync, g = true

theorem LineUp.lInit {s : State} (h : LineUp s) : s.lInit = true := by
  obtain ⟨-, -, -, -, hne⟩ := chains_ne_nil h.ctl
  refine h.chain _ ?_
  rw [State.lInit, List.getLastD_eq_getLast?, List.getLast?_eq_some_getLast hne]
  exact List.getLast_mem hne

theorem LineUp.lStep {s t : State} {r a b c : Bool} (h : LineUp s) (hs : lStep r a b c s = .next t) : LineUp t := by
  obtain ⟨-, hh, -⟩ := lStep_frame hs
  obtain ⟨-, -, hchain, -, -, hchg⟩ := lStep_chains hs
  refine ⟨ctlInv_lStep h.ctl hs, frameInv_lStep h.frame hs, rxInv_lStep h.ctl h.frame h.rx hs, hh ▸ h.init,
    hchg ▸ rfl, fun g hg => ?_⟩
  rw [hchain, sample, h.settled, h.init] at hg
  rcases mem_shiftIn hg with hg | hg
  · exact hg
  · exact h.chain g hg

theorem exists_lEdge {es : List Event} {n : Nat} (hes : ∀ e ∈ es, IsLEdge e) (hn : n < es.length) :
    ∃ r a b c, es.drop n = .l r a b c :: es.drop (n + 1) := by
  obtain ⟨r, a, b, c, he⟩ := hes _ (List.getElem_mem hn)
  exact ⟨r, a, b, c, by rw [List.drop_eq_getElem_cons hn, he]⟩

/-- One step of a run of L edges does what the framing step does, and the line stays up (R225). -/
theorem LineUp.step {s t u : State} {n : Nat} (h : LineUp t) (hes : ∀ e ∈ s.sched.events, IsLEdge e)
    (hn : n < s.sched.events.length) (hev : t.sched.events = s.sched.events.drop n) (hu : t.framing = .next u) :
    ∃ v a b c, Machine.step t = .next (u.endL v a b c) ∧ LineUp (u.endL v a b c) ∧
      v.sched.events = s.sched.events.drop (n + 1) := by
  obtain ⟨r, a, b, c, he⟩ := exists_lEdge hes hn
  obtain ⟨v, hv, ht⟩ := lStep_of_framing hu { t.sched with events := s.sched.events.drop (n + 1) } r a b c
  have hup : LineUp { t with sched := { t.sched with events := s.sched.events.drop (n + 1) } } :=
    ⟨h.ctl, h.frame, h.rx, h.init, h.settled, h.chain⟩
  exact ⟨v, a, b, c, (step_cons h.ctl.1 (hev.trans he)).trans ht, hup.lStep ht, by rw [hv]⟩

/-- The shifts that end an L edge take no room in RX from L (R89, R238). -/
theorem rxFreeL_le_endL {u : State} (hne : u.l.rxRsync ≠ []) (h : RxInv u) (v : State) (a b c : Bool) :
    u.rxFreeL ≤ (u.endL v a b c).rxFreeL := by
  have hle : (u.endL v a b c).rxCntL ≤ u.rxCntL := behind_synced_shift_le b h.1 hne
  have hcfg : (u.endL v a b c).cfg = u.cfg := rfl
  rw [State.rxFreeL, State.rxFreeL, hcfg]
  omega

theorem runSteps_cons {n : Nat} {s t : State} (h : step s = .next t) : runSteps (n + 1) s = runSteps n t := by
  rw [runSteps, h]

/-- A run of `m` steps and then one of `n`. -/
theorem runSteps_add {m n : Nat} {s t : State} (h : runSteps m s = .next t) : runSteps (m + n) s = runSteps n t := by
  induction m generalizing s with
  | zero =>
    cases h
    rw [Nat.zero_add]
  | succ m ih =>
    obtain ⟨u, hu⟩ : ∃ u, step s = .next u := by
      cases hs : step s <;> simp [runSteps, hs] at h
      exact ⟨_, rfl⟩
    rw [Nat.succ_add, runSteps_cons hu]
    exact ih (runSteps_cons hu ▸ h)

/-! ### The bytes of a frame -/

/-- The first `n` bytes in the assembly buffer. -/
def Storage.asmBytes (m : Storage) (n : Nat) : List Byte := (List.range n).map m.asmAt

theorem asmBytes_succ (m : Storage) (n : Nat) : m.asmBytes (n + 1) = m.asmBytes n ++ [m.asmAt n] := by
  simp [Storage.asmBytes, List.range_succ]

theorem take_asmBytes (m : Storage) {n k : Nat} (h : k ≤ n) : (m.asmBytes n).take k = m.asmBytes k := by
  rw [Storage.asmBytes, ← List.map_take, List.take_range, Nat.min_eq_left h, Storage.asmBytes]

/-- The byte taken joins the bytes below the cursor (R227). -/
theorem asmBytes_afterByte (b : Byte) (rest : List Byte) (s : State) :
    (s.afterByte b rest).mem.asmBytes (s.l.fCursor + 1) = s.mem.asmBytes s.l.fCursor ++ [b] := by
  have hbelow : (s.afterByte b rest).mem.asmBytes s.l.fCursor = s.mem.asmBytes s.l.fCursor := by
    refine List.map_congr_left fun k hk => ?_
    rw [State.afterByte, asmAt_takeByte, if_neg (List.mem_range.1 hk).ne]
  rw [asmBytes_succ, hbelow, State.afterByte, asmAt_takeByte, if_pos rfl]

/-! ### Taking the bytes -/

/-- After `n` L edges from `s` that each took a byte into a buffer empty in `s`; the last of them may have closed the
frame. -/
structure Taken (s : State) (n : Nat) (t : State) : Prop where
  up : LineUp t
  cfg : t.cfg = s.cfg
  events : t.sched.events = s.sched.events.drop n
  inp : t.line.inp = s.line.inp.drop n
  bytes : t.mem.asmBytes n = s.line.inp.take n
  cursor : t.l.fCursor = n
  pub : t.l.fPub = false
  queue : rxQueue t = rxQueue s
  room : s.rxFreeL ≤ t.rxFreeL

theorem Taken.start {s : State} (h : LineUp s) (fs : s.l.fState = .empty) : Taken s 0 s := by
  obtain ⟨-, hE, -⟩ := h.frame
  obtain ⟨hcur, hpub, -⟩ := hE fs
  exact ⟨h, rfl, rfl, rfl, rfl, hcur, hpub, rfl, le_rfl⟩

section

variable {s t : State} {n : Nat}

/-- One more L edge with the buffer open takes the next byte (R227, R229). -/
theorem Taken.exists_step (h : Taken s n t) (fs : t.l.fState = .empty ∨ t.l.fState = .accum)
    (hes : ∀ e ∈ s.sched.events, IsLEdge e) (hn : n < s.sched.events.length) (hb : n < s.line.inp.length)
    (hcap : n < s.cfg.asmCap) : ∃ u, step t = .next u ∧ Taken s (n + 1) u ∧
      u.l.fState = t.stateAfter s.line.inp[n] ∧ u.l.fLen = t.lenAfter s.line.inp[n] := by
  have hd : t.line.inp = s.line.inp[n] :: s.line.inp.drop (n + 1) := by rw [h.inp, List.drop_eq_getElem_cons hb]
  have hf := framing_byte h.up.lInit fs (by rw [h.cursor, h.cfg]; exact hcap) hd
  obtain ⟨v, a, b, c, hs, hup, hev⟩ := h.up.step hes hn h.events hf
  have hrx := rxInv_framing h.up.ctl h.up.frame h.up.rx (framing_move hf)
  obtain ⟨-, -, -, hne, -⟩ := chains_ne_nil h.up.ctl
  refine ⟨_, hs, ⟨hup, h.cfg, hev, rfl, ?_, congrArg (· + 1) h.cursor, h.pub, h.queue, ?_⟩, rfl, rfl⟩
  · have hbytes := asmBytes_afterByte s.line.inp[n] (s.line.inp.drop (n + 1)) t
    rw [h.cursor, h.bytes, List.take_concat_get' _ _ hb] at hbytes
    exact hbytes
  · exact h.room.trans (rxFreeL_le_endL (u := t.afterByte s.line.inp[n] (s.line.inp.drop (n + 1))) hne hrx v a b c)

end

/-- Bytes other than TERM, fewer than ASM_CAP, are taken one at each L edge, and the buffer stays open (R227). -/
theorem LineUp.takes_bytes {s : State} {n : Nat} (h : LineUp s) (fs : s.l.fState = .empty)
    (hes : ∀ e ∈ s.sched.events, IsLEdge e) (hn : n ≤ s.sched.events.length) (hb : n ≤ s.line.inp.length)
    (hcap : n < s.cfg.asmCap) (hterm : s.cfg.term ∉ s.line.inp.take n) :
    ∃ t, runSteps n s = .next t ∧ Taken s n t ∧ (t.l.fState = .empty ∨ t.l.fState = .accum) := by
  refine runSteps_induction (R := fun m t => Taken s m t ∧ (t.l.fState = .empty ∨ t.l.fState = .accum))
    ⟨.start h fs, .inl fs⟩ fun m t hm ⟨ht, hopen⟩ => ?_
  have hmb : m < s.line.inp.length := by omega
  obtain ⟨u, hs, hu, hstate, -⟩ := ht.exists_step hopen hes (by omega) hmb (by omega)
  have hord : s.line.inp[m] ≠ t.cfg.term := by
    rw [ht.cfg]
    exact fun heq => hterm (heq ▸ List.mem_take_iff_getElem.2 ⟨m, by omega, rfl⟩)
  have hmore : t.l.fCursor + 1 ≠ t.cfg.asmCap := by
    rw [ht.cursor, ht.cfg]
    omega
  exact ⟨u, hs, hu, .inr (hstate.trans (after_ordinary_byte hord hmore).1)⟩

/-! ### Publishing the frame -/

/-- After the L edge of `s` that reserves room for the frame in the buffer, and `n` more that each published a byte. -/
structure Published (s : State) (n : Nat) (t : State) : Prop where
  up : LineUp t
  events : t.sched.events = s.sched.events.drop (n + 1)
  inp : t.line.inp = s.line.inp
  bytes : t.mem.asmAt = s.mem.asmAt
  closed : t.l.fState = .termd ∨ t.l.fState = .ovf
  pub : t.l.fPub = true
  idx : t.l.fPidx = n
  len : t.l.fLen = s.l.fLen
  queue : rxQueue t = rxQueue s ++ (s.mem.asmBytes n).map dataEntry

/-- With room for the frame and its marker the publish starts (R236). -/
theorem LineUp.reserves {s : State} (h : LineUp s) (fs : s.l.fState = .termd ∨ s.l.fState = .ovf)
    (pub : s.l.fPub = false) (room : s.l.fLen + 1 ≤ s.rxFreeL) (hes : ∀ e ∈ s.sched.events, IsLEdge e)
    (hn : 0 < s.sched.events.length) : ∃ t, Machine.step s = .next t ∧ Published s 0 t := by
  obtain ⟨-, hr⟩ := (reserve_cases s).resolve_right fun hno => by
    rcases hno with ⟨hno, -⟩ | ⟨hno, -⟩ <;> exact absurd room hno.not_ge
  have hf := framing_reserve h.lInit fs pub
  rw [hr] at hf
  obtain ⟨v, a, b, c, hs, hup, hev⟩ := h.step hes hn rfl hf
  exact ⟨_, hs, hup, hev, rfl, rfl, fs, rfl, rfl, rfl, (List.append_nil _).symm⟩

section

variable {s t : State} {n : Nat} (hes : ∀ e ∈ s.sched.events, IsLEdge e) (hn : n + 1 < s.sched.events.length)

include hes hn

/-- One more L edge publishes the next byte of the frame (R237). -/
theorem Published.exists_step (h : Published s n t) (more : n < s.l.fLen) :
    ∃ u, step t = .next u ∧ Published s (n + 1) u := by
  have hmore : t.l.fPidx < t.l.fLen := by rwa [h.idx, h.len]
  have hlen : t.l.fLen ≤ t.cfg.asmCap := by
    obtain ⟨-, -, -, hT, hO, -⟩ := h.up.frame
    rcases h.closed with fs | fs
    · exact (hT fs).1.trans (Nat.sub_le _ _)
    · exact (hO fs).1.le
  have hf := framing_entry h.up.lInit h.closed h.pub hmore hlen
  obtain ⟨v, a, b, c, hs, hup, hev⟩ := h.up.step hes hn h.events hf
  have hq : rxQueue t.pushByte = rxQueue t ++ [dataEntry (t.mem.asmAt t.l.fPidx)] :=
    rxQueue_pushRx _ h.up.ctl h.up.rx (rx_room h.up.frame h.up.rx h.closed h.pub)
  rw [h.queue, h.bytes, h.idx, List.append_assoc] at hq
  refine ⟨_, hs, hup, hev, h.inp, h.bytes, h.closed, h.pub, congrArg (· + 1) h.idx, h.len, ?_⟩
  rw [asmBytes_succ, List.map_append]
  exact hq

/-- The L edge after the frame's last byte publishes the END marker and empties the buffer (R237). -/
theorem Published.finish (h : Published s n t) (done : n = s.l.fLen) : ∃ u, step t = .next u ∧
    rxQueue u = rxQueue s ++ (s.mem.asmBytes n).map dataEntry ++ [endMarker] ∧ u.line.inp = s.line.inp ∧
    u.l.fState = .empty ∧ u.l.fCursor = 0 := by
  have hdone : t.l.fLen ≤ t.l.fPidx := by rw [h.idx, h.len, done]
  obtain ⟨v, a, b, c, hs, -⟩ := h.up.step hes hn h.events (framing_marker h.up.lInit h.closed h.pub hdone)
  have hq : rxQueue t.pushMarker = rxQueue t ++ [endMarker] :=
    rxQueue_pushRx _ h.up.ctl h.up.rx (rx_room h.up.frame h.up.rx h.closed h.pub)
  rw [h.queue] at hq
  exact ⟨_, hs, hq, h.inp, rfl, rfl⟩

end

/-- A frame in the buffer, with room in RX, is published in its length and 2 more L edges (R236, R237, R239). -/
theorem LineUp.publishes {s : State} (h : LineUp s) (fs : s.l.fState = .termd ∨ s.l.fState = .ovf)
    (pub : s.l.fPub = false) (room : s.l.fLen + 1 ≤ s.rxFreeL) (hes : ∀ e ∈ s.sched.events, IsLEdge e)
    (hlen : s.l.fLen + 2 ≤ s.sched.events.length) : ∃ t, runSteps (s.l.fLen + 2) s = .next t ∧
      rxQueue t = rxQueue s ++ (s.mem.asmBytes s.l.fLen).map dataEntry ++ [endMarker] ∧ t.line.inp = s.line.inp ∧
      t.l.fState = .empty ∧ t.l.fCursor = 0 := by
  obtain ⟨t, hs, ht⟩ := h.reserves fs pub room hes (by omega)
  obtain ⟨u, hrun, hu⟩ := runSteps_induction (R := Published s) (n := s.l.fLen) ht
    fun m v hm hv => hv.exists_step hes (by omega) hm
  obtain ⟨w, hw, hend⟩ := hu.finish hes (by omega) rfl
  exact ⟨w, (runSteps_cons hs).trans ((runSteps_succ hrun).trans hw), hend⟩

/-! ### From the UART into RX -/

/-- The first `n` bytes at the UART stay in an open buffer, and the next one closes a frame of `m` bytes: `TERM` closes
it without joining it, the ASM_CAP-th byte joins it (R227, R229, R231). -/
structure ClosesFrame (s : State) (n m : Nat) : Prop where
  waiting : n < s.line.inp.length
  noTerm : s.cfg.term ∉ s.line.inp.take n
  inside : n < s.cfg.asmCap
  closes : s.line.inp[n] = s.cfg.term ∧ m = n ∨ s.line.inp[n] ≠ s.cfg.term ∧ n + 1 = s.cfg.asmCap ∧ m = n + 1

/-- A frame that arrives at an empty buffer, with room in RX, is published (R239, R244, R245). -/
theorem LineUp.publishes_frame {s : State} {n m : Nat} (h : LineUp s) (fs : s.l.fState = .empty)
    (hf : ClosesFrame s n m) (room : m + 1 ≤ s.rxFreeL) (hes : ∀ e ∈ s.sched.events, IsLEdge e)
    (hlen : s.sched.events.length = n + 1 + (m + 2)) : ∃ t, runSteps (n + 1 + (m + 2)) s = .next t ∧
      rxQueue t = rxQueue s ++ (s.line.inp.take m).map dataEntry ++ [endMarker] ∧
      t.line.inp = s.line.inp.drop (n + 1) ∧ t.l.fState = .empty ∧ t.l.fCursor = 0 := by
  obtain ⟨t, hrun, ht, hopen⟩ := h.takes_bytes fs hes (by omega) hf.waiting.le hf.inside hf.noTerm
  obtain ⟨u, hu, hT, hstate, hlenU⟩ := ht.exists_step hopen hes (by omega) hf.waiting hf.inside
  have hclosed : (u.l.fState = .termd ∨ u.l.fState = .ovf) ∧ u.l.fLen = m := by
    rw [hstate, hlenU]
    obtain ⟨hb, hm⟩ | ⟨hb, he, hm⟩ := hf.closes
    · obtain ⟨h1, h2⟩ := after_term (s := t) (hb.trans (congrArg Config.term ht.cfg.symm))
      exact ⟨.inl h1, by rw [h2, ht.cursor, hm]⟩
    · obtain ⟨h1, h2⟩ := after_last_byte (s := t) (ht.cfg ▸ hb) (by rw [ht.cursor, ht.cfg, he])
      exact ⟨.inr h1, by rw [h2, ht.cfg, hm, he]⟩
  obtain ⟨hclosed, hm⟩ := hclosed
  have hmn : m ≤ n + 1 := by
    obtain ⟨-, hm⟩ | ⟨-, -, hm⟩ := hf.closes <;> omega
  have hbytes : u.mem.asmBytes m = s.line.inp.take m := by
    rw [← take_asmBytes _ hmn, hT.bytes, List.take_take, Nat.min_eq_left hmn]
  have hroom := hT.room
  obtain ⟨w, hw, hq, hinp, hend⟩ := hT.up.publishes hclosed hT.pub (by omega)
    (fun e he => hes e (List.mem_of_mem_drop (hT.events ▸ he))) (by rw [hT.events, List.length_drop]; omega)
  rw [hm] at hw hq
  rw [hbytes, hT.queue] at hq
  exact ⟨w, (runSteps_add ((runSteps_succ hrun).trans hu)).trans hw, hq, hinp.trans hT.inp, hend⟩

end Sys2Proof.Machine

namespace Sys2Proof.Proofs

open Sys2Proof Sys2Proof.Machine

/-- Settles O57: TERM closes the frame after its last byte, and the frame is then published. -/
theorem terminatedLineIsPublishedAsOneFrame : Obligations.TerminatedLineIsPublishedAsOneFrame := by
  unfold Obligations.TerminatedLineIsPublishedAsOneFrame
  rintro s line rest es hc hf hr hi hfresh hchain fs hcap hterm hinp room rfl hes hlen
  have hframe : ClosesFrame s line.length line.length :=
    ⟨by simp [hinp], by simpa [hinp] using hterm, hcap, .inl ⟨by simp [hinp], rfl⟩⟩
  have hup : LineUp s := ⟨hc, hf, hr, hi, hfresh, hchain⟩
  obtain ⟨t, ht, hq, hrest, hend⟩ := hup.publishes_frame fs hframe room hes (by omega)
  rw [hinp] at hq hrest
  have hsum : 2 * line.length + 3 = line.length + 1 + (line.length + 2) := by omega
  exact ⟨t, hsum ▸ ht, by simpa using hq, by simpa using hrest, hend⟩

/-- Settles O58: the last of ASM_CAP bytes closes the frame and is part of it, and the frame is then published. -/
theorem overflowIsPublishedAtFullCapacity : Obligations.OverflowIsPublishedAtFullCapacity := by
  unfold Obligations.OverflowIsPublishedAtFullCapacity
  rintro s line rest es hc hf hr hi hfresh hchain fs hcap hterm hinp room rfl hes hlen
  obtain ⟨-, -, -, hpos, -⟩ := (legal_iff s.cfg).1 hc.1
  obtain ⟨n, hn⟩ := Nat.exists_eq_add_of_le' (hcap ▸ hpos)
  have hlt : n < line.length := by omega
  have hframe : ClosesFrame s n line.length := by
    refine ⟨by simp [hinp]; omega, fun h => hterm ?_, by omega, .inr ⟨fun h => hterm ?_, by omega, hn⟩⟩
    · rw [hinp, List.take_append_of_le_length hlt.le] at h
      exact List.mem_of_mem_take h
    · rw [← h]
      simp [hinp, hlt]
  have hup : LineUp s := ⟨hc, hf, hr, hi, hfresh, hchain⟩
  obtain ⟨t, ht, hq, hrest, hend⟩ := hup.publishes_frame fs hframe room hes (by omega)
  rw [hinp] at hq hrest
  have hsum : 2 * line.length + 2 = n + 1 + (line.length + 2) := by omega
  exact ⟨t, hsum ▸ ht, by simpa using hq, by simpa [← hn] using hrest, hend⟩

end Sys2Proof.Proofs
end

section
/-! PROOFS. What holds when a run is launched (spec/70_reset_and_hazards.md R311, spec/10_state.md R47). -/

namespace Sys2Proof.Proofs

open Sys2Proof Sys2Proof.Machine

/-- Settles O45: a reset leaves both queues and the framing buffer empty and the sequencer idle, and INIT's acceptance
is a queue move from there, which keeps every invariant. -/
theorem invariantsHoldAtLaunch : Obligations.InvariantsHoldAtLaunch := by
  unfold Obligations.InvariantsHoldAtLaunch
  exact fun _ h => inv_launch h

end Sys2Proof.Proofs
end
